-- ==== Sys2Proof/Word.lean ====
section
/-! DEFINITION. The widths of the ATmega328: 8-bit registers and data bytes, 16-bit program
words and data addresses (spec/00_scope.md R6, R7). -/

namespace Sys2Proof

/-- A general register, an I/O register, a byte of SRAM (R6, XLEN = 8). -/
abbrev Byte := BitVec 8

/-- A program word, a register pair, a data-space address (R6). Bit 0 is the least significant. -/
abbrev Word := BitVec 16

/-- `hi:lo`, the high byte in the more significant bits (R7). -/
abbrev bytePair (hi lo : Byte) : Word := hi ++ lo

/-- Bits 7..0 of a word (R7). -/
abbrev lowByte (w : Word) : Byte := w.extractLsb' 0 8

/-- Bits 15..8 of a word (R7). -/
abbrev highByte (w : Word) : Byte := w.extractLsb' 8 8

end Sys2Proof
end

