-- ==== Sys2Proof/Syntax.lean ====
section
/-! DEFINITION. The instructions: one constructor per row of spec/opcode_table.json, in the table's
order (spec/30_encoding.md R118), with the operands as the decoder assembles them (R104, R105).

Operand types. A register operand is its number 0..31. An immediate, an address or a displacement
is the bit field itself: `K`, `k`, `q`, `A` are read unsigned, the displacements of `RJMP`, `RCALL`
and the branches are read as two's complement (R105). A bit number is 0..7. Which registers an
instruction can name is `Instr.wellFormed` (WellFormed.lean). -/

namespace Sys2Proof

/-- The number of a general register R0..R31 (spec/10_state.md R20). -/
abbrev Reg := Fin 32

/-- The number of a bit of a byte (R7). -/
abbrev BitNo := Fin 8

/-- The 119 instruction forms of R118. `in`, `set` and `break` are written `ioIn`, `setT`, `brk`
(LAWS.json maps every constructor to its mnemonic). -/
inductive Instr where
  -- data transfer, rows 1..35 (spec/40_data_transfer.md)
  | mov (d r : Reg)
  | movw (d r : Reg)
  | ldi (d : Reg) (k : Byte)
  | lds (d : Reg) (k : Word)
  | ldX (d : Reg)
  | ldXInc (d : Reg)
  | ldXDec (d : Reg)
  | ldY (d : Reg)
  | ldYInc (d : Reg)
  | ldYDec (d : Reg)
  | ldZ (d : Reg)
  | ldZInc (d : Reg)
  | ldZDec (d : Reg)
  | lddY (d : Reg) (q : BitVec 6)
  | lddZ (d : Reg) (q : BitVec 6)
  | sts (k : Word) (r : Reg)
  | stX (r : Reg)
  | stXInc (r : Reg)
  | stXDec (r : Reg)
  | stY (r : Reg)
  | stYInc (r : Reg)
  | stYDec (r : Reg)
  | stZ (r : Reg)
  | stZInc (r : Reg)
  | stZDec (r : Reg)
  | stdY (q : BitVec 6) (r : Reg)
  | stdZ (q : BitVec 6) (r : Reg)
  | lpm
  | lpmZ (d : Reg)
  | lpmZInc (d : Reg)
  | spm
  | ioIn (d : Reg) (a : BitVec 6)
  | ioOut (a : BitVec 6) (r : Reg)
  | push (r : Reg)
  | pop (d : Reg)
  -- bit manipulation, rows 36..54 (spec/41_bit_manipulation.md)
  | swap (d : Reg)
  | sbi (a : BitVec 5) (b : BitNo)
  | cbi (a : BitVec 5) (b : BitNo)
  | sec
  | sez
  | sen
  | sev
  | ses
  | seh
  | setT
  | sei
  | clc
  | clz
  | cln
  | clv
  | cls
  | clh
  | clt
  | cli
  -- system control, rows 55..58 (spec/42_system_control.md)
  | nop
  | brk
  | wdr
  | sleep
  -- arithmetic and logic, rows 59..88 (spec/43_arithmetic_logic.md)
  | add (d r : Reg)
  | adc (d r : Reg)
  | adiw (d : Reg) (k : BitVec 6)
  | sub (d r : Reg)
  | subi (d : Reg) (k : Byte)
  | sbc (d r : Reg)
  | sbci (d : Reg) (k : Byte)
  | sbiw (d : Reg) (k : BitVec 6)
  | and (d r : Reg)
  | andi (d : Reg) (k : Byte)
  | or (d r : Reg)
  | ori (d : Reg) (k : Byte)
  | eor (d r : Reg)
  | com (d : Reg)
  | neg (d : Reg)
  | inc (d : Reg)
  | dec (d : Reg)
  | clr (d : Reg)
  | ser (d : Reg)
  | cp (d r : Reg)
  | cpc (d r : Reg)
  | cpi (d : Reg) (k : Byte)
  | mul (d r : Reg)
  | muls (d r : Reg)
  | mulsu (d r : Reg)
  | lsl (d : Reg)
  | lsr (d : Reg)
  | rol (d : Reg)
  | ror (d : Reg)
  | asr (d : Reg)
  -- jumps, calls, returns, skips, rows 89..101 (spec/44_jump.md)
  | rjmp (k : BitVec 12)
  | jmp (k : BitVec 22)
  | ijmp
  | rcall (k : BitVec 12)
  | call (k : BitVec 22)
  | icall
  | ret
  | reti
  | cpse (d r : Reg)
  | sbrc (r : Reg) (b : BitNo)
  | sbrs (r : Reg) (b : BitNo)
  | sbic (a : BitVec 5) (b : BitNo)
  | sbis (a : BitVec 5) (b : BitNo)
  -- conditional branches, rows 102..119 (spec/45_branch.md)
  | breq (k : BitVec 7)
  | brne (k : BitVec 7)
  | brcs (k : BitVec 7)
  | brcc (k : BitVec 7)
  | brlo (k : BitVec 7)
  | brsh (k : BitVec 7)
  | brmi (k : BitVec 7)
  | brpl (k : BitVec 7)
  | brhs (k : BitVec 7)
  | brhc (k : BitVec 7)
  | brts (k : BitVec 7)
  | brtc (k : BitVec 7)
  | brvs (k : BitVec 7)
  | brvc (k : BitVec 7)
  | brie (k : BitVec 7)
  | brid (k : BitVec 7)
  | brge (k : BitVec 7)
  | brlt (k : BitVec 7)
  deriving DecidableEq, Repr

/-- The spelling the decoder returns for the words of an instruction (R119, R123): the six mnemonics
that are another name of a core instruction's words, and `LDD`/`STD` with q = 0. -/
def Instr.canonical : Instr → Instr
  | .lsl d => .add d d
  | .rol d => .adc d d
  | .clr d => .eor d d
  | .ser d => .ldi d 255
  | .brlo k => .brcs k
  | .brsh k => .brcc k
  | .lddY d q => if q = 0 then .ldY d else .lddY d q
  | .lddZ d q => if q = 0 then .ldZ d else .lddZ d q
  | .stdY q r => if q = 0 then .stY r else .stdY q r
  | .stdZ q r => if q = 0 then .stZ r else .stdZ q r
  | i => i

end Sys2Proof
end

