-- ==== Sys2Proof/WellFormed.lean ====
section
/-! DEFINITION. Which registers an instruction can name (spec/10_state.md R21, spec/30_encoding.md
R104): the only restrictions of the operand ranges that the operand types do not carry. Every other
value a field can hold is accepted (R124, decision D30). -/

namespace Sys2Proof

/-- R16..R31, the registers of the four-bit field of formats RdK and MULS (R104). -/
def Reg.isUpper (d : Reg) : Bool := 16 ≤ d.val

/-- R16..R23, the registers of the three-bit field of format MULSU (R104). -/
def Reg.isMulsu (d : Reg) : Bool := 16 ≤ d.val && d.val ≤ 23

/-- R0, R2, .., R30, the low registers of a pair of format MOVW (R104). -/
def Reg.isEven (d : Reg) : Bool := d.val % 2 == 0

/-- R24, R26, R28, R30, the low registers of the pairs of format IW (R104). -/
def Reg.isUpperPair (d : Reg) : Bool := d.isEven && 24 ≤ d.val

/-- An instruction whose register operands are in the ranges of R21. -/
def Instr.wellFormed : Instr → Bool
  | .movw d r => d.isEven && r.isEven
  | .ldi d _ | .subi d _ | .sbci d _ | .andi d _ | .ori d _ | .cpi d _ | .ser d => d.isUpper
  | .adiw d _ | .sbiw d _ => d.isUpperPair
  | .muls d r => d.isUpper && r.isUpper
  | .mulsu d r => d.isMulsu && r.isMulsu
  | _ => true

end Sys2Proof
end

