-- ==== Sys2Proof/Decode.lean ====
section
/-! DEFINITION. The decoder and the encoder, from the encoding tables of spec/30_encoding.md
(R102..R107, R118, R119, R124). The spec marks every bit pattern as its author's general knowledge
(R100); notes/assumptions/11.md.

The decoder looks at the first word alone (R102); a row of the opcode table is a mask, a pattern
and the instruction built from the fields, and `Config.opcodeTable` is the table. The six mnemonics
that are another name of a core instruction's words (`LSL`, `ROL`, `CLR`, `SER`, `BRLO`, `BRSH`) have
no decoding row: the decoder returns the first name (R119). -/

namespace Sys2Proof

/-- Why a sequence of bytes is no instruction. -/
inductive DecodeError where
  /-- R120: the first word matches no row of the table. -/
  | unlistedEncoding (w : Word)
  /-- The bytes end inside the instruction. -/
  | truncated
  deriving DecidableEq, Repr

/-! ### Fields (R104, R105) -/

/-- A register named by five bits. -/
def regOf (b : BitVec 5) : Reg := b.toFin

/-- `d = bits[8:4]` (and the `r` of the one-register stores and of format RBit). -/
def fieldD (w : Word) : Reg := regOf (w.extractLsb' 4 5)

/-- `r = bits[9]:bits[3:0]`, format RdRr. -/
def fieldR (w : Word) : Reg := regOf (w.extractLsb' 9 1 ++ w.extractLsb' 0 4)

/-- `16 + bits[7:4]`, formats RdK and MULS. -/
def fieldUpper (w : Word) : Reg := regOf (1#1 ++ w.extractLsb' 4 4)

/-- `16 + bits[3:0]`, format MULS. -/
def fieldUpperR (w : Word) : Reg := regOf (1#1 ++ w.extractLsb' 0 4)

/-- `16 + bits[6:4]`, format MULSU. -/
def fieldMulsuD (w : Word) : Reg := regOf (0b10#2 ++ w.extractLsb' 4 3)

/-- `16 + bits[2:0]`, format MULSU. -/
def fieldMulsuR (w : Word) : Reg := regOf (0b10#2 ++ w.extractLsb' 0 3)

/-- `2·bits[7:4]`, format MOVW. -/
def fieldPairD (w : Word) : Reg := regOf (w.extractLsb' 4 4 ++ 0#1)

/-- `2·bits[3:0]`, format MOVW. -/
def fieldPairR (w : Word) : Reg := regOf (w.extractLsb' 0 4 ++ 0#1)

/-- `24 + 2·bits[5:4]`, format IW. -/
def fieldIW (w : Word) : Reg := regOf (0b11#2 ++ w.extractLsb' 4 2 ++ 0#1)

/-- `K = bits[11:8]:bits[3:0]`, format RdK. -/
def fieldK (w : Word) : Byte := w.extractLsb' 8 4 ++ w.extractLsb' 0 4

/-- `K = bits[7:6]:bits[3:0]`, format IW. -/
def fieldK6 (w : Word) : BitVec 6 := w.extractLsb' 6 2 ++ w.extractLsb' 0 4

/-- `q = bits[13]:bits[11:10]:bits[2:0]`, format LDD. -/
def fieldQ (w : Word) : BitVec 6 := w.extractLsb' 13 1 ++ w.extractLsb' 10 2 ++ w.extractLsb' 0 3

/-- `A = bits[10:9]:bits[3:0]`, format IO. -/
def fieldA6 (w : Word) : BitVec 6 := w.extractLsb' 9 2 ++ w.extractLsb' 0 4

/-- `A = bits[7:3]`, format IOBit. -/
def fieldA5 (w : Word) : BitVec 5 := w.extractLsb' 3 5

/-- `b = bits[2:0]`, formats IOBit and RBit. -/
def fieldB (w : Word) : BitNo := (w.extractLsb' 0 3).toFin

/-- `K = bits[11:0]`, format Rel12. -/
def fieldRel12 (w : Word) : BitVec 12 := w.extractLsb' 0 12

/-- `K = bits[9:3]`, format Br. -/
def fieldRel7 (w : Word) : BitVec 7 := w.extractLsb' 3 7

/-- `k = bits[8:4]:bits[0]` of word 1, then word 2, format Abs22. -/
def fieldAbs (w w2 : Word) : BitVec 22 := w.extractLsb' 4 5 ++ w.extractLsb' 0 1 ++ w2

/-! ### The opcode table -/

/-- How a row's instruction is made: from its one word, or from its two. -/
inductive Build where
  | one (make : Word → Instr)
  | two (make : Word → Word → Instr)

/-- A row: `w` is its instruction's first word when `w AND mask = pattern`. -/
structure Row where
  mask : Word
  pattern : Word
  build : Build

/-- The first word matches the row. -/
def Row.accepts (r : Row) (w : Word) : Bool := w &&& r.mask == r.pattern

/-- The row's instruction has two words (R101). -/
def Row.twoWords (r : Row) : Bool :=
  match r.build with
  | .one _ => false
  | .two _ => true

/-- The row's instruction, from its first word and the word after it. -/
def Row.instr (r : Row) (w w2 : Word) : Instr :=
  match r.build with
  | .one make => make w
  | .two make => make w w2

/-- R118, first nibble 0. -/
def rows0 : List Row := [
  ⟨0xFFFF, 0x0000, .one fun _ => .nop⟩,
  ⟨0xFF00, 0x0100, .one fun w => .movw (fieldPairD w) (fieldPairR w)⟩,
  ⟨0xFF00, 0x0200, .one fun w => .muls (fieldUpper w) (fieldUpperR w)⟩,
  ⟨0xFF88, 0x0300, .one fun w => .mulsu (fieldMulsuD w) (fieldMulsuR w)⟩,
  ⟨0xFC00, 0x0400, .one fun w => .cpc (fieldD w) (fieldR w)⟩,
  ⟨0xFC00, 0x0800, .one fun w => .sbc (fieldD w) (fieldR w)⟩,
  ⟨0xFC00, 0x0C00, .one fun w => .add (fieldD w) (fieldR w)⟩]

/-- R118, first nibble 1. -/
def rows1 : List Row := [
  ⟨0xFC00, 0x1000, .one fun w => .cpse (fieldD w) (fieldR w)⟩,
  ⟨0xFC00, 0x1400, .one fun w => .cp (fieldD w) (fieldR w)⟩,
  ⟨0xFC00, 0x1800, .one fun w => .sub (fieldD w) (fieldR w)⟩,
  ⟨0xFC00, 0x1C00, .one fun w => .adc (fieldD w) (fieldR w)⟩]

/-- R118, first nibble 2. -/
def rows2 : List Row := [
  ⟨0xFC00, 0x2000, .one fun w => .and (fieldD w) (fieldR w)⟩,
  ⟨0xFC00, 0x2400, .one fun w => .eor (fieldD w) (fieldR w)⟩,
  ⟨0xFC00, 0x2800, .one fun w => .or (fieldD w) (fieldR w)⟩,
  ⟨0xFC00, 0x2C00, .one fun w => .mov (fieldD w) (fieldR w)⟩]

/-- R118, first nibble 3. -/
def rows3 : List Row := [
  ⟨0xF000, 0x3000, .one fun w => .cpi (fieldUpper w) (fieldK w)⟩]

/-- R118, first nibble 4. -/
def rows4 : List Row := [
  ⟨0xF000, 0x4000, .one fun w => .sbci (fieldUpper w) (fieldK w)⟩]

/-- R118, first nibble 5. -/
def rows5 : List Row := [
  ⟨0xF000, 0x5000, .one fun w => .subi (fieldUpper w) (fieldK w)⟩]

/-- R118, first nibble 6. -/
def rows6 : List Row := [
  ⟨0xF000, 0x6000, .one fun w => .ori (fieldUpper w) (fieldK w)⟩]

/-- R118, first nibble 7. -/
def rows7 : List Row := [
  ⟨0xF000, 0x7000, .one fun w => .andi (fieldUpper w) (fieldK w)⟩]

/-- R118, first nibbles 8 and A; the `LD`/`ST` spelling of q = 0 comes first (R119). -/
def rows8 : List Row := [
  ⟨0xFE0F, 0x8008, .one fun w => .ldY (fieldD w)⟩,
  ⟨0xFE0F, 0x8000, .one fun w => .ldZ (fieldD w)⟩,
  ⟨0xFE0F, 0x8208, .one fun w => .stY (fieldD w)⟩,
  ⟨0xFE0F, 0x8200, .one fun w => .stZ (fieldD w)⟩,
  ⟨0xD208, 0x8008, .one fun w => .lddY (fieldD w) (fieldQ w)⟩,
  ⟨0xD208, 0x8000, .one fun w => .lddZ (fieldD w) (fieldQ w)⟩,
  ⟨0xD208, 0x8208, .one fun w => .stdY (fieldQ w) (fieldD w)⟩,
  ⟨0xD208, 0x8200, .one fun w => .stdZ (fieldQ w) (fieldD w)⟩]

/-- R118, first byte 90 or 91 (R106, s = 0). -/
def rows9Load : List Row := [
  ⟨0xFE0F, 0x9000, .two fun w w2 => .lds (fieldD w) w2⟩,
  ⟨0xFE0F, 0x9001, .one fun w => .ldZInc (fieldD w)⟩,
  ⟨0xFE0F, 0x9002, .one fun w => .ldZDec (fieldD w)⟩,
  ⟨0xFE0F, 0x9004, .one fun w => .lpmZ (fieldD w)⟩,
  ⟨0xFE0F, 0x9005, .one fun w => .lpmZInc (fieldD w)⟩,
  ⟨0xFE0F, 0x9009, .one fun w => .ldYInc (fieldD w)⟩,
  ⟨0xFE0F, 0x900A, .one fun w => .ldYDec (fieldD w)⟩,
  ⟨0xFE0F, 0x900C, .one fun w => .ldX (fieldD w)⟩,
  ⟨0xFE0F, 0x900D, .one fun w => .ldXInc (fieldD w)⟩,
  ⟨0xFE0F, 0x900E, .one fun w => .ldXDec (fieldD w)⟩,
  ⟨0xFE0F, 0x900F, .one fun w => .pop (fieldD w)⟩]

/-- R118, first byte 92 or 93 (R106, s = 1). -/
def rows9Store : List Row := [
  ⟨0xFE0F, 0x9200, .two fun w w2 => .sts w2 (fieldD w)⟩,
  ⟨0xFE0F, 0x9201, .one fun w => .stZInc (fieldD w)⟩,
  ⟨0xFE0F, 0x9202, .one fun w => .stZDec (fieldD w)⟩,
  ⟨0xFE0F, 0x9209, .one fun w => .stYInc (fieldD w)⟩,
  ⟨0xFE0F, 0x920A, .one fun w => .stYDec (fieldD w)⟩,
  ⟨0xFE0F, 0x920C, .one fun w => .stX (fieldD w)⟩,
  ⟨0xFE0F, 0x920D, .one fun w => .stXInc (fieldD w)⟩,
  ⟨0xFE0F, 0x920E, .one fun w => .stXDec (fieldD w)⟩,
  ⟨0xFE0F, 0x920F, .one fun w => .push (fieldD w)⟩]

/-- R118, first byte 94 or 95. -/
def rows9Misc : List Row := [
  ⟨0xFE0F, 0x9400, .one fun w => .com (fieldD w)⟩,
  ⟨0xFE0F, 0x9401, .one fun w => .neg (fieldD w)⟩,
  ⟨0xFE0F, 0x9402, .one fun w => .swap (fieldD w)⟩,
  ⟨0xFE0F, 0x9403, .one fun w => .inc (fieldD w)⟩,
  ⟨0xFE0F, 0x9405, .one fun w => .asr (fieldD w)⟩,
  ⟨0xFE0F, 0x9406, .one fun w => .lsr (fieldD w)⟩,
  ⟨0xFE0F, 0x9407, .one fun w => .ror (fieldD w)⟩,
  ⟨0xFE0F, 0x940A, .one fun w => .dec (fieldD w)⟩,
  ⟨0xFFFF, 0x9408, .one fun _ => .sec⟩,
  ⟨0xFFFF, 0x9418, .one fun _ => .sez⟩,
  ⟨0xFFFF, 0x9428, .one fun _ => .sen⟩,
  ⟨0xFFFF, 0x9438, .one fun _ => .sev⟩,
  ⟨0xFFFF, 0x9448, .one fun _ => .ses⟩,
  ⟨0xFFFF, 0x9458, .one fun _ => .seh⟩,
  ⟨0xFFFF, 0x9468, .one fun _ => .setT⟩,
  ⟨0xFFFF, 0x9478, .one fun _ => .sei⟩,
  ⟨0xFFFF, 0x9488, .one fun _ => .clc⟩,
  ⟨0xFFFF, 0x9498, .one fun _ => .clz⟩,
  ⟨0xFFFF, 0x94A8, .one fun _ => .cln⟩,
  ⟨0xFFFF, 0x94B8, .one fun _ => .clv⟩,
  ⟨0xFFFF, 0x94C8, .one fun _ => .cls⟩,
  ⟨0xFFFF, 0x94D8, .one fun _ => .clh⟩,
  ⟨0xFFFF, 0x94E8, .one fun _ => .clt⟩,
  ⟨0xFFFF, 0x94F8, .one fun _ => .cli⟩,
  ⟨0xFFFF, 0x9409, .one fun _ => .ijmp⟩,
  ⟨0xFFFF, 0x9509, .one fun _ => .icall⟩,
  ⟨0xFFFF, 0x9508, .one fun _ => .ret⟩,
  ⟨0xFFFF, 0x9518, .one fun _ => .reti⟩,
  ⟨0xFFFF, 0x9588, .one fun _ => .sleep⟩,
  ⟨0xFFFF, 0x9598, .one fun _ => .brk⟩,
  ⟨0xFFFF, 0x95A8, .one fun _ => .wdr⟩,
  ⟨0xFFFF, 0x95C8, .one fun _ => .lpm⟩,
  ⟨0xFFFF, 0x95E8, .one fun _ => .spm⟩,
  ⟨0xFE0E, 0x940C, .two fun w w2 => .jmp (fieldAbs w w2)⟩,
  ⟨0xFE0E, 0x940E, .two fun w w2 => .call (fieldAbs w w2)⟩]

/-- R118, first byte 96 or 97. -/
def rows9Word : List Row := [
  ⟨0xFF00, 0x9600, .one fun w => .adiw (fieldIW w) (fieldK6 w)⟩,
  ⟨0xFF00, 0x9700, .one fun w => .sbiw (fieldIW w) (fieldK6 w)⟩]

/-- R118, first byte 98 to 9B. -/
def rows9Bit : List Row := [
  ⟨0xFF00, 0x9800, .one fun w => .cbi (fieldA5 w) (fieldB w)⟩,
  ⟨0xFF00, 0x9900, .one fun w => .sbic (fieldA5 w) (fieldB w)⟩,
  ⟨0xFF00, 0x9A00, .one fun w => .sbi (fieldA5 w) (fieldB w)⟩,
  ⟨0xFF00, 0x9B00, .one fun w => .sbis (fieldA5 w) (fieldB w)⟩]

/-- R118, first byte 9C to 9F. -/
def rows9Mul : List Row := [
  ⟨0xFC00, 0x9C00, .one fun w => .mul (fieldD w) (fieldR w)⟩]

/-- R118, first nibble B. -/
def rowsB : List Row := [
  ⟨0xF800, 0xB000, .one fun w => .ioIn (fieldD w) (fieldA6 w)⟩,
  ⟨0xF800, 0xB800, .one fun w => .ioOut (fieldA6 w) (fieldD w)⟩]

/-- R118, first nibble C. -/
def rowsC : List Row := [
  ⟨0xF000, 0xC000, .one fun w => .rjmp (fieldRel12 w)⟩]

/-- R118, first nibble D. -/
def rowsD : List Row := [
  ⟨0xF000, 0xD000, .one fun w => .rcall (fieldRel12 w)⟩]

/-- R118, first nibble E. -/
def rowsE : List Row := [
  ⟨0xF000, 0xE000, .one fun w => .ldi (fieldUpper w) (fieldK w)⟩]

/-- R118, first nibble F. -/
def rowsF : List Row := [
  ⟨0xFC07, 0xF000, .one fun w => .brcs (fieldRel7 w)⟩,
  ⟨0xFC07, 0xF001, .one fun w => .breq (fieldRel7 w)⟩,
  ⟨0xFC07, 0xF002, .one fun w => .brmi (fieldRel7 w)⟩,
  ⟨0xFC07, 0xF003, .one fun w => .brvs (fieldRel7 w)⟩,
  ⟨0xFC07, 0xF004, .one fun w => .brlt (fieldRel7 w)⟩,
  ⟨0xFC07, 0xF005, .one fun w => .brhs (fieldRel7 w)⟩,
  ⟨0xFC07, 0xF006, .one fun w => .brts (fieldRel7 w)⟩,
  ⟨0xFC07, 0xF007, .one fun w => .brie (fieldRel7 w)⟩,
  ⟨0xFC07, 0xF400, .one fun w => .brcc (fieldRel7 w)⟩,
  ⟨0xFC07, 0xF401, .one fun w => .brne (fieldRel7 w)⟩,
  ⟨0xFC07, 0xF402, .one fun w => .brpl (fieldRel7 w)⟩,
  ⟨0xFC07, 0xF403, .one fun w => .brvc (fieldRel7 w)⟩,
  ⟨0xFC07, 0xF404, .one fun w => .brge (fieldRel7 w)⟩,
  ⟨0xFC07, 0xF405, .one fun w => .brhc (fieldRel7 w)⟩,
  ⟨0xFC07, 0xF406, .one fun w => .brtc (fieldRel7 w)⟩,
  ⟨0xFC07, 0xF407, .one fun w => .brid (fieldRel7 w)⟩,
  ⟨0xFE08, 0xFC00, .one fun w => .sbrc (fieldD w) (fieldB w)⟩,
  ⟨0xFE08, 0xFE00, .one fun w => .sbrs (fieldD w) (fieldB w)⟩]

/-- The encodings of the instructions, the parameter `opcode_table.json` of R6 (decision D1): the decoder
takes nothing else from the spec's encodings. Where two rows accept a word, the first counts. -/
def Config.opcodeTable : List Row :=
  rows0 ++ rows1 ++ rows2 ++ rows3 ++ rows4 ++ rows5 ++ rows6 ++ rows7 ++ rows8 ++ rows9Load ++
  rows9Store ++ rows9Misc ++ rows9Word ++ rows9Bit ++ rows9Mul ++ rowsB ++ rowsC ++ rowsD ++ rowsE ++
  rowsF

/-- The row of a first word (R102). -/
def findRow (w : Word) : Option Row := Config.opcodeTable.find? fun r => r.accepts w

/-- The first word belongs to a two-word instruction (R102): by the table, to LDS, STS, JMP or CALL. -/
def isTwoWord (w : Word) : Bool :=
  match findRow w with
  | some r => r.twoWords
  | none => false

/-- The instruction with first word `w` and, where it has one, second word `w2` (R102, R118, R120). -/
def decode (w w2 : Word) : Except DecodeError Instr :=
  match findRow w with
  | some r => .ok (r.instr w w2)
  | none => .error (.unlistedEncoding w)

/-- Decoding from bytes, each word low byte first (R62): the instruction and the bytes after it. -/
def decodeBytes : List Byte → Except DecodeError (Instr × List Byte)
  | lo :: hi :: rest =>
    if isTwoWord (bytePair hi lo) then
      match rest with
      | lo2 :: hi2 :: rest2 => (decode (bytePair hi lo) (bytePair hi2 lo2)).map (·, rest2)
      | _ => .error .truncated
    else (decode (bytePair hi lo) 0).map (·, rest)
  | _ => .error .truncated

/-! ### The encoder (R103) -/

/-- The five bits of a register's number. -/
def Reg.bits (r : Reg) : BitVec 5 := BitVec.ofFin r

/-- The three bits of a bit number. -/
def BitNo.bits (b : BitNo) : BitVec 3 := BitVec.ofFin b

/-- `oooo oord dddd rrrr`. -/
def encRdRr (op : BitVec 6) (d r : Reg) : Word :=
  op ++ r.bits.extractLsb' 4 1 ++ d.bits ++ r.bits.extractLsb' 0 4

/-- `oooo KKKK dddd KKKK`. -/
def encRdK (op : BitVec 4) (d : Reg) (k : Byte) : Word :=
  op ++ k.extractLsb' 4 4 ++ d.bits.extractLsb' 0 4 ++ k.extractLsb' 0 4

/-- `oooo oood dddd mmmm`: formats Rd and LdSt. -/
def encRd (op : BitVec 7) (d : Reg) (mode : BitVec 4) : Word := op ++ d.bits ++ mode

/-- `10q0 qqsd dddd yqqq`. -/
def encLdd (store y : BitVec 1) (d : Reg) (q : BitVec 6) : Word :=
  0b10#2 ++ q.extractLsb' 5 1 ++ 0#1 ++ q.extractLsb' 3 2 ++ store ++ d.bits ++ y ++ q.extractLsb' 0 3

/-- `1011 sAAd dddd AAAA`. -/
def encIO (s : BitVec 1) (d : Reg) (a : BitVec 6) : Word :=
  0b1011#4 ++ s ++ a.extractLsb' 4 2 ++ d.bits ++ a.extractLsb' 0 4

/-- `1001 10oo AAAA Abbb`. -/
def encIOBit (op : BitVec 2) (a : BitVec 5) (b : BitNo) : Word := 0b100110#6 ++ op ++ a ++ b.bits

/-- `1111 11sr rrrr 0bbb`. -/
def encRBit (s : BitVec 1) (r : Reg) (b : BitNo) : Word :=
  0b111111#6 ++ s ++ r.bits ++ 0#1 ++ b.bits

/-- `1111 0ckk kkkk ksss`. -/
def encBr (c : BitVec 1) (k : BitVec 7) (s : BitVec 3) : Word := 0b11110#5 ++ c ++ k ++ s

/-- `110o kkkk kkkk kkkk`. -/
def encRel12 (o : BitVec 1) (k : BitVec 12) : Word := 0b110#3 ++ o ++ k

/-- `1001 010k kkkk 11ok` and the low sixteen bits of the target. -/
def encAbs22 (o : BitVec 1) (k : BitVec 22) : List Word :=
  [0b1001010#7 ++ k.extractLsb' 17 5 ++ 0b11#2 ++ o ++ k.extractLsb' 16 1, k.extractLsb' 0 16]

/-- `1001 0100 osss 1000`. -/
def encSreg (o : BitVec 1) (s : BitVec 3) : Word := 0b10010100#8 ++ o ++ s ++ 0b1000#4

/-- `1001 011o KKdd KKKK`. -/
def encIW (o : BitVec 1) (d : Reg) (k : BitVec 6) : Word :=
  0b1001011#7 ++ o ++ k.extractLsb' 4 2 ++ d.bits.extractLsb' 1 2 ++ k.extractLsb' 0 4

/-- `oooo oooo dddd rrrr`, the fields being pair numbers (MOVW). -/
def encMovw (d r : Reg) : Word := 1#8 ++ d.bits.extractLsb' 1 4 ++ r.bits.extractLsb' 1 4

/-- `0000 0010 dddd rrrr` (MULS). -/
def encMuls (d r : Reg) : Word := 2#8 ++ d.bits.extractLsb' 0 4 ++ r.bits.extractLsb' 0 4

/-- `0000 0011 0ddd 0rrr` (MULSU). -/
def encMulsu (d r : Reg) : Word :=
  3#8 ++ 0#1 ++ d.bits.extractLsb' 0 3 ++ 0#1 ++ r.bits.extractLsb' 0 3

/-- The words of an instruction (R103, R106, R107, R118), the first word first. For an instruction
that is not well-formed a register number is cut to the bits of its field. -/
def encode : Instr → List Word
  | .mov d r => [encRdRr 0b001011 d r]
  | .movw d r => [encMovw d r]
  | .ldi d k => [encRdK 0b1110 d k]
  | .lds d k => [encRd 0b1001000 d 0b0000, k]
  | .ldX d => [encRd 0b1001000 d 0b1100]
  | .ldXInc d => [encRd 0b1001000 d 0b1101]
  | .ldXDec d => [encRd 0b1001000 d 0b1110]
  | .ldY d => [encRd 0b1000000 d 0b1000]
  | .ldYInc d => [encRd 0b1001000 d 0b1001]
  | .ldYDec d => [encRd 0b1001000 d 0b1010]
  | .ldZ d => [encRd 0b1000000 d 0b0000]
  | .ldZInc d => [encRd 0b1001000 d 0b0001]
  | .ldZDec d => [encRd 0b1001000 d 0b0010]
  | .lddY d q => [encLdd 0 1 d q]
  | .lddZ d q => [encLdd 0 0 d q]
  | .sts k r => [encRd 0b1001001 r 0b0000, k]
  | .stX r => [encRd 0b1001001 r 0b1100]
  | .stXInc r => [encRd 0b1001001 r 0b1101]
  | .stXDec r => [encRd 0b1001001 r 0b1110]
  | .stY r => [encRd 0b1000001 r 0b1000]
  | .stYInc r => [encRd 0b1001001 r 0b1001]
  | .stYDec r => [encRd 0b1001001 r 0b1010]
  | .stZ r => [encRd 0b1000001 r 0b0000]
  | .stZInc r => [encRd 0b1001001 r 0b0001]
  | .stZDec r => [encRd 0b1001001 r 0b0010]
  | .stdY q r => [encLdd 1 1 r q]
  | .stdZ q r => [encLdd 1 0 r q]
  | .lpm => [0b1001010111001000]
  | .lpmZ d => [encRd 0b1001000 d 0b0100]
  | .lpmZInc d => [encRd 0b1001000 d 0b0101]
  | .spm => [0b1001010111101000]
  | .ioIn d a => [encIO 0 d a]
  | .ioOut a r => [encIO 1 r a]
  | .push r => [encRd 0b1001001 r 0b1111]
  | .pop d => [encRd 0b1001000 d 0b1111]
  | .swap d => [encRd 0b1001010 d 0b0010]
  | .sbi a b => [encIOBit 0b10 a b]
  | .cbi a b => [encIOBit 0b00 a b]
  | .sec => [encSreg 0 0]
  | .sez => [encSreg 0 1]
  | .sen => [encSreg 0 2]
  | .sev => [encSreg 0 3]
  | .ses => [encSreg 0 4]
  | .seh => [encSreg 0 5]
  | .setT => [encSreg 0 6]
  | .sei => [encSreg 0 7]
  | .clc => [encSreg 1 0]
  | .clz => [encSreg 1 1]
  | .cln => [encSreg 1 2]
  | .clv => [encSreg 1 3]
  | .cls => [encSreg 1 4]
  | .clh => [encSreg 1 5]
  | .clt => [encSreg 1 6]
  | .cli => [encSreg 1 7]
  | .nop => [0b0000000000000000]
  | .brk => [0b1001010110011000]
  | .wdr => [0b1001010110101000]
  | .sleep => [0b1001010110001000]
  | .add d r => [encRdRr 0b000011 d r]
  | .adc d r => [encRdRr 0b000111 d r]
  | .adiw d k => [encIW 0 d k]
  | .sub d r => [encRdRr 0b000110 d r]
  | .subi d k => [encRdK 0b0101 d k]
  | .sbc d r => [encRdRr 0b000010 d r]
  | .sbci d k => [encRdK 0b0100 d k]
  | .sbiw d k => [encIW 1 d k]
  | .and d r => [encRdRr 0b001000 d r]
  | .andi d k => [encRdK 0b0111 d k]
  | .or d r => [encRdRr 0b001010 d r]
  | .ori d k => [encRdK 0b0110 d k]
  | .eor d r => [encRdRr 0b001001 d r]
  | .com d => [encRd 0b1001010 d 0b0000]
  | .neg d => [encRd 0b1001010 d 0b0001]
  | .inc d => [encRd 0b1001010 d 0b0011]
  | .dec d => [encRd 0b1001010 d 0b1010]
  | .clr d => [encRdRr 0b001001 d d]
  | .ser d => [encRdK 0b1110 d 0xFF]
  | .cp d r => [encRdRr 0b000101 d r]
  | .cpc d r => [encRdRr 0b000001 d r]
  | .cpi d k => [encRdK 0b0011 d k]
  | .mul d r => [encRdRr 0b100111 d r]
  | .muls d r => [encMuls d r]
  | .mulsu d r => [encMulsu d r]
  | .lsl d => [encRdRr 0b000011 d d]
  | .lsr d => [encRd 0b1001010 d 0b0110]
  | .rol d => [encRdRr 0b000111 d d]
  | .ror d => [encRd 0b1001010 d 0b0111]
  | .asr d => [encRd 0b1001010 d 0b0101]
  | .rjmp k => [encRel12 0 k]
  | .jmp k => encAbs22 0 k
  | .ijmp => [0b1001010000001001]
  | .rcall k => [encRel12 1 k]
  | .call k => encAbs22 1 k
  | .icall => [0b1001010100001001]
  | .ret => [0b1001010100001000]
  | .reti => [0b1001010100011000]
  | .cpse d r => [encRdRr 0b000100 d r]
  | .sbrc r b => [encRBit 0 r b]
  | .sbrs r b => [encRBit 1 r b]
  | .sbic a b => [encIOBit 0b01 a b]
  | .sbis a b => [encIOBit 0b11 a b]
  | .breq k => [encBr 0 k 1]
  | .brne k => [encBr 1 k 1]
  | .brcs k => [encBr 0 k 0]
  | .brcc k => [encBr 1 k 0]
  | .brlo k => [encBr 0 k 0]
  | .brsh k => [encBr 1 k 0]
  | .brmi k => [encBr 0 k 2]
  | .brpl k => [encBr 1 k 2]
  | .brhs k => [encBr 0 k 5]
  | .brhc k => [encBr 1 k 5]
  | .brts k => [encBr 0 k 6]
  | .brtc k => [encBr 1 k 6]
  | .brvs k => [encBr 0 k 3]
  | .brvc k => [encBr 1 k 3]
  | .brie k => [encBr 0 k 7]
  | .brid k => [encBr 1 k 7]
  | .brge k => [encBr 1 k 4]
  | .brlt k => [encBr 0 k 4]

/-- Decoding a list of words: the first word and, if there is one, the second. -/
def decodeWords : List Word → Except DecodeError Instr
  | [] => .error .truncated
  | [w] => if isTwoWord w then .error .truncated else decode w 0
  | w :: w2 :: _ => decode w w2

/-! ### The opcode table's numbering -/

/-- The two words of an instruction whose bits are the number `v`. Bit 0 is the least significant
bit of the first word and the second word is bits 31..16. The two-word rows of
spec/opcode_table.json are numbered the other way (first word in bits 31..16), so where only the upper half
is the first word of a two-word instruction, that half is the first word (notes/assumptions/8.md). -/
def tableWords (nbits v : Nat) : Word × Word :=
  let low := BitVec.ofNat 16 (v % 2 ^ nbits)
  let high := BitVec.ofNat 16 (v % 2 ^ nbits / 65536)
  if !isTwoWord low && isTwoWord high then (high, low) else (low, high)

/-- The instruction the decoder reads from an instruction whose bits are `w`, laid out in memory
with each word low byte first (R62). -/
def decodeTableWord (nbits w : Nat) : Option Instr :=
  let (w1, w2) := tableWords nbits w
  match decodeBytes [lowByte w1, highByte w1, lowByte w2, highByte w2] with
  | .ok (i, _) => some i
  | .error _ => none

end Sys2Proof
end

