-- ==== Sys2Proof/Config.lean ====
section
/-! DEFINITION. What is fixed for a machine (spec/00_scope.md R6; the opcode table, also a parameter of
R6, is `Config.opcodeTable` of Sys2Proof/Decode.lean; notes/assumptions/30.md) and the values the
spec leaves open (`draw(n)`, spec/00_scope.md R11, spec/93_implementation_defined.md Part 2).

A free value is an `opaque` constant: it has no body, so nothing proved of the model can depend
on which value it is. Each is applied to the counter `State.draws`, which moves on at every use,
so that two draws are two different unknowns. -/

namespace Sys2Proof.Config

/-- FLASH_WORDS: 16K words of program memory (R6). PC_BITS is 14. -/
abbrev flashWords : Nat := 16384

/-- RAMSTART (R6, R70, decision D9). -/
abbrev ramStart : Nat := 0x0100

/-- RAMEND (R6, R70, decision D9). -/
abbrev ramEnd : Nat := 0x08FF

/-- IO_OFFSET: I/O register A is data address A + 0x20 (R6, R35). -/
abbrev ioOffset : Nat := 0x20

/-- SP_RESET = RAMEND (R6, R42, decision D12). -/
abbrev spReset : Word := 0x08FF#16

/-- The size of a return address on the stack (R6, R32, decision D13). -/
abbrev returnAddressBytes : Nat := 2

/-- The open parameter `sleepBehaviour` of spec/42_system_control.md R223 (decision D19). -/
inductive SleepBehaviour where
  /-- `SLEEP` stops the core until an interrupt or a reset. -/
  | wait
  /-- `SLEEP` is a `NOP` (a chip whose sleep-enable bit is 0). -/
  | nop
  deriving DecidableEq, Repr

/-- The default the spec states in R223. -/
def sleepBehaviour : SleepBehaviour := .wait

/-- `draw(1)` inside a step: H after NEG (R244), `inhibit` after a store that sets I (R350), bits 5
and 2 of a read of TIFR1 (R373), the compare after a counter write and TOV1 in CTC mode at 0xFFFF
(R372). -/
opaque drawBit : Nat → Bool

/-- `draw(8)`: an SRAM byte that nothing has written (R43, decision D26). -/
opaque drawByte : Nat → Byte

/-- Whether Timer/Counter1 moves before the core at this boundary, while it runs and no move is
fixed by `State.agenda`: the open interleaving of R372. -/
opaque timerTurn : Nat → Bool

/-- `capt_req` at this boundary, the unknown request of vector 11 (R369, R373). -/
opaque captureRequest : Nat → Bool

/-- `compb_req` at this boundary, the unknown request of vector 13 (R369, R373). -/
opaque compareBRequest : Nat → Bool

end Sys2Proof.Config
end

