-- ==== Sys2Proof/Machine/Memory.lean ====
section
/-! DEFINITION. A memory as a list of (address, byte) pairs, and its two operations. The data space
is byte-addressed and every access moves one byte (spec/20_memory.md R66); program memory is held
byte by byte, word w at byte addresses 2w (bits 7..0) and 2w+1 (bits 15..8) (R62, decision D33).

Canonical form: the addresses rise strictly. An address that is not listed holds no value
(spec/10_state.md R43, spec/20_memory.md R68), so every entry differs from what an unlisted
address reads as. -/

namespace Sys2Proof.Machine

/-- A memory: the bytes that hold a value, in order of address. -/
abbrev Memory := List Host.Cell

/-- The canonical form: addresses strictly rising. -/
abbrev Memory.wf (m : Memory) : Prop := m.Pairwise (fun p q => p.1 < q.1)

/-- Every listed address is at least `lo` and at most `hi`. -/
abbrev Memory.within (m : Memory) (lo hi : Nat) : Prop := ∀ p ∈ m, lo ≤ p.1 ∧ p.1 ≤ hi

/-- The byte an address holds; `none` where nothing has been written (R43, R68). -/
def Memory.read : Memory → Nat → Option Byte
  | [], _ => none
  | (b, u) :: m, a => if a = b then some u else Memory.read m a

/-- The memory with byte `v` at address `a`. -/
def Memory.write : Memory → Nat → Byte → Memory
  | [], a, v => [(a, v)]
  | (b, u) :: m, a, v =>
    if a < b then (a, v) :: (b, u) :: m
    else if a = b then (a, v) :: m
    else (b, u) :: Memory.write m a v

end Sys2Proof.Machine
end

