-- ==== Sys2Proof/Machine/State.lean ====
section
/-! DEFINITION. The state of the machine as plain data (spec/10_state.md R20..R44), the reasons a
step can stop, and the state after reset (R42, spec/70_reset_and_hazards.md R401). -/

namespace Sys2Proof.Machine

/-- The faults of the hardware: none (spec/60_exceptions.md R340, spec/93_implementation_defined.md
Part 1). No definition of the model ends in a fault, and a type without values says so. -/
inductive Fault where
  deriving DecidableEq, Repr

/-- Why the model gives a step no meaning: the closed list of spec/93_implementation_defined.md Part 2
(R11, R340), without `ReadOfUnwritten`, in whose place the spec admits a free value (R43), and with the
host's `notModelled`. All are safe: the model stops where the chip goes on in an unknown way. -/
inductive Refusal where
  /-- An arm of `exec` without a meaning. No arm of this model answers with it. Safe. -/
  | notModelled (mnemonic : String)
  /-- `UnlistedEncoding` (R120, decision D2): a first word that matches no row of the table. Raised by
  the fetch. Safe. -/
  | unlistedEncoding (w : Word)
  /-- `FetchOfUndefinedWord` (R68, decision D32): the program image has no word there. Raised by the
  fetch of either word, by the word a skip inspects, and by `LPM`. Safe. -/
  | fetchOfUndefinedWord (w : Nat)
  /-- `PcOutOfRange` (R25, decision D8): a new pc outside 0..16383. Raised by every write of pc. Safe. -/
  | pcOutOfRange (t : Int)
  /-- `BeyondRAMEND` (R74, decision D9): no source says what is at this data address. Raised by every
  data-space access. Safe. -/
  | beyondRamend (a : Nat)
  /-- `UndescribedIO` (R73, R360, decisions D10, D25): an I/O or extended I/O address of a device the
  spec does not describe, or a write of TCCR1B with WGM13 = 1. Raised by data-space accesses. Safe. -/
  | undescribedIO (a : Nat)
  /-- `ProgAddressOutOfRange` (R69, decision D16): `LPM` with Z at or above 0x8000. Safe. -/
  | progAddressOutOfRange (z : Nat)
  /-- `PointerOverlap` (R177, decision D15). Raised by LD, ST, LPM with post-increment or
  pre-decrement. Safe. -/
  | pointerOverlap
  /-- `SPMNotModelled` (R170, decision D17). Raised by SPM. Safe. -/
  | spmEffectUndescribed
  /-- `BreakNotModelled` (R221, decision D18). Raised by BREAK. Safe. -/
  | breakEffectUndescribed
  /-- `SignFlagMismatch` (R326, R327, decision D4). Raised by BRGE and BRLT. Safe. -/
  | signFlagMismatch
  deriving DecidableEq, Repr

/-- The status register: eight one-bit flags, all readable and writable, `SREG` being the byte
I:T:H:S:V:N:Z:C from bit 7 to bit 0 (R26, R29). -/
structure Sreg where
  /-- Bit 0, carry / borrow. -/
  c : Bool
  /-- Bit 1, zero. -/
  z : Bool
  /-- Bit 2, negative. -/
  n : Bool
  /-- Bit 3, two's complement overflow. -/
  v : Bool
  /-- Bit 4, sign, N xor V. -/
  s : Bool
  /-- Bit 5, half carry. -/
  h : Bool
  /-- Bit 6, scratch. -/
  t : Bool
  /-- Bit 7, global interrupt enable. -/
  i : Bool
  deriving DecidableEq, Repr

/-- The four causes of a reset (R341 vector 1, R400). -/
inductive ResetCause where
  | powerOn
  | externalPin
  | brownOut
  | watchdog
  deriving DecidableEq, Repr

/-- Whose move it is, between two instructions (R12, R80, R351, R372): the core, one count of
Timer/Counter1's prescaler clock, one edge on pin T1, or a reset. -/
inductive Move where
  | core
  | prescaledClock
  | t1Falling
  | t1Rising
  | reset (cause : ResetCause)
  deriving DecidableEq, Repr

/-- The machine. `cycles`, `draws` and `agenda` are the model's own; every other field is the
spec's. -/
structure State where
  /-- R0..R31 (R20). X, Y, Z are pairs of them (R22). -/
  regs : Vector Byte 32
  /-- The program counter, a word address 0..16383 (R24). -/
  pc : BitVec 14
  /-- The stack pointer SPH:SPL (R30). -/
  sp : Word
  /-- The status register (R26, R29). -/
  sreg : Sreg
  /-- The bytes of SRAM that hold a value, addresses 0x0100..0x08FF (R70). -/
  sram : Memory
  /-- The program image by byte address, 0..0x7FFF (R34, R62, R68). -/
  flash : Memory
  /-- TCCR1B (R360). -/
  tccr1b : Byte
  /-- TCNT1H:TCNT1L (R363). -/
  tcnt1 : Word
  /-- OCR1AH:OCR1AL (R364). -/
  ocr1a : Word
  /-- TIMSK1 (R365). -/
  timsk1 : Byte
  /-- TIFR1 bit 1 (R366, R367). -/
  ocf1a : Bool
  /-- TIFR1 bit 0 (R366, R368). -/
  tov1 : Bool
  /-- TEMP1, the latch of the 16-bit timer registers (R37, R370). -/
  temp1 : Byte
  /-- A software write of TCNT1 since the last count (R44, R372). -/
  matchBlocked : Bool
  /-- `pending[n]` in bit n, n = 2..26 (R38). -/
  pending : BitVec 27
  /-- No interrupt at the next boundary (R39, R350). -/
  inhibit : Bool
  /-- The core is asleep (R40). -/
  sleeping : Bool
  /-- CPU clock cycles counted by R420 and R421 (the cycle counter of R422). -/
  cycles : Nat
  /-- How many free values have been drawn; the argument of `Config.drawBit` and the others. -/
  draws : Nat
  /-- The next moves, in order, where they are fixed; empty where they are open. -/
  agenda : List Move
  deriving DecidableEq, Repr

/-- All eight flags 0. -/
def Sreg.zero : Sreg := ⟨false, false, false, false, false, false, false, false⟩

/-- The state after a power-on reset with no program image (R42, R401, R402). The spec states no
value for R0..R31 and TEMP1: they are 0 here (notes/assumptions/1.md, 2.md). -/
def State.reset : State where
  regs := Vector.replicate 32 0
  pc := 0
  sp := Config.spReset
  sreg := Sreg.zero
  sram := []
  flash := []
  tccr1b := 0
  tcnt1 := 0
  ocr1a := 0
  timsk1 := 0
  ocf1a := false
  tov1 := false
  temp1 := 0
  matchBlocked := false
  pending := 0
  inhibit := false
  sleeping := false
  cycles := 0
  draws := 0
  agenda := []

end Sys2Proof.Machine
end

