-- ==== Sys2Proof/Machine/Flags.lean ====
section
/-! DEFINITION. The status register as a byte (spec/10_state.md R26, R29) and every flag
computation of spec/43_arithmetic_logic.md (R226..R229, R232, R237, R243..R246, R252..R257), as the
bit formulas of the rules. No source gives a flag formula: the rules mark the values as general
knowledge (R225, decision D7; notes/assumptions/12.md). Every function takes the old flags and
returns the new ones; a flag it does not name keeps its value (R27). -/

namespace Sys2Proof.Machine

/-- The byte I:T:H:S:V:N:Z:C (R26). -/
def Sreg.toByte (f : Sreg) : Byte :=
  BitVec.ofBool f.i ++ BitVec.ofBool f.t ++ BitVec.ofBool f.h ++ BitVec.ofBool f.s ++
    BitVec.ofBool f.v ++ BitVec.ofBool f.n ++ BitVec.ofBool f.z ++ BitVec.ofBool f.c

/-- The eight flags of a byte (R26, R29). -/
def Sreg.ofByte (b : Byte) : Sreg where
  c := b[0]
  z := b[1]
  n := b[2]
  v := b[3]
  s := b[4]
  h := b[5]
  t := b[6]
  i := b[7]

/-- A carry as a number. -/
def carryByte (c : Bool) : Byte := (BitVec.ofBool c).setWidth 8

/-- The result of an 8-bit addition: `(a + b + cin) mod 256` (R226). -/
def addResult (a b : Byte) (cin : Bool) : Byte := a + b + carryByte cin

/-- `AddFlags(a, b, cin)` (R226). -/
def addFlags (f : Sreg) (a b : Byte) (cin : Bool) : Sreg :=
  let r := addResult a b cin
  let n := r[7]
  let v := (a[7] && b[7] && !r[7]) || (!a[7] && !b[7] && r[7])
  { f with
    h := (a[3] && b[3]) || (b[3] && !r[3]) || (!r[3] && a[3])
    c := (a[7] && b[7]) || (b[7] && !r[7]) || (!r[7] && a[7])
    v := v
    n := n
    z := r == 0
    s := n ^^ v }

/-- The result of an 8-bit subtraction: `(a - b - cin) mod 256` (R227). -/
def subResult (a b : Byte) (cin : Bool) : Byte := a - b - carryByte cin

/-- `SubFlags(a, b, cin, keepZ)` (R227). -/
def subFlags (f : Sreg) (a b : Byte) (cin keepZ : Bool) : Sreg :=
  let r := subResult a b cin
  let n := r[7]
  let v := (a[7] && !b[7] && !r[7]) || (!a[7] && b[7] && r[7])
  { f with
    h := (!a[3] && b[3]) || (b[3] && r[3]) || (r[3] && !a[3])
    c := (!a[7] && b[7]) || (b[7] && r[7]) || (r[7] && !a[7])
    v := v
    n := n
    z := r == 0 && (!keepZ || f.z)
    s := n ^^ v }

/-- `LogicFlags(r)` (R228). -/
def logicFlags (f : Sreg) (r : Byte) : Sreg :=
  { f with v := false, n := r[7], z := r == 0, s := r[7] ^^ false }

/-- `ShrFlags(a, r)` (R229). -/
def shrFlags (f : Sreg) (a r : Byte) : Sreg :=
  let n := r[7]
  let v := n ^^ a[0]
  { f with c := a[0], n := n, z := r == 0, v := v, s := n ^^ v }

/-- The flags of `COM` (R243): `LogicFlags(r)` and C set. -/
def comFlags (f : Sreg) (r : Byte) : Sreg := { logicFlags f r with c := true }

/-- The flags of `NEG` with result `r` (R244); `h` is the drawn value (decision D5). -/
def negFlags (f : Sreg) (r : Byte) (h : Bool) : Sreg :=
  let n := r[7]
  let v := r == 0x80
  { f with v := v, c := r != 0, n := n, z := r == 0, s := n ^^ v, h := h }

/-- The flags of `INC` with result `r` (R245). -/
def incFlags (f : Sreg) (r : Byte) : Sreg :=
  let n := r[7]
  let v := r == 0x80
  { f with v := v, n := n, z := r == 0, s := n ^^ v }

/-- The flags of `DEC` with result `r` (R246). -/
def decFlags (f : Sreg) (r : Byte) : Sreg :=
  let n := r[7]
  let v := r == 0x7F
  { f with v := v, n := n, z := r == 0, s := n ^^ v }

/-- The flags of `ADIW` from the old pair `a` and the result `r` (R232). -/
def adiwFlags (f : Sreg) (a r : Word) : Sreg :=
  let n := r[15]
  let v := !a[15] && r[15]
  { f with v := v, c := !r[15] && a[15], n := n, z := r == 0, s := n ^^ v }

/-- The flags of `SBIW` from the old pair `a` and the result `r` (R237). -/
def sbiwFlags (f : Sreg) (a r : Word) : Sreg :=
  let n := r[15]
  let v := a[15] && !r[15]
  { f with v := v, c := r[15] && !a[15], n := n, z := r == 0, s := n ^^ v }

/-- The flags of a multiplication with product `p` (R252..R254). -/
def mulFlags (f : Sreg) (p : Word) : Sreg := { f with c := p[15], z := p == 0 }

/-- The flags of `LSL` and `ROL` from the old value `a` and the result `r` (R255, R257). -/
def shlFlags (f : Sreg) (a r : Byte) : Sreg :=
  let n := r[7]
  let v := n ^^ a[7]
  { f with c := a[7], h := a[3], n := n, z := r == 0, v := v, s := n ^^ v }

end Sys2Proof.Machine
end

