-- ==== Sys2Proof/Machine/Ops.lean ====
section
/-! DEFINITION. The named operations over registers, the data space, program memory, the stack and
the program counter (the primitives of spec/00_scope.md R9), and the events that change control
without an instruction: interrupt entry, return from an interrupt, reset. -/

namespace Sys2Proof.Machine

/-- An operation's result, or the reason there is none. A stopped operation leaves no state (R11). -/
abbrev Res (α : Type) := Except Refusal α

/-- The three outcomes of a step. -/
abbrev Outcome := Host.Outcome State Fault Refusal

/-- The outcome of an operation that is a whole step: where it has no result, the step is refused
(R11). -/
def finish : Res State → Outcome
  | .ok s => .next s
  | .error r => .refused r

/-! ### Free values (R11, spec/93_implementation_defined.md Part 2) -/

/-- The next one-bit free value. -/
def State.nextBit (s : State) : Bool := Config.drawBit s.draws

/-- The next eight-bit free value. -/
def State.nextByte (s : State) : Byte := Config.drawByte s.draws

/-- `n` free values have been used. -/
def State.drew (s : State) (n : Nat) : State := { s with draws := s.draws + n }

/-! ### General registers (R20, R22) -/

/-- `R[r]`. -/
def State.reg (s : State) (r : Reg) : Byte := s.regs[r]

/-- `R[r] <- v`. -/
def State.setReg (s : State) (r : Reg) (v : Byte) : State := { s with regs := s.regs.set r v }

/-- `R[lo+1]:R[lo]`. -/
def State.pair (s : State) (lo : Reg) : Word := bytePair (s.reg (lo + 1)) (s.reg lo)

/-- `R[lo+1]:R[lo] <- v`. -/
def State.setPair (s : State) (lo : Reg) (v : Word) : State :=
  (s.setReg lo (lowByte v)).setReg (lo + 1) (highByte v)

/-- The flags replaced. -/
def State.setSreg (s : State) (f : Sreg) : State := { s with sreg := f }

/-! ### The program counter (R24, R25) -/

/-- The program counter as a number. -/
def State.pcNat (s : State) : Nat := s.pc.toNat

/-- `pc <- t` with the range check of R25, at the cost of `cycles` clock cycles (R420). -/
def goto (t : Int) (cycles : Nat) (s : State) : Res State :=
  if 0 ≤ t ∧ t < Config.flashWords then
    .ok { s with pc := BitVec.ofInt 14 t, cycles := s.cycles + cycles }
  else .error (.pcOutOfRange t)

/-- The sequential end of an instruction of `words` words: `pc <- pc + words` (R25). -/
def advance (words cycles : Nat) (s : State) : Res State := goto (s.pcNat + words : Nat) cycles s

/-! ### Program memory (R68, R69) -/

/-- `ProgWord(w)` (R68). -/
def progWord (w : Nat) (s : State) : Res Word :=
  match decide (w < Config.flashWords), s.flash.read (2 * w), s.flash.read (2 * w + 1) with
  | true, some lo, some hi => .ok (bytePair hi lo)
  | _, _, _ => .error (.fetchOfUndefinedWord w)

/-- `ProgByte(z)` (R69). -/
def progByte (z : Word) (s : State) : Res Byte :=
  if z.toNat < 0x8000 then
    (progWord (z.toNat / 2) s).map fun w => if z[0] then highByte w else lowByte w
  else .error (.progAddressOutOfRange z.toNat)

/-- Program word `w` of the image replaced, low byte first (R62). No instruction does this (R83); it
stands for loading a program (notes/assumptions/7.md). -/
def State.storeWord (s : State) (w : Nat) (v : Word) : State :=
  { s with flash := (s.flash.write (2 * w) (lowByte v)).write (2 * w + 1) (highByte v) }

/-! ### The data space (R64, R65, R70, R71) -/

/-- What a data address is (R70, R71). -/
inductive Place where
  | register (r : Reg)
  | tifr1
  | spl
  | sph
  | sreg
  | timsk1
  | tccr1b
  | tcnt1l
  | tcnt1h
  | ocr1al
  | ocr1ah
  /-- A device register the spec does not describe (R73). -/
  | undescribed
  | sram
  /-- Above RAMEND (R74), a sum above 0xFFFF included (R178). -/
  | nothing
  deriving DecidableEq, Repr

/-- The described registers between the general registers and SRAM (R71). -/
def ioMap : List (Nat × Place) := [
  (0x36, .tifr1), (0x5D, .spl), (0x5E, .sph), (0x5F, .sreg), (0x6F, .timsk1), (0x81, .tccr1b),
  (0x84, .tcnt1l), (0x85, .tcnt1h), (0x88, .ocr1al), (0x89, .ocr1ah)]

/-- The data-space map (R70, R71, R73, R74). -/
def place (a : Nat) : Place :=
  if h : a < 0x20 then .register ⟨a, h⟩
  else if a < Config.ramStart then (ioMap.lookup a).getD .undescribed
  else if a ≤ Config.ramEnd then .sram
  else .nothing

/-- TIFR1 as a byte: ICF1 in bit 5, OCF1B in bit 2, OCF1A in bit 1, TOV1 in bit 0; the other bits
read 0 (R366). -/
def tifr1Byte (icf1 ocf1b ocf1a tov1 : Bool) : Byte :=
  0#2 ++ BitVec.ofBool icf1 ++ 0#2 ++ BitVec.ofBool ocf1b ++ BitVec.ofBool ocf1a ++ BitVec.ofBool tov1

/-- `MemRead(a, 1)` (R64): the byte, and the state, which a read of TCNT1L changes (R370) and a free
value moves on (R43, R373). -/
def memRead (a : Nat) (s : State) : Res (Byte × State) :=
  match place a with
  | .register r => .ok (s.reg r, s)
  | .tifr1 =>
    .ok (tifr1Byte (Config.drawBit s.draws) (Config.drawBit (s.draws + 1)) s.ocf1a s.tov1, s.drew 2)
  | .spl => .ok (lowByte s.sp, s)
  | .sph => .ok (highByte s.sp, s)
  | .sreg => .ok (s.sreg.toByte, s)
  | .timsk1 => .ok (s.timsk1, s)
  | .tccr1b => .ok (s.tccr1b, s)
  | .tcnt1l => .ok (lowByte s.tcnt1, { s with temp1 := highByte s.tcnt1 })
  | .tcnt1h => .ok (s.temp1, s)
  | .ocr1al => .ok (lowByte s.ocr1a, s)
  | .ocr1ah => .ok (highByte s.ocr1a, s)
  | .sram =>
    match s.sram.read a with
    | some v => .ok (v, s)
    | none => .ok (s.nextByte, s.drew 1)
  | .undescribed => .error (.undescribedIO a)
  | .nothing => .error (.beyondRamend a)

/-- A write of the status register through the data space (R29). A write that changes I from 0 to 1
leaves a free value in `inhibit` (R350, decision D24). -/
def writeSreg (v : Byte) (s : State) : State :=
  if !s.sreg.i && v[7] then
    { (s.setSreg (.ofByte v)).drew 1 with inhibit := s.nextBit }
  else s.setSreg (.ofByte v)

/-- `MemWrite(a, 1, v)` (R65). -/
def memWrite (a : Nat) (v : Byte) (s : State) : Res State :=
  match place a with
  | .register r => .ok (s.setReg r v)
  | .tifr1 => .ok { s with ocf1a := s.ocf1a && !v[1], tov1 := s.tov1 && !v[0] }
  | .spl => .ok { s with sp := bytePair (highByte s.sp) v }
  | .sph => .ok { s with sp := bytePair v (lowByte s.sp) }
  | .sreg => .ok (writeSreg v s)
  | .timsk1 => .ok { s with timsk1 := v &&& 0x27 }
  | .tccr1b =>
    if v[4] then .error (.undescribedIO a) else .ok { s with tccr1b := v &&& 0xDF }
  | .tcnt1l => .ok { s with tcnt1 := bytePair s.temp1 v, matchBlocked := true }
  | .tcnt1h => .ok { s with temp1 := v }
  | .ocr1al => .ok { s with ocr1a := bytePair s.temp1 v }
  | .ocr1ah => .ok { s with temp1 := v }
  | .sram => .ok { s with sram := s.sram.write a v }
  | .undescribed => .error (.undescribedIO a)
  | .nothing => .error (.beyondRamend a)

/-- `IORead(A) = MemRead(A + 0x20, 1)` (R9, R35). -/
def ioRead (a : Nat) (s : State) : Res (Byte × State) := memRead (a + Config.ioOffset) s

/-- `IOWrite(A, v) = MemWrite(A + 0x20, 1, v)` (R9, R35). -/
def ioWrite (a : Nat) (v : Byte) (s : State) : Res State := memWrite (a + Config.ioOffset) v s

/-- The byte with only bit `b` set. -/
def bitMask (b : BitNo) : Byte := 1#8 <<< b.val

/-- Bit `b` of a byte (R7). -/
def bitOf (v : Byte) (b : BitNo) : Bool := v.getLsbD b.val

/-- `IOBitWrite(A, b, v)` (R67): on TIFR1 the written byte is `v << b`, on an ordinary register the
other bits are written back. -/
def ioBitWrite (a : Nat) (b : BitNo) (v : Bool) (s : State) : Res State :=
  if a = 0x16 then ioWrite a (if v then bitMask b else 0) s
  else do
    let (old, s) ← ioRead a s
    ioWrite a ((old &&& ~~~bitMask b) ||| (if v then bitMask b else 0)) s

/-! ### The stack (R30..R32, decision D35: SP is read step by step) -/

/-- `Push(v)` (R31). -/
def push (v : Byte) (s : State) : Res State := do
  let s ← memWrite s.sp.toNat v s
  .ok { s with sp := s.sp - 1 }

/-- `Pop()` (R31). -/
def pop (s : State) : Res (Byte × State) :=
  memRead (s.sp + 1).toNat { s with sp := s.sp + 1 }

/-- The low `n` bytes of `v` pushed, the least significant first. -/
def pushBytes : Nat → Word → State → Res State
  | 0, _, s => .ok s
  | n + 1, v, s => do
    let s ← push (lowByte v) s
    pushBytes n (v >>> 8) s

/-- `n` bytes popped, each below the ones before it, which `acc` holds. -/
def popBytes : Nat → Word → State → Res (Word × State)
  | 0, acc, s => .ok (acc, s)
  | n + 1, acc, s => do
    let (v, s) ← pop s
    popBytes n (bytePair (lowByte acc) v) s

/-- `PushPC(v)` (R32): the low byte first. -/
def pushPC (v : Word) (s : State) : Res State := pushBytes Config.returnAddressBytes v s

/-- `PopPC()` (R32): the high byte first. -/
def popPC (s : State) : Res (Word × State) := popBytes Config.returnAddressBytes 0 s

/-! ### Branches and skips -/

/-- The target of a relative jump: `pc + 1 + K` (R294, R328). -/
def relTarget (s : State) {n : Nat} (k : BitVec n) : Int := s.pcNat + 1 + k.toInt

/-- The branch step (R328). -/
def branchIf (cond : Bool) (k : BitVec 7) (s : State) : Res State :=
  if cond then goto (relTarget s k) 2 s else advance 1 1 s

/-- `SkipNext()` (R279). -/
def skipNext (s : State) : Res State := do
  let w ← progWord (s.pcNat + 1) s
  if isTwoWord w then advance 3 3 s else advance 2 2 s

/-- The skip step (R279). -/
def skipIf (cond : Bool) (s : State) : Res State :=
  if cond then skipNext s else advance 1 1 s

/-! ### Interrupts and reset -/

/-- `VectorAddress(n)` (R341). -/
def vectorAddress (n : Nat) : Nat := 2 * (n - 1)

/-- `InterruptEntry(n)` (R346), in 4 cycles (R421). The requests of vectors 11 and 13 are no stored
bits, so there is nothing to withdraw (R373). -/
def interruptEntry (n : Nat) (s : State) : Res State := do
  let s ← pushPC (s.pc.setWidth 16) s
  goto (vectorAddress n) 4
    { s with
      sreg := { s.sreg with i := false }
      ocf1a := s.ocf1a && n != 12
      tov1 := s.tov1 && n != 14
      sleeping := false
      inhibit := false }

/-- Return from an interrupt (R348, R287): `pc <- PopPC()`, I and `inhibit` set. -/
def interruptReturn (s : State) : Res State := do
  let (v, s) ← popPC s
  goto v.toNat 4 { s with sreg := { s.sreg with i := true }, inhibit := true }

/-- `Reset(cause)` (R401). After a power-on R0..R31 and TEMP1 hold the values of `State.reset`
(notes/assumptions/1.md, 2.md) and no SRAM byte holds a value (R43). -/
def resetEvent (cause : ResetCause) (s : State) : State :=
  let kept := decide (cause ≠ .powerOn)
  { s with
    pc := 0
    sreg := .zero
    sp := Config.spReset
    tccr1b := 0
    tcnt1 := 0
    ocr1a := 0
    timsk1 := 0
    ocf1a := false
    tov1 := false
    inhibit := false
    sleeping := false
    matchBlocked := false
    pending := 0
    regs := if kept then s.regs else Vector.replicate 32 0
    sram := if kept then s.sram else []
    temp1 := if kept then s.temp1 else 0 }

end Sys2Proof.Machine
end

