-- ==== Sys2Proof/Machine/ArithmeticLogic.lean ====
section
/-! DEFINITION. The arithmetic and logic instructions (spec/43_arithmetic_logic.md R230..R259). -/

namespace Sys2Proof.Machine

/-- The end of a one-word, one-cycle instruction that writes a register and the flags. -/
def aluEnd (d : Reg) (v : Byte) (f : Sreg) (s : State) : Res State :=
  advance 1 1 ((s.setReg d v).setSreg f)

/-- `ADD` and `ADC` (R230, R231). -/
def addReg (d : Reg) (b : Byte) (cin : Bool) (s : State) : Res State :=
  aluEnd d (addResult (s.reg d) b cin) (addFlags s.sreg (s.reg d) b cin) s

/-- `SUB`, `SUBI`, `SBC` and `SBCI` (R233..R236). -/
def subReg (d : Reg) (b : Byte) (cin keepZ : Bool) (s : State) : Res State :=
  aluEnd d (subResult (s.reg d) b cin) (subFlags s.sreg (s.reg d) b cin keepZ) s

/-- `CP`, `CPC` and `CPI` (R249..R251): the flags of the subtraction, no register. -/
def compareReg (d : Reg) (b : Byte) (cin keepZ : Bool) (s : State) : Res State :=
  advance 1 1 (s.setSreg (subFlags s.sreg (s.reg d) b cin keepZ))

/-- The logic instructions with result `v` (R238..R242). -/
def logicReg (d : Reg) (v : Byte) (s : State) : Res State := aluEnd d v (logicFlags s.sreg v) s

/-- The right shifts with result `v` (R256, R258, R259). -/
def shrReg (d : Reg) (v : Byte) (s : State) : Res State :=
  aluEnd d v (shrFlags s.sreg (s.reg d) v) s

/-- The left shifts with result `v` (R255, R257). -/
def shlReg (d : Reg) (v : Byte) (s : State) : Res State :=
  aluEnd d v (shlFlags s.sreg (s.reg d) v) s

/-- The multiplications with product `p`: `R1:R0 <- p` (R252..R254). -/
def mulPair (p : Word) (s : State) : Res State :=
  advance 1 2 ((s.setPair 0 p).setSreg (mulFlags s.sreg p))

/-! ### Addition and subtraction -/

/-- `ADD Rd,Rr` (R230). -/
def execAdd (d r : Reg) (s : State) : Outcome :=
  finish (addReg d (s.reg r) false s)

/-- `ADC Rd,Rr` (R231). -/
def execAdc (d r : Reg) (s : State) : Outcome :=
  finish (addReg d (s.reg r) s.sreg.c s)

/-- `ADIW Rd,K` (R232). -/
def execAdiw (d : Reg) (k : BitVec 6) (s : State) : Outcome :=
  let r := s.pair d + k.setWidth 16
  finish (advance 1 2 ((s.setPair d r).setSreg (adiwFlags s.sreg (s.pair d) r)))

/-- `SUB Rd,Rr` (R233). -/
def execSub (d r : Reg) (s : State) : Outcome :=
  finish (subReg d (s.reg r) false false s)

/-- `SUBI Rd,K` (R234). -/
def execSubi (d : Reg) (k : Byte) (s : State) : Outcome :=
  finish (subReg d k false false s)

/-- `SBC Rd,Rr` (R235). -/
def execSbc (d r : Reg) (s : State) : Outcome :=
  finish (subReg d (s.reg r) s.sreg.c true s)

/-- `SBCI Rd,K` (R236). -/
def execSbci (d : Reg) (k : Byte) (s : State) : Outcome :=
  finish (subReg d k s.sreg.c true s)

/-- `SBIW Rd,K` (R237). -/
def execSbiw (d : Reg) (k : BitVec 6) (s : State) : Outcome :=
  let r := s.pair d - k.setWidth 16
  finish (advance 1 2 ((s.setPair d r).setSreg (sbiwFlags s.sreg (s.pair d) r)))

/-! ### Logic -/

/-- `AND Rd,Rr` (R238). -/
def execAnd (d r : Reg) (s : State) : Outcome :=
  finish (logicReg d (s.reg d &&& s.reg r) s)

/-- `ANDI Rd,K` (R239). -/
def execAndi (d : Reg) (k : Byte) (s : State) : Outcome :=
  finish (logicReg d (s.reg d &&& k) s)

/-- `OR Rd,Rr` (R240). -/
def execOr (d r : Reg) (s : State) : Outcome :=
  finish (logicReg d (s.reg d ||| s.reg r) s)

/-- `ORI Rd,K` (R241). -/
def execOri (d : Reg) (k : Byte) (s : State) : Outcome :=
  finish (logicReg d (s.reg d ||| k) s)

/-- `EOR Rd,Rr` (R242). -/
def execEor (d r : Reg) (s : State) : Outcome :=
  finish (logicReg d (s.reg d ^^^ s.reg r) s)

/-! ### One operand -/

/-- `COM Rd` (R243). -/
def execCom (d : Reg) (s : State) : Outcome :=
  let r := 0xFF - s.reg d
  finish (aluEnd d r (comFlags s.sreg r) s)

/-- `NEG Rd` (R244): H is a free value (decision D5; notes/assumptions/5.md). -/
def execNeg (d : Reg) (s : State) : Outcome :=
  let r := 0 - s.reg d
  finish (aluEnd d r (negFlags s.sreg r s.nextBit) (s.drew 1))

/-- `INC Rd` (R245). -/
def execInc (d : Reg) (s : State) : Outcome :=
  let r := s.reg d + 1
  finish (aluEnd d r (incFlags s.sreg r) s)

/-- `DEC Rd` (R246). -/
def execDec (d : Reg) (s : State) : Outcome :=
  let r := s.reg d - 1
  finish (aluEnd d r (decFlags s.sreg r) s)

/-- `CLR Rd` (R247). -/
def execClr (d : Reg) (s : State) : Outcome :=
  finish (logicReg d 0 s)

/-- `SER Rd` (R248): no flags (decision D6). -/
def execSer (d : Reg) (s : State) : Outcome :=
  finish (advance 1 1 (s.setReg d 0xFF))

/-! ### Compare -/

/-- `CP Rd,Rr` (R249). -/
def execCp (d r : Reg) (s : State) : Outcome :=
  finish (compareReg d (s.reg r) false false s)

/-- `CPC Rd,Rr` (R250). -/
def execCpc (d r : Reg) (s : State) : Outcome :=
  finish (compareReg d (s.reg r) s.sreg.c true s)

/-- `CPI Rd,K` (R251). -/
def execCpi (d : Reg) (k : Byte) (s : State) : Outcome :=
  finish (compareReg d k false false s)

/-! ### Multiplication -/

/-- `MUL Rd,Rr` (R252): unsigned by unsigned. -/
def execMul (d r : Reg) (s : State) : Outcome :=
  finish (mulPair (BitVec.ofNat 16 ((s.reg d).toNat * (s.reg r).toNat)) s)

/-- `MULS Rd,Rr` (R253): signed by signed. -/
def execMuls (d r : Reg) (s : State) : Outcome :=
  finish (mulPair (BitVec.ofInt 16 ((s.reg d).toInt * (s.reg r).toInt)) s)

/-- `MULSU Rd,Rr` (R254): signed `Rd` by unsigned `Rr`. -/
def execMulsu (d r : Reg) (s : State) : Outcome :=
  finish (mulPair (BitVec.ofInt 16 ((s.reg d).toInt * (s.reg r).toNat)) s)

/-! ### Shifts and rotates -/

/-- `LSL Rd` (R255). -/
def execLsl (d : Reg) (s : State) : Outcome :=
  finish (shlReg d (s.reg d <<< 1) s)

/-- `LSR Rd` (R256). -/
def execLsr (d : Reg) (s : State) : Outcome :=
  finish (shrReg d (s.reg d >>> 1) s)

/-- `ROL Rd` (R257). -/
def execRol (d : Reg) (s : State) : Outcome :=
  finish (shlReg d ((s.reg d <<< 1) ||| carryByte s.sreg.c) s)

/-- `ROR Rd` (R258). -/
def execRor (d : Reg) (s : State) : Outcome :=
  finish (shrReg d ((carryByte s.sreg.c <<< 7) ||| (s.reg d >>> 1)) s)

/-- `ASR Rd` (R259). -/
def execAsr (d : Reg) (s : State) : Outcome :=
  finish (shrReg d ((carryByte (s.reg d)[7] <<< 7) ||| (s.reg d >>> 1)) s)

end Sys2Proof.Machine
end

