-- ==== Sys2Proof/Machine/BitManipulation.lean ====
section
/-! DEFINITION. The bit manipulation instructions (spec/41_bit_manipulation.md R190..R208). Each
`SEcc`/`CLcc` writes exactly one flag (R210). -/

namespace Sys2Proof.Machine

/-- `SWAP Rd` (R190). -/
def execSwap (d : Reg) (s : State) : Outcome :=
  finish (advance 1 1 (s.setReg d ((s.reg d).extractLsb' 0 4 ++ (s.reg d).extractLsb' 4 4)))

/-- `SBI A,b` (R191). -/
def execSbi (a : BitVec 5) (b : BitNo) (s : State) : Outcome :=
  finish do
    let s ← ioBitWrite a.toNat b true s
    advance 1 2 s

/-- `CBI A,b` (R192). -/
def execCbi (a : BitVec 5) (b : BitNo) (s : State) : Outcome :=
  finish do
    let s ← ioBitWrite a.toNat b false s
    advance 1 2 s

/-- `SEC` (R193). -/
def execSec (s : State) : Outcome :=
  finish (advance 1 1 (s.setSreg { s.sreg with c := true }))

/-- `SEZ` (R194). -/
def execSez (s : State) : Outcome :=
  finish (advance 1 1 (s.setSreg { s.sreg with z := true }))

/-- `SEN` (R195). -/
def execSen (s : State) : Outcome :=
  finish (advance 1 1 (s.setSreg { s.sreg with n := true }))

/-- `SEV` (R196). -/
def execSev (s : State) : Outcome :=
  finish (advance 1 1 (s.setSreg { s.sreg with v := true }))

/-- `SES` (R197). -/
def execSes (s : State) : Outcome :=
  finish (advance 1 1 (s.setSreg { s.sreg with s := true }))

/-- `SEH` (R198). -/
def execSeh (s : State) : Outcome :=
  finish (advance 1 1 (s.setSreg { s.sreg with h := true }))

/-- `SET` (R199). -/
def execSetT (s : State) : Outcome :=
  finish (advance 1 1 (s.setSreg { s.sreg with t := true }))

/-- `SEI` (R200): I is set and the next instruction runs before any interrupt (R350). -/
def execSei (s : State) : Outcome :=
  finish (advance 1 1 { s.setSreg { s.sreg with i := true } with inhibit := true })

/-- `CLC` (R201). -/
def execClc (s : State) : Outcome :=
  finish (advance 1 1 (s.setSreg { s.sreg with c := false }))

/-- `CLZ` (R202). -/
def execClz (s : State) : Outcome :=
  finish (advance 1 1 (s.setSreg { s.sreg with z := false }))

/-- `CLN` (R203). -/
def execCln (s : State) : Outcome :=
  finish (advance 1 1 (s.setSreg { s.sreg with n := false }))

/-- `CLV` (R204). -/
def execClv (s : State) : Outcome :=
  finish (advance 1 1 (s.setSreg { s.sreg with v := false }))

/-- `CLS` (R205). -/
def execCls (s : State) : Outcome :=
  finish (advance 1 1 (s.setSreg { s.sreg with s := false }))

/-- `CLH` (R206). -/
def execClh (s : State) : Outcome :=
  finish (advance 1 1 (s.setSreg { s.sreg with h := false }))

/-- `CLT` (R207). -/
def execClt (s : State) : Outcome :=
  finish (advance 1 1 (s.setSreg { s.sreg with t := false }))

/-- `CLI` (R208). -/
def execCli (s : State) : Outcome :=
  finish (advance 1 1 (s.setSreg { s.sreg with i := false }))

end Sys2Proof.Machine
end

