-- ==== Sys2Proof/Machine/Branch.lean ====
section
/-! DEFINITION. The conditional branches (spec/45_branch.md R310..R328). -/

namespace Sys2Proof.Machine

/-- `BREQ dir` (R310): Z = 1. -/
def execBreq (k : BitVec 7) (s : State) : Outcome :=
  finish (branchIf s.sreg.z k s)

/-- `BRNE dir` (R311): Z = 0. -/
def execBrne (k : BitVec 7) (s : State) : Outcome :=
  finish (branchIf (!s.sreg.z) k s)

/-- `BRCS dir` (R312): C = 1. -/
def execBrcs (k : BitVec 7) (s : State) : Outcome :=
  finish (branchIf s.sreg.c k s)

/-- `BRCC dir` (R313): C = 0. -/
def execBrcc (k : BitVec 7) (s : State) : Outcome :=
  finish (branchIf (!s.sreg.c) k s)

/-- `BRLO dir` (R314): C = 1. -/
def execBrlo (k : BitVec 7) (s : State) : Outcome :=
  finish (branchIf s.sreg.c k s)

/-- `BRSH dir` (R315): C = 0. -/
def execBrsh (k : BitVec 7) (s : State) : Outcome :=
  finish (branchIf (!s.sreg.c) k s)

/-- `BRMI dir` (R316): N = 1. -/
def execBrmi (k : BitVec 7) (s : State) : Outcome :=
  finish (branchIf s.sreg.n k s)

/-- `BRPL dir` (R317): N = 0. -/
def execBrpl (k : BitVec 7) (s : State) : Outcome :=
  finish (branchIf (!s.sreg.n) k s)

/-- `BRHS dir` (R318): H = 1. -/
def execBrhs (k : BitVec 7) (s : State) : Outcome :=
  finish (branchIf s.sreg.h k s)

/-- `BRHC dir` (R319): H = 0. -/
def execBrhc (k : BitVec 7) (s : State) : Outcome :=
  finish (branchIf (!s.sreg.h) k s)

/-- `BRTS dir` (R320): T = 1. -/
def execBrts (k : BitVec 7) (s : State) : Outcome :=
  finish (branchIf s.sreg.t k s)

/-- `BRTC dir` (R321): T = 0. -/
def execBrtc (k : BitVec 7) (s : State) : Outcome :=
  finish (branchIf (!s.sreg.t) k s)

/-- `BRVS dir` (R322): V = 1. -/
def execBrvs (k : BitVec 7) (s : State) : Outcome :=
  finish (branchIf s.sreg.v k s)

/-- `BRVC dir` (R323): V = 0. -/
def execBrvc (k : BitVec 7) (s : State) : Outcome :=
  finish (branchIf (!s.sreg.v) k s)

/-- `BRIE dir` (R324): I = 1. -/
def execBrie (k : BitVec 7) (s : State) : Outcome :=
  finish (branchIf s.sreg.i k s)

/-- `BRID dir` (R325): I = 0. -/
def execBrid (k : BitVec 7) (s : State) : Outcome :=
  finish (branchIf (!s.sreg.i) k s)

/-- A signed branch: refused where S differs from N xor V (R326, R327, decision D4). -/
def branchSigned (cond : Bool) (k : BitVec 7) (s : State) : Res State :=
  if s.sreg.s != (s.sreg.n ^^ s.sreg.v) then .error .signFlagMismatch
  else branchIf cond k s

/-- `BRGE dir` (R326): S = 0. -/
def execBrge (k : BitVec 7) (s : State) : Outcome :=
  finish (branchSigned (!s.sreg.s) k s)

/-- `BRLT dir` (R327): S = 1. -/
def execBrlt (k : BitVec 7) (s : State) : Outcome :=
  finish (branchSigned s.sreg.s k s)

end Sys2Proof.Machine
end

