-- ==== Sys2Proof/Machine/Operands.lean ====
section
/-! DEFINITION. The operand forms of the loads and stores (spec/40_data_transfer.md R144..R169,
R177, R178). -/

namespace Sys2Proof.Machine

/-- The pointer pairs (R22). -/
inductive Pointer where
  | x
  | y
  | z
  deriving DecidableEq, Repr

/-- The low register of the pair (R22). -/
def Pointer.low : Pointer → Reg
  | .x => 26
  | .y => 28
  | .z => 30

/-- The 16-bit value of a pointer. -/
def State.ptr (s : State) (p : Pointer) : Word := s.pair p.low

/-- The pointer replaced, both registers at once. -/
def State.setPtr (s : State) (p : Pointer) (v : Word) : State := s.setPair p.low v

/-- The register is one of the two registers of the pointer (R177 a). -/
def Pointer.holds (p : Pointer) (r : Reg) : Bool := r == p.low || r == p.low + 1

/-- The data address is that of one of the two registers of the pointer (R177 b). -/
def Pointer.covers (p : Pointer) (a : Nat) : Bool := a == p.low.val || a == p.low.val + 1

/-- `R[d] <- MemRead(a, 1)`. -/
def load (d : Reg) (a : Nat) (s : State) : Res State := do
  let (v, s) ← memRead a s
  .ok (s.setReg d v)

/-- `MemWrite(a, 1, R[r])`. -/
def store (a : Nat) (r : Reg) (s : State) : Res State := memWrite a (s.reg r) s

/-- The address of a displacement form: the integer sum, not wrapped (R178, decision D9). -/
def dispAddress (p : Pointer) (q : BitVec 6) (s : State) : Nat := (s.ptr p).toNat + q.toNat

/-- The address of a pre-decrement form: `(P - 1) mod 2^16` (R178). -/
def decAddress (p : Pointer) (s : State) : Word := s.ptr p - 1

/-- `LD Rd,P` (R144). -/
def loadPlain (p : Pointer) (d : Reg) (s : State) : Res State := load d (s.ptr p).toNat s

/-- `LD Rd,P+` (R145). -/
def loadInc (p : Pointer) (d : Reg) (s : State) : Res State :=
  if p.holds d || p.covers (s.ptr p).toNat then .error .pointerOverlap
  else do
    let t ← load d (s.ptr p).toNat s
    .ok (t.setPtr p (s.ptr p + 1))

/-- `LD Rd,-P` (R146). -/
def loadDec (p : Pointer) (d : Reg) (s : State) : Res State :=
  if p.holds d || p.covers (decAddress p s).toNat then .error .pointerOverlap
  else load d (decAddress p s).toNat (s.setPtr p (decAddress p s))

/-- `LDD Rd,P+q` (R153). -/
def loadDisp (p : Pointer) (d : Reg) (q : BitVec 6) (s : State) : Res State :=
  load d (dispAddress p q s) s

/-- `ST P,Rr` (R156). -/
def storePlain (p : Pointer) (r : Reg) (s : State) : Res State := store (s.ptr p).toNat r s

/-- `ST P+,Rr` (R157). -/
def storeInc (p : Pointer) (r : Reg) (s : State) : Res State :=
  if p.holds r || p.covers (s.ptr p).toNat then .error .pointerOverlap
  else do
    let t ← store (s.ptr p).toNat r s
    .ok (t.setPtr p (s.ptr p + 1))

/-- `ST -P,Rr` (R158). -/
def storeDec (p : Pointer) (r : Reg) (s : State) : Res State :=
  if p.holds r || p.covers (decAddress p s).toNat then .error .pointerOverlap
  else store (decAddress p s).toNat r (s.setPtr p (decAddress p s))

/-- `STD P+q,Rr` (R165). -/
def storeDisp (p : Pointer) (q : BitVec 6) (r : Reg) (s : State) : Res State :=
  store (dispAddress p q s) r s

/-- `R[d] <- ProgByte(Z)` (R167, R168). -/
def loadProg (d : Reg) (s : State) : Res State := do
  let v ← progByte (s.ptr .z) s
  .ok (s.setReg d v)

/-- `LPM Rd,Z+` (R169). -/
def loadProgInc (d : Reg) (s : State) : Res State :=
  if Pointer.z.holds d then .error .pointerOverlap
  else do
    let t ← loadProg d s
    .ok (t.setPtr .z (s.ptr .z + 1))

end Sys2Proof.Machine
end

