-- ==== Sys2Proof/Machine/DataTransfer.lean ====
section
/-! DEFINITION. The data transfer instructions (spec/40_data_transfer.md R140..R174), with the cycle
counts of spec/70_reset_and_hazards.md R420. None writes a flag as a result (R175). -/

namespace Sys2Proof.Machine

/-! ### Register moves and immediates -/

/-- `MOV Rd,Rr` (R140). -/
def execMov (d r : Reg) (s : State) : Outcome :=
  finish (advance 1 1 (s.setReg d (s.reg r)))

/-- `MOVW Rd,Rr` (R141). -/
def execMovw (d r : Reg) (s : State) : Outcome :=
  finish (advance 1 1 (s.setPair d (s.pair r)))

/-- `LDI Rd,k` (R142). -/
def execLdi (d : Reg) (k : Byte) (s : State) : Outcome :=
  finish (advance 1 1 (s.setReg d k))

/-! ### Loads -/

/-- `LDS Rd,k` (R143). -/
def execLds (d : Reg) (k : Word) (s : State) : Outcome :=
  finish do
    let s ← load d k.toNat s
    advance 2 2 s

/-- `LD Rd,X` (R144). -/
def execLdX (d : Reg) (s : State) : Outcome :=
  finish do
    let s ← loadPlain .x d s
    advance 1 2 s

/-- `LD Rd,X+` (R145). -/
def execLdXInc (d : Reg) (s : State) : Outcome :=
  finish do
    let s ← loadInc .x d s
    advance 1 2 s

/-- `LD Rd,-X` (R146). -/
def execLdXDec (d : Reg) (s : State) : Outcome :=
  finish do
    let s ← loadDec .x d s
    advance 1 2 s

/-- `LD Rd,Y` (R147). -/
def execLdY (d : Reg) (s : State) : Outcome :=
  finish do
    let s ← loadPlain .y d s
    advance 1 2 s

/-- `LD Rd,Y+` (R148). -/
def execLdYInc (d : Reg) (s : State) : Outcome :=
  finish do
    let s ← loadInc .y d s
    advance 1 2 s

/-- `LD Rd,-Y` (R149). -/
def execLdYDec (d : Reg) (s : State) : Outcome :=
  finish do
    let s ← loadDec .y d s
    advance 1 2 s

/-- `LD Rd,Z` (R150). -/
def execLdZ (d : Reg) (s : State) : Outcome :=
  finish do
    let s ← loadPlain .z d s
    advance 1 2 s

/-- `LD Rd,Z+` (R151). -/
def execLdZInc (d : Reg) (s : State) : Outcome :=
  finish do
    let s ← loadInc .z d s
    advance 1 2 s

/-- `LD Rd,-Z` (R152). -/
def execLdZDec (d : Reg) (s : State) : Outcome :=
  finish do
    let s ← loadDec .z d s
    advance 1 2 s

/-- `LDD Rd,Y+q` (R153). -/
def execLddY (d : Reg) (q : BitVec 6) (s : State) : Outcome :=
  finish do
    let s ← loadDisp .y d q s
    advance 1 2 s

/-- `LDD Rd,Z+q` (R154). -/
def execLddZ (d : Reg) (q : BitVec 6) (s : State) : Outcome :=
  finish do
    let s ← loadDisp .z d q s
    advance 1 2 s

/-! ### Stores -/

/-- `STS k,Rr` (R155). -/
def execSts (k : Word) (r : Reg) (s : State) : Outcome :=
  finish do
    let s ← store k.toNat r s
    advance 2 2 s

/-- `ST X,Rr` (R156). -/
def execStX (r : Reg) (s : State) : Outcome :=
  finish do
    let s ← storePlain .x r s
    advance 1 2 s

/-- `ST X+,Rr` (R157). -/
def execStXInc (r : Reg) (s : State) : Outcome :=
  finish do
    let s ← storeInc .x r s
    advance 1 2 s

/-- `ST -X,Rr` (R158). -/
def execStXDec (r : Reg) (s : State) : Outcome :=
  finish do
    let s ← storeDec .x r s
    advance 1 2 s

/-- `ST Y,Rr` (R159). -/
def execStY (r : Reg) (s : State) : Outcome :=
  finish do
    let s ← storePlain .y r s
    advance 1 2 s

/-- `ST Y+,Rr` (R160). -/
def execStYInc (r : Reg) (s : State) : Outcome :=
  finish do
    let s ← storeInc .y r s
    advance 1 2 s

/-- `ST -Y,Rr` (R161). -/
def execStYDec (r : Reg) (s : State) : Outcome :=
  finish do
    let s ← storeDec .y r s
    advance 1 2 s

/-- `ST Z,Rr` (R162). -/
def execStZ (r : Reg) (s : State) : Outcome :=
  finish do
    let s ← storePlain .z r s
    advance 1 2 s

/-- `ST Z+,Rr` (R163). -/
def execStZInc (r : Reg) (s : State) : Outcome :=
  finish do
    let s ← storeInc .z r s
    advance 1 2 s

/-- `ST -Z,Rr` (R164). -/
def execStZDec (r : Reg) (s : State) : Outcome :=
  finish do
    let s ← storeDec .z r s
    advance 1 2 s

/-- `STD Y+q,Rr` (R165). -/
def execStdY (q : BitVec 6) (r : Reg) (s : State) : Outcome :=
  finish do
    let s ← storeDisp .y q r s
    advance 1 2 s

/-- `STD Z+q,Rr` (R166). -/
def execStdZ (q : BitVec 6) (r : Reg) (s : State) : Outcome :=
  finish do
    let s ← storeDisp .z q r s
    advance 1 2 s

/-! ### Program memory -/

/-- `LPM` (R167): the destination is R0. -/
def execLpm (s : State) : Outcome :=
  finish do
    let s ← loadProg 0 s
    advance 1 3 s

/-- `LPM Rd,Z` (R168). -/
def execLpmZ (d : Reg) (s : State) : Outcome :=
  finish do
    let s ← loadProg d s
    advance 1 3 s

/-- `LPM Rd,Z+` (R169). -/
def execLpmZInc (d : Reg) (s : State) : Outcome :=
  finish do
    let s ← loadProgInc d s
    advance 1 3 s

/-- `SPM` (R170, decision D17): refused in every state; notes/assumptions/26.md. -/
def execSpm (_ : State) : Outcome :=
  .refused .spmEffectUndescribed

/-! ### I/O and stack -/

/-- `IN Rd,A` (R171). -/
def execIoIn (d : Reg) (a : BitVec 6) (s : State) : Outcome :=
  finish do
    let (v, s) ← ioRead a.toNat s
    advance 1 1 (s.setReg d v)

/-- `OUT A,Rr` (R172). -/
def execIoOut (a : BitVec 6) (r : Reg) (s : State) : Outcome :=
  finish do
    let s ← ioWrite a.toNat (s.reg r) s
    advance 1 1 s

/-- `PUSH Rr` (R173). -/
def execPush (r : Reg) (s : State) : Outcome :=
  finish do
    let s ← push (s.reg r) s
    advance 1 2 s

/-- `POP Rd` (R174). -/
def execPop (d : Reg) (s : State) : Outcome :=
  finish do
    let (v, s) ← pop s
    advance 1 2 (s.setReg d v)

end Sys2Proof.Machine
end

