-- ==== Sys2Proof/Machine/Jump.lean ====
section
/-! DEFINITION. Jumps, calls, returns and skips (spec/44_jump.md R280..R292). -/

namespace Sys2Proof.Machine

/-! ### Jumps -/

/-- `RJMP dir` (R280). -/
def execRjmp (k : BitVec 12) (s : State) : Outcome :=
  finish (goto (relTarget s k) 2 s)

/-- `JMP dir` (R281). -/
def execJmp (k : BitVec 22) (s : State) : Outcome :=
  finish (goto k.toNat 3 s)

/-- `IJMP` (R282): Z is a word address. -/
def execIjmp (s : State) : Outcome :=
  finish (goto (s.pair 30).toNat 2 s)

/-! ### Calls and returns -/

/-- A call: `PushPC(pc + words)`, then the jump. The target and the return address are read before
the push (decision D35). -/
def callTo (target : Int) (words cycles : Nat) (s : State) : Res State := do
  let t ← pushPC (BitVec.ofNat 16 (s.pcNat + words)) s
  goto target cycles t

/-- `RCALL dir` (R283). -/
def execRcall (k : BitVec 12) (s : State) : Outcome :=
  finish (callTo (relTarget s k) 1 3 s)

/-- `CALL dir` (R284). -/
def execCall (k : BitVec 22) (s : State) : Outcome :=
  finish (callTo k.toNat 2 4 s)

/-- `ICALL` (R285). -/
def execIcall (s : State) : Outcome :=
  finish (callTo (s.pair 30).toNat 1 3 s)

/-- `RET` (R286). -/
def execRet (s : State) : Outcome :=
  finish do
    let (v, s) ← popPC s
    goto v.toNat 4 s

/-- `RETI` (R287). -/
def execReti (s : State) : Outcome :=
  finish (interruptReturn s)

/-! ### Skips -/

/-- `CPSE Rd,Rr` (R288). -/
def execCpse (d r : Reg) (s : State) : Outcome :=
  finish (skipIf (s.reg d == s.reg r) s)

/-- `SBRC Rr,b` (R289). -/
def execSbrc (r : Reg) (b : BitNo) (s : State) : Outcome :=
  finish (skipIf (!bitOf (s.reg r) b) s)

/-- `SBRS Rr,b` (R290). -/
def execSbrs (r : Reg) (b : BitNo) (s : State) : Outcome :=
  finish (skipIf (bitOf (s.reg r) b) s)

/-- `SBIC A,b` (R291). -/
def execSbic (a : BitVec 5) (b : BitNo) (s : State) : Outcome :=
  finish do
    let (v, s) ← ioRead a.toNat s
    skipIf (!bitOf v b) s

/-- `SBIS A,b` (R292). -/
def execSbis (a : BitVec 5) (b : BitNo) (s : State) : Outcome :=
  finish do
    let (v, s) ← ioRead a.toNat s
    skipIf (bitOf v b) s

end Sys2Proof.Machine
end

