-- ==== Sys2Proof/Machine/SystemControl.lean ====
section
/-! DEFINITION. The system control instructions (spec/42_system_control.md R220..R223). -/

namespace Sys2Proof.Machine

/-- `NOP` (R220). -/
def execNop (s : State) : Outcome :=
  finish (advance 1 1 s)

/-- `BREAK` (R221, decision D18): refused in every state; notes/assumptions/26.md. -/
def execBrk (_ : State) : Outcome :=
  .refused .breakEffectUndescribed

/-- `WDR` (R222): no effect on any state of the spec (decision D20). -/
def execWdr (s : State) : Outcome :=
  finish (advance 1 1 s)

/-- The step of `SLEEP` for each value of the parameter `sleepBehaviour` (R223, decision D19). -/
def sleepStep (b : Config.SleepBehaviour) (s : State) : Res State :=
  match b with
  | .wait => advance 1 1 { s with sleeping := true }
  | .nop => advance 1 1 s

/-- `SLEEP` (R223). -/
def execSleep (s : State) : Outcome :=
  finish (sleepStep Config.sleepBehaviour s)

end Sys2Proof.Machine
end

