-- ==== Sys2Proof/Machine/CoreStep.lean ====
section
/-! DEFINITION. Fetching an instruction (spec/20_memory.md R62, R68) and the core's step: an
interrupt entry, an instruction, or nothing while asleep (spec/60_exceptions.md R342..R345). -/

namespace Sys2Proof.Machine

/-- The instruction at `pc` (R62, R102). The operand word is read only for a two-word instruction. -/
def fetch (s : State) : Res Instr := do
  let w ← progWord s.pcNat s
  let w2 ← if isTwoWord w then progWord (s.pcNat + 1) s else .ok 0
  match decode w w2 with
  | .ok i => .ok i
  | .error _ => .error (.unlistedEncoding w)

/-- `Enabled(n)`, the individual enable of vector n (R342, R369); `false` for a source the spec does
not describe (decision D23). -/
def individualEnable (s : State) (n : Nat) : Bool :=
  match n with
  | 11 => s.timsk1[5]
  | 12 => s.timsk1[1]
  | 13 => s.timsk1[2]
  | 14 => s.timsk1[0]
  | _ => false

/-- `Requested(n)` (R342, R369). The requests of vectors 11 and 13 are free values, new at each
boundary (R373); those of the sources the spec does not describe are the bits of `pending`. -/
def requested (s : State) (n : Nat) : Bool :=
  match n with
  | 11 => Config.captureRequest s.draws
  | 12 => s.ocf1a
  | 13 => Config.compareBRequest s.draws
  | 14 => s.tov1
  | _ => s.pending.getLsbD n

/-- The interrupt numbers, in the order of priority (R341, R344). -/
def interruptVectors : List Nat := List.range' 2 25

/-- The lowest-numbered enabled request (R344, R345). -/
def pendingVector (s : State) : Option Nat :=
  interruptVectors.find? fun n => individualEnable s n && requested s n

/-- The interrupt that is taken at this boundary, if one is (R343, R345). -/
def takenVector (s : State) : Option Nat :=
  match pendingVector s with
  | some n => if s.sreg.i && !s.inhibit then some n else none
  | none => none

/-- A request of vector 11 or 13 can be taken: the boundary uses a free value (R373). -/
def usesRequests (s : State) : Bool := s.timsk1[5] || s.timsk1[2]

/-- The state in which the core acts after this boundary: where the boundary used a free value, the
next one is another. -/
def afterBoundary (s : State) : State := if usesRequests s then s.drew 1 else s

/-- Running the instruction at `pc` (R345): `inhibit` is cleared first. -/
def runInstruction (s : State) : Outcome :=
  match fetch s with
  | .ok i => exec i { s with inhibit := false }
  | .error r => .refused r

/-- `CoreStep()` (R345). Asleep with no interrupt to take, the core executes nothing; that is no
stop (R223, spec/93_implementation_defined.md Part 1b). -/
def coreStep (s : State) : Outcome :=
  match takenVector s with
  | some n => finish (interruptEntry n (afterBoundary s))
  | none => if s.sleeping then .next (afterBoundary s) else runInstruction (afterBoundary s)

end Sys2Proof.Machine
end

