-- ==== Sys2Proof/Machine/Timer.lean ====
section
/-! DEFINITION. Timer/Counter1 as an agent of its own (spec/60_exceptions.md R360..R372). -/

namespace Sys2Proof.Machine

/-- The clock source of CS12:0 (R361). -/
inductive ClockSource where
  /-- `000`: stopped. -/
  | stopped
  /-- `001`..`101`: the CPU clock divided by `divisor`. -/
  | prescaled (divisor : Nat)
  /-- `110`: falling edges on pin T1. -/
  | t1Falling
  /-- `111`: rising edges on pin T1. -/
  | t1Rising
  deriving DecidableEq, Repr

/-- The clock-select table (R361). -/
def clockSource (tccr1b : Byte) : ClockSource :=
  match (tccr1b.extractLsb' 0 3).toNat with
  | 0 => .stopped
  | 1 => .prescaled 1
  | 2 => .prescaled 8
  | 3 => .prescaled 64
  | 4 => .prescaled 256
  | 5 => .prescaled 1024
  | 6 => .t1Falling
  | _ => .t1Rising

/-- The timer runs on an internal rate: the CPU clock drives it (R361, R372). -/
def ClockSource.internal : ClockSource → Bool
  | .prescaled _ => true
  | _ => false

/-- WGM12: CTC mode (R362). -/
def State.ctcMode (s : State) : Bool := s.tccr1b[3]

/-- The compare of a count (R372): TCNT1 before the count equals OCR1A; after a software write of
TCNT1 a free value says whether the match counts. -/
def timerMatch (s : State) : Bool :=
  s.tcnt1 == s.ocr1a && (!s.matchBlocked || Config.drawBit s.draws)

/-- One count of Timer/Counter1 (R372). It never stops. -/
def tick (s : State) : State :=
  let hit := timerMatch s
  let top := s.tcnt1 == 0xFFFF
  let cleared := hit && s.ctcMode
  { s with
    matchBlocked := false
    ocf1a := s.ocf1a || hit
    tcnt1 := if cleared then 0 else s.tcnt1 + 1
    tov1 := s.tov1 || (top && (!cleared || Config.drawBit (s.draws + 1)))
    draws := s.draws + 2 }

end Sys2Proof.Machine
end

