-- ==== Sys2Proof/Machine/Moves.lean ====
section
/-! DEFINITION. What each agent does when it is its turn (spec/00_scope.md R12): the core, one count
of Timer/Counter1, or an event of the environment (spec/60_exceptions.md R351, R372). -/

namespace Sys2Proof.Machine

/-- A move that `State.agenda` fixes. A clock edge counts only if the timer runs on that clock
(R361). -/
def performMove (m : Move) (s : State) : Outcome :=
  match m with
  | .core => coreStep s
  | .prescaledClock => .next (if (clockSource s.tccr1b).internal then tick s else s)
  | .t1Falling => .next (if clockSource s.tccr1b = .t1Falling then tick s else s)
  | .t1Rising => .next (if clockSource s.tccr1b = .t1Rising then tick s else s)
  | .reset cause => .next (resetEvent cause s)

/-- A move that is open: while the timer runs a free value says whether it counts before the core
moves (R372). -/
def openMove (s : State) : Outcome :=
  if clockSource s.tccr1b = .stopped then coreStep s
  else if Config.timerTurn s.draws then .next (tick (s.drew 1))
  else coreStep (s.drew 1)

end Sys2Proof.Machine
end

