-- ==== Sys2Proof/Machine/Step.lean ====
section
/-! DEFINITION. One step of the machine: the core, one count of Timer/Counter1, or an event of the
environment, interleaved between instructions (spec/00_scope.md R12, spec/20_memory.md R80,
spec/60_exceptions.md R351, R372). -/

namespace Sys2Proof.Machine

/-- One step: the next move of `agenda`, or an open one. -/
def step (s : State) : Host.Outcome State Fault Refusal :=
  match s.agenda with
  | [] => openMove s
  | m :: rest => performMove m { s with agenda := rest }

/-- The state with the instruction whose bits are `w` (numbered as spec/opcode_table.json numbers
them) at `pc`, set so that the next step runs it: the core moves next, awake, with no interrupt
before it. The second word is stored where program memory has a place for it. -/
def State.withFetchWord (s : State) (nbits w : Nat) : State :=
  let words := tableWords nbits w
  let t := s.storeWord s.pcNat words.1
  let t := if s.pcNat + 1 < Config.flashWords then t.storeWord (s.pcNat + 1) words.2 else t
  { t with
    sleeping := false
    inhibit := s.inhibit || s.sreg.i
    agenda :=
      if s.agenda = [] ∧ clockSource s.tccr1b = .stopped then [] else .core :: s.agenda }

end Sys2Proof.Machine
end

