-- ==== Sys2Proof/Safety.lean ====
section
/-! DEFINITION. The terms in which claims about the machine speak: the invariant every step keeps,
which data addresses exist, which of
them an instruction reads and stores to, a fair run, and the end of a run. -/

namespace Sys2Proof.Machine

/-- The data addresses at which the spec describes something: registers, the ten described I/O
bytes, SRAM (R70, R71). -/
def described (a : Nat) : Bool :=
  a < 0x20 || [0x36, 0x5D, 0x5E, 0x5F, 0x6F, 0x81, 0x84, 0x85, 0x88, 0x89].contains a ||
    (0x100 ≤ a && a ≤ 0x8FF)

/-- The byte may be stored at the address: it is described, and the store is not one of TCCR1B with
WGM13 = 1 (R65). -/
def storable (a : Nat) (v : Byte) : Bool := described a && !(a == 0x81 && v[4])

/-- The address is an SRAM byte (R70). -/
def isSram (a : Nat) : Bool := 0x100 ≤ a && a ≤ 0x8FF

/-- The instruction of `n` words at `pc` is not the last of program memory, so that the next one has
an address (R25). -/
abbrev State.hasNext (s : State) (n : Nat) : Prop := s.pc.toNat + n < 16384

/-- What every step keeps: both memories in canonical form and in their address ranges (R34, R70),
the reserved bits of TCCR1B and TIMSK1 and WGM13 zero (R360, R365), no request of an undescribed
source (R38). -/
structure State.Inv (s : State) : Prop where
  sramForm : s.sram.wf
  sramRange : s.sram.within 0x100 0x8FF
  flashForm : s.flash.wf
  flashRange : s.flash.within 0 0x7FFF
  tccr1bReserved : s.tccr1b &&& 0x30 = 0
  timsk1Reserved : s.timsk1 &&& 0xD8 = 0
  noPending : s.pending = 0

/-- The data addresses a push of `n` bytes stores to: SP, and SP as each push leaves it for the
next one (R31). -/
def pushAddresses : Nat → Word → State → List Nat
  | 0, _, _ => []
  | n + 1, v, s => s.sp.toNat :: match push (lowByte v) s with
    | .ok t => pushAddresses n (v >>> 8) t
    | .error _ => []

/-- The data addresses a push of a return address stores to (R32). -/
def pushPCAddresses (v : Word) (s : State) : List Nat := pushAddresses Config.returnAddressBytes v s

/-- The data addresses an instruction stores to, each computed as its meaning computes it. -/
def storeAddresses (i : Instr) (s : State) : List Nat :=
  match i with
  | .sts k _ => [k.toNat]
  | .stX _ | .stXInc _ => [(s.ptr .x).toNat]
  | .stY _ | .stYInc _ => [(s.ptr .y).toNat]
  | .stZ _ | .stZInc _ => [(s.ptr .z).toNat]
  | .stXDec _ => [(decAddress .x s).toNat]
  | .stYDec _ => [(decAddress .y s).toNat]
  | .stZDec _ => [(decAddress .z s).toNat]
  | .stdY q _ => [dispAddress .y q s]
  | .stdZ q _ => [dispAddress .z q s]
  | .ioOut a _ => [a.toNat + 0x20]
  | .sbi a _ | .cbi a _ => [a.toNat + 0x20]
  | .push _ => [s.sp.toNat]
  | .rcall _ | .icall => pushPCAddresses (BitVec.ofNat 16 (s.pcNat + 1)) s
  | .call _ => pushPCAddresses (BitVec.ofNat 16 (s.pcNat + 2)) s
  | _ => []

/-- The data addresses an instruction reads, each computed as its meaning computes it. -/
def readAddresses (i : Instr) (s : State) : List Nat :=
  match i with
  | .lds _ k => [k.toNat]
  | .ldX _ | .ldXInc _ => [(s.ptr .x).toNat]
  | .ldY _ | .ldYInc _ => [(s.ptr .y).toNat]
  | .ldZ _ | .ldZInc _ => [(s.ptr .z).toNat]
  | .ldXDec _ => [(decAddress .x s).toNat]
  | .ldYDec _ => [(decAddress .y s).toNat]
  | .ldZDec _ => [(decAddress .z s).toNat]
  | .lddY _ q => [dispAddress .y q s]
  | .lddZ _ q => [dispAddress .z q s]
  | .ioIn _ a => [a.toNat + 0x20]
  | .sbi a _ | .cbi a _ | .sbic a _ | .sbis a _ => [a.toNat + 0x20]
  | .pop _ => [(s.sp + 1).toNat]
  | .ret | .reti =>
    (List.range Config.returnAddressBytes).map fun k => (s.sp + BitVec.ofNat 16 (k + 1)).toNat
  | _ => []

/-- The general registers an instruction writes as its result or as the pointer it modifies. -/
def destinations : Instr → List Reg
  | .mov d _ | .ldi d _ | .lds d _ | .ldX d | .ldY d | .ldZ d | .lddY d _ | .lddZ d _ | .lpmZ d
  | .ioIn d _ | .pop d | .swap d | .add d _ | .adc d _ | .sub d _ | .subi d _ | .sbc d _
  | .sbci d _ | .and d _ | .andi d _ | .or d _ | .ori d _ | .eor d _ | .com d | .neg d | .inc d
  | .dec d | .clr d | .ser d | .lsl d | .lsr d | .rol d | .ror d | .asr d => [d]
  | .movw d _ | .adiw d _ | .sbiw d _ => [d, d + 1]
  | .ldXInc d | .ldXDec d => [d, 26, 27]
  | .ldYInc d | .ldYDec d => [d, 28, 29]
  | .ldZInc d | .ldZDec d | .lpmZInc d => [d, 30, 31]
  | .stXInc _ | .stXDec _ => [26, 27]
  | .stYInc _ | .stYDec _ => [28, 29]
  | .stZInc _ | .stZDec _ => [30, 31]
  | .lpm => [0]
  | .mul _ _ | .muls _ _ | .mulsu _ _ => [0, 1]
  | _ => []

/-- The instructions with a flag result (the table of R27). -/
def writesFlags : Instr → Bool
  | .add _ _ | .adc _ _ | .sub _ _ | .subi _ _ | .sbc _ _ | .sbci _ _ | .cp _ _ | .cpc _ _
  | .cpi _ _ | .lsl _ | .rol _ | .adiw _ _ | .sbiw _ _ | .com _ | .neg _ | .lsr _ | .ror _
  | .asr _ | .and _ _ | .andi _ _ | .or _ _ | .ori _ _ | .eor _ _ | .inc _ | .dec _ | .clr _
  | .mul _ _ | .muls _ _ | .mulsu _ _ | .sec | .sez | .sen | .sev | .ses | .seh | .setT | .sei
  | .clc | .clz | .cln | .clv | .cls | .clh | .clt | .cli | .reti => true
  | _ => false

/-- The length in words of an instruction that is no jump, call, return, branch or skip (R25). -/
def sequentialWords : Instr → Option Nat
  | .rjmp _ | .jmp _ | .ijmp | .rcall _ | .call _ | .icall | .ret | .reti | .cpse _ _ | .sbrc _ _
  | .sbrs _ _ | .sbic _ _ | .sbis _ _ | .breq _ | .brne _ | .brcs _ | .brcc _ | .brlo _ | .brsh _
  | .brmi _ | .brpl _ | .brhs _ | .brhc _ | .brts _ | .brtc _ | .brvs _ | .brvc _ | .brie _
  | .brid _ | .brge _ | .brlt _ => none
  | .lds _ _ | .sts _ _ => some 2
  | _ => some 1

/-- A core step is possible (R345): the core is awake, or there is an interrupt to take. R372 speaks of an
awake core only; the second part is the model's reading (notes/assumptions/31.md). -/
def coreReady (s : State) : Bool := !s.sleeping || (takenVector s).isSome

/-- An infinite run in which at each boundary the agent moves that the schedule names, and which is weakly
fair (R372, decision D25): a core that stays able to step does step, and a timer that stays running on
an internal rate does count, each infinitely often. There is no fairness for the clock edges of pin T1
and for resets. -/
structure FairRun (schedule : Nat → Move) (run : Nat → State) : Prop where
  steps : ∀ n, step { run n with agenda := [schedule n] } = .next (run (n + 1))
  coreFair : ∀ n, (∀ m, n ≤ m → coreReady (run m) = true) → ∃ m, n ≤ m ∧ schedule m = .core
  timerFair : ∀ n, (∀ m, n ≤ m → (clockSource (run m).tccr1b).internal = true) →
    ∃ m, n ≤ m ∧ schedule m = .prescaledClock

/-- The suggested `endOfRun` (decision D28): a jump to itself, or asleep, with I = 0. -/
def endOfRun (s : State) : Bool :=
  !s.sreg.i && (s.sleeping ||
    match progWord s.pcNat s with
    | .ok w => w == 0xCFFF
    | .error _ => false)

end Sys2Proof.Machine
end

