-- ==== Sys2Proof/Certificates/Slice0/Obligations.lean ====
section
/-! DEFINITION. The statements for the provers. Next states are written out as record updates of
the state before: a field that is not named is unchanged, which is the instruction's frame. -/

open Sys2Proof Sys2Proof.Machine

/-! ### Decoding and encoding -/

/-- For every well-formed instruction and every value of its operands, decoding its words gives it
back, in the spelling the decoder returns (R119). -/
def Obligations.DecodeEncode : Prop :=
  ∀ i : Instr, i.wellFormed = true → decodeWords (encode i) = .ok i.canonical

/-- What the decoder returns is well-formed and in its canonical spelling, and its words are exactly
the words that were read: no bit of an encoding is ignored. -/
def Obligations.DecodeSound : Prop :=
  ∀ (w w2 : Word) (i : Instr), decode w w2 = .ok i →
    i.wellFormed = true ∧ i.canonical = i ∧ encode i = if isTwoWord w then [w, w2] else [w]

/-- Words written out in the spec, one or two of each family, decode to the instruction they stand for
(R125 and the table V-ENC of spec/95_test_vectors.md). -/
def Obligations.DecodeSamples : Prop :=
  decode 0xEA05 0 = .ok (.ldi 16 0xA5) ∧ decode 0x9150 0x0123 = .ok (.lds 21 0x0123) ∧
  decode 0x9350 0x0123 = .ok (.sts 0x0123 21) ∧ decode 0xA55A 0 = .ok (.lddY 21 42) ∧
  decode 0x9AB5 0 = .ok (.sbi 0x16 5) ∧ decode 0x94F8 0 = .ok .cli ∧
  decode 0x9588 0 = .ok .sleep ∧ decode 0x96AA 0 = .ok (.adiw 28 42) ∧
  decode 0x0352 0 = .ok (.mulsu 21 18) ∧ decode 0x940C 0x1234 = .ok (.jmp 0x1234) ∧
  decode 0xFF55 0 = .ok (.sbrs 21 5) ∧ decode 0xF7B4 0 = .ok (.brge (-10))

/-- Exactly LDS, STS, JMP and CALL are two words long, and the first word alone says which it is
(R101, R102). -/
def Obligations.InstructionLength : Prop :=
  ∀ i : Instr, i.wellFormed = true →
    ∃ w rest, encode i = w :: rest ∧
      match i with
      | .lds _ _ | .sts _ _ | .jmp _ | .call _ => isTwoWord w = true ∧ rest.length = 1
      | _ => isTwoWord w = false ∧ rest = []

/-- The first words that are no instruction are exactly the ten classes of R121, and the second word
does not matter. -/
def Obligations.UnlistedClasses : Prop :=
  ∀ w w2 : Word, decode w w2 = .error (.unlistedEncoding w) ↔
    (w &&& 0xFF00 = 0x0000 ∧ w ≠ 0) ∨
    (w &&& 0xFF00 = 0x0300 ∧ w &&& 0x0088 ≠ 0) ∨
    (w &&& 0xFE00 = 0x9000 ∧ w &&& 0xF ∈ [0x3, 0x6, 0x7, 0x8, 0xB]) ∨
    (w &&& 0xFE00 = 0x9200 ∧ w &&& 0xF ∈ [0x3, 0x4, 0x5, 0x6, 0x7, 0x8, 0xB]) ∨
    (w &&& 0xFE0F = 0x9404) ∨
    (w &&& 0xFF0F = 0x9508 ∧ w &&& 0xF0 ∈ [0x20, 0x30, 0x40, 0x50, 0x60, 0x70, 0xB0, 0xD0, 0xF0]) ∨
    (w &&& 0xFE0F = 0x9409 ∧ w ≠ 0x9409 ∧ w ≠ 0x9509) ∨
    (w &&& 0xFE0F = 0x940B) ∨
    (w &&& 0xFC08 = 0xF800) ∨
    (w &&& 0xF808 = 0xF808)

/-- The two spellings of one word have one meaning: LSL is ADD, ROL is ADC, CLR is EOR, SER is LDI,
BRLO is BRCS, BRSH is BRCC, and LDD and STD with q = 0 are LD and ST (R119). -/
def Obligations.AliasMeaning : Prop :=
  ∀ (i : Instr) (s : State), exec i.canonical s = exec i s

/-! ### The step -/

/-- A step runs the instruction that the words at `pc` decode to: awake, with no interrupt to take, the
core's move is `exec` of it on the state with `inhibit` cleared. Stated for the core's turn fixed by
`agenda`, and for an open turn with the timer stopped (R345; whose turn it is: notes/assumptions/6.md). -/
def Obligations.StepRunsDecoded : Prop :=
  ∀ (i : Instr) (s : State) (w w2 : Word) (rest : List Move),
    decode w w2 = .ok i → progWord s.pcNat s = .ok w →
    (isTwoWord w = true → progWord (s.pcNat + 1) s = .ok w2) →
    s.sleeping = false → takenVector s = none →
    (s.agenda = [] → clockSource s.tccr1b = .stopped →
      step s = exec i { afterBoundary s with inhibit := false }) ∧
    (s.agenda = .core :: rest →
      step s = exec i { afterBoundary { s with agenda := rest } with inhibit := false })

/-- Asleep, the core executes no instruction, and it wakes only by an interrupt entry or a reset
(R40, R345). That an asleep core's turn is a step without effect is the model's choice
(notes/assumptions/25.md). In a fair run without a reset, a core that sleeps with I = 1 while the timer runs
on an internal rate, with the compare interrupt enabled, or with the overflow interrupt enabled in normal
mode, and without the interrupts of vectors 11 and 13, is served: it stays asleep, its `pc` unchanged, until
the entry of an enabled one of vectors 12 and 14. R372 says fairness of a core that is not asleep; that a
sleeping core with an interrupt to take counts as able to step, as `FairRun` has it, is the model's choice of
how to read it (notes/assumptions/31.md). -/
def Obligations.SleepLeft : Prop :=
  (∀ s t : State, s.sleeping = true → step s = .next t →
    (t.sleeping = true ∧ t.pc = s.pc ∧ t.regs = s.regs ∧ t.sram = s.sram ∧ t.sp = s.sp ∧
      t.sreg = s.sreg) ∨
    (∃ n u, u = { s with agenda := u.agenda, draws := u.draws } ∧ takenVector u = some n ∧
      interruptEntry n (afterBoundary u) = .ok t) ∨
    (∃ cause rest, s.agenda = .reset cause :: rest ∧
      t = resetEvent cause { s with agenda := rest })) ∧
  (∀ (schedule : Nat → Move) (run : Nat → State) (n : Nat), FairRun schedule run →
    (∀ m, n ≤ m → ∀ cause, schedule m ≠ .reset cause) →
    (run n).sleeping = true → (run n).sreg.i = true → (run n).inhibit = false →
    (clockSource (run n).tccr1b).internal = true →
    (run n).timsk1[5] = false → (run n).timsk1[2] = false →
    ((run n).timsk1[1] = true ∨ ((run n).timsk1[0] = true ∧ (run n).tccr1b[3] = false)) →
    ∃ m v, n ≤ m ∧ (∀ j, n ≤ j → j ≤ m → (run j).sleeping = true ∧ (run j).pc = (run n).pc) ∧
      ((v = 12 ∧ (run n).timsk1[1] = true) ∨ (v = 14 ∧ (run n).timsk1[0] = true)) ∧
      interruptEntry v { run m with agenda := [] } = .ok (run (m + 1)))

/-- No step of any agent changes program memory (R83). -/
def Obligations.ProgramConstant : Prop :=
  ∀ s t : State, step s = .next t → t.flash = s.flash

/-- Every step keeps the invariant: both memories keep their canonical form and range, the reserved bits
of TCCR1B and TIMSK1 and WGM13 stay 0, and no request of an undescribed source appears. -/
def Obligations.StepKeepsInv : Prop :=
  ∀ s t : State, s.Inv → step s = .next t → t.Inv

/-- The state after reset meets the invariant. -/
def Obligations.ResetInv : Prop := State.reset.Inv

/-- The values R42 gives for the state after reset. R0..R31 and TEMP1, to which the spec gives none,
are not named. -/
def Obligations.ResetValues : Prop :=
  State.reset.pc = 0 ∧ State.reset.sreg.toByte = 0 ∧ State.reset.sp = 0x08FF ∧
  (∀ a, State.reset.sram.read a = none) ∧ State.reset.tccr1b = 0 ∧ State.reset.tcnt1 = 0 ∧
  State.reset.ocr1a = 0 ∧ State.reset.timsk1 = 0 ∧ State.reset.ocf1a = false ∧
  State.reset.tov1 = false ∧ State.reset.matchBlocked = false ∧ State.reset.pending = 0 ∧
  State.reset.inhibit = false ∧ State.reset.sleeping = false

/-- The reset event, in any state and from any cause: the values of R401; a cause other than power-on
keeps the general registers, SRAM and TEMP1; program memory is unchanged. A reset that is the next
move happens, whatever the core was doing (R400). -/
def Obligations.ResetEventValues : Prop :=
  ∀ (cause : ResetCause) (s : State) (rest : List Move),
    (let t := resetEvent cause s
     t.pc = 0 ∧ t.sreg.toByte = 0 ∧ t.sp = 0x08FF ∧ t.tccr1b = 0 ∧ t.tcnt1 = 0 ∧ t.ocr1a = 0 ∧
     t.timsk1 = 0 ∧ t.ocf1a = false ∧ t.tov1 = false ∧ t.inhibit = false ∧ t.sleeping = false ∧
     t.matchBlocked = false ∧ t.pending = 0 ∧ t.flash = s.flash ∧
     (cause = .powerOn → ∀ a, t.sram.read a = none) ∧
     (cause ≠ .powerOn → t.regs = s.regs ∧ t.sram = s.sram ∧ t.temp1 = s.temp1)) ∧
    (s.agenda = .reset cause :: rest →
      step s = .next (resetEvent cause { s with agenda := rest }))

/-! ### Interrupts -/

/-- Interrupt entry: the return address is pushed low byte first, I is cleared, the flag of the vector
taken is cleared and no other, `sleeping` and `inhibit` are cleared, `pc` goes to `2 × (n - 1)` (R341, R346).
First for every place the stack is in: where the push has a result, and where it is refused, as the entry
then is (R86); then, with the stack in SRAM, all that changes. -/
def Obligations.InterruptEntryResult : Prop :=
  ∀ (n : Nat) (s : State), 2 ≤ n → n ≤ 26 →
    (∀ t, pushPC (s.pc.setWidth 16) s = .ok t → interruptEntry n s = .ok { t with
      sreg := { t.sreg with i := false }
      ocf1a := if n = 12 then false else t.ocf1a
      tov1 := if n = 14 then false else t.tov1
      sleeping := false
      inhibit := false
      pc := BitVec.ofNat 14 (2 * (n - 1))
      cycles := s.cycles + 4 }) ∧
    (∀ e, pushPC (s.pc.setWidth 16) s = .error e → interruptEntry n s = .error e) ∧
    (isSram s.sp.toNat = true → isSram (s.sp - 1).toNat = true →
      interruptEntry n s = .ok { s with
        sram := (s.sram.write s.sp.toNat ((s.pc.setWidth 16).extractLsb' 0 8)).write
          (s.sp - 1).toNat ((s.pc.setWidth 16).extractLsb' 8 8)
        sp := s.sp - 2
        sreg := { s.sreg with i := false }
        ocf1a := if n = 12 then false else s.ocf1a
        tov1 := if n = 14 then false else s.tov1
        sleeping := false
        inhibit := false
        pc := BitVec.ofNat 14 (2 * (n - 1))
        cycles := s.cycles + 4 })

/-- The interrupt taken at a boundary is the enabled request with the lowest vector number, and one is
taken exactly when I = 1, `inhibit` = 0 and there is such a request (R344, R345). It is vector 11 or 13
only while bits 5 and 2 of TIMSK1 enable them, 12 only with OCF1A and OCIE1A, 14 only with TOV1 and
TOIE1, and no other (R342, R369, R373). The core's move is then its entry. -/
def Obligations.InterruptSelection : Prop :=
  ∀ (s : State) (n : Nat),
    (takenVector s = some n ↔
      s.sreg.i = true ∧ s.inhibit = false ∧ 2 ≤ n ∧ n ≤ 26 ∧
      individualEnable s n = true ∧ requested s n = true ∧
      ∀ m, 2 ≤ m → m < n → ¬ (individualEnable s m = true ∧ requested s m = true)) ∧
    (takenVector s = some n →
      ((n = 11 ∧ s.timsk1[5] = true) ∨ (n = 12 ∧ s.ocf1a = true ∧ s.timsk1[1] = true) ∨
        (n = 13 ∧ s.timsk1[2] = true) ∨ (n = 14 ∧ s.tov1 = true ∧ s.timsk1[0] = true)) ∧
      coreStep s = finish (interruptEntry n (afterBoundary s)))

/-- RET and RETI, for every place the stack is in: `pc` is the popped word, one outside program memory
stops, and so does a pop that stops; RETI also sets I and `inhibit`; with the two bytes in SRAM the high
byte is the one at SP + 1 (R286, R287, R348). -/
def Obligations.ReturnResult : Prop :=
  (∀ (s t : State) (v : Word), popPC s = .ok (v, t) →
    (v.toNat < 16384 →
      exec .ret s = .next { t with pc := v.setWidth 14, cycles := s.cycles + 4 } ∧
      exec .reti s = .next { t with
        pc := v.setWidth 14, cycles := s.cycles + 4, sreg := { t.sreg with i := true },
        inhibit := true }) ∧
    (16384 ≤ v.toNat → exec .ret s = .refused (.pcOutOfRange v.toNat) ∧
      exec .reti s = .refused (.pcOutOfRange v.toNat))) ∧
  (∀ (s : State) (e : Refusal), popPC s = .error e →
    exec .ret s = .refused e ∧ exec .reti s = .refused e) ∧
  (∀ (s : State) (hi lo : Byte), isSram (s.sp + 1).toNat = true → isSram (s.sp + 2).toNat = true →
    s.sram.read (s.sp + 1).toNat = some hi → s.sram.read (s.sp + 2).toNat = some lo →
    popPC s = .ok (hi ++ lo, { s with sp := s.sp + 2 }))

/-- SEI and RETI leave I and `inhibit` set, CLI leaves I clear, and a boundary with `inhibit` set or I clear
takes no interrupt; so after CLI none is taken, and after SEI or RETI the next instruction runs first
(R350, R411, R412). -/
def Obligations.EnableDelay : Prop :=
  (∀ s t : State, exec .sei s = .next t →
    t.sreg.i = true ∧ t.inhibit = true ∧ takenVector t = none) ∧
  (∀ s t : State, exec .reti s = .next t →
    t.sreg.i = true ∧ t.inhibit = true ∧ takenVector t = none) ∧
  (∀ s t : State, exec .cli s = .next t → t.sreg.i = false ∧ takenVector t = none) ∧
  (∀ s : State, (s.inhibit = true ∨ s.sreg.i = false) → takenVector s = none)

/-! ### Timer/Counter1 -/

/-- One count of the timer, where the spec fixes it: it compares the value before the count, sets OCF1A on
a match, clears the counter on a match in CTC mode and else adds 1, sets TOV1 when it leaves 0xFFFF by
overflow, and never clears a flag; only `matchBlocked` and the count of free values change beside
(R372). With `matchBlocked` set, both outcomes of the compare are admitted. -/
def Obligations.TickEffect : Prop :=
  ∀ s : State,
    (∃ hit : Bool, (s.tcnt1 ≠ s.ocr1a → hit = false) ∧
      (s.tcnt1 = s.ocr1a → s.matchBlocked = false → hit = true) ∧
      tick s = { s with
        tcnt1 := if hit = true ∧ s.tccr1b[3] = true then 0 else s.tcnt1 + 1
        ocf1a := s.ocf1a || hit
        tov1 := (tick s).tov1
        matchBlocked := false
        draws := s.draws + 2 } ∧
      (s.tcnt1 ≠ 0xFFFF → (tick s).tov1 = s.tov1) ∧
      (s.tov1 = true → (tick s).tov1 = true) ∧
      (s.tcnt1 = 0xFFFF → ¬ (hit = true ∧ s.tccr1b[3] = true) → (tick s).tov1 = true))

/-- The clock-select table (R361), and which clock counts: the prescaler's clock while CS12:0 is 1 to 5, a
falling edge on T1 while it is 6, a rising edge while it is 7; any other clock changes nothing. Where the
order is open and the timer runs, a step is a count or the core's move (R372, notes/assumptions/6.md). -/
def Obligations.ClockSelect : Prop :=
  (∀ b : Byte, clockSource b =
    if b &&& 7 = 0 then .stopped else if b &&& 7 = 1 then .prescaled 1
    else if b &&& 7 = 2 then .prescaled 8 else if b &&& 7 = 3 then .prescaled 64
    else if b &&& 7 = 4 then .prescaled 256 else if b &&& 7 = 5 then .prescaled 1024
    else if b &&& 7 = 6 then .t1Falling else .t1Rising) ∧
  (∀ (s : State) (rest : List Move) (m : Move) (counts : Prop),
    (m, counts) ∈ [(Move.prescaledClock, s.tccr1b &&& 7 ∈ [1, 2, 3, 4, 5]),
      (.t1Falling, s.tccr1b &&& 7 = 6), (.t1Rising, s.tccr1b &&& 7 = 7)] →
    s.agenda = m :: rest →
    (counts → step s = .next (tick { s with agenda := rest })) ∧
    (¬ counts → step s = .next { s with agenda := rest })) ∧
  (∀ s : State, s.agenda = [] → s.tccr1b &&& 7 ≠ 0 →
    step s = .next (tick { s with draws := s.draws + 1 }) ∨
    step s = coreStep { s with draws := s.draws + 1 })

/-! ### The data space -/

/-- Reading a byte, over the whole data space (R64). That an SRAM byte which nothing has written reads as
a free value, and not as a stop, is the model's choice between the two R43 admits
(notes/assumptions/3.md). -/
def Obligations.MemReadTable : Prop :=
  ∀ s : State,
    (∀ r : Reg, memRead r.val s = .ok (s.regs[r], s)) ∧
    (∃ icf1 ocf1b : Bool,
      memRead 0x36 s = .ok (tifr1Byte icf1 ocf1b s.ocf1a s.tov1, { s with draws := s.draws + 2 })) ∧
    memRead 0x5D s = .ok (s.sp.extractLsb' 0 8, s) ∧
    memRead 0x5E s = .ok (s.sp.extractLsb' 8 8, s) ∧
    memRead 0x5F s = .ok (s.sreg.toByte, s) ∧
    memRead 0x6F s = .ok (s.timsk1, s) ∧
    memRead 0x81 s = .ok (s.tccr1b, s) ∧
    memRead 0x84 s = .ok (s.tcnt1.extractLsb' 0 8, { s with temp1 := s.tcnt1.extractLsb' 8 8 }) ∧
    memRead 0x85 s = .ok (s.temp1, s) ∧
    memRead 0x88 s = .ok (s.ocr1a.extractLsb' 0 8, s) ∧
    memRead 0x89 s = .ok (s.ocr1a.extractLsb' 8 8, s) ∧
    (∀ a v, 0x100 ≤ a → a ≤ 0x8FF → s.sram.read a = some v → memRead a s = .ok (v, s)) ∧
    (∀ a, 0x100 ≤ a → a ≤ 0x8FF → s.sram.read a = none →
      ∃ v, memRead a s = .ok (v, { s with draws := s.draws + 1 })) ∧
    (∀ a, 0x20 ≤ a → a < 0x100 →
      a ∉ [0x36, 0x5D, 0x5E, 0x5F, 0x6F, 0x81, 0x84, 0x85, 0x88, 0x89] →
      memRead a s = .error (.undescribedIO a)) ∧
    (∀ a, 0x8FF < a → memRead a s = .error (.beyondRamend a))

/-- Writing a byte, over the whole data space (R65). -/
def Obligations.MemWriteTable : Prop :=
  ∀ (s : State) (v : Byte),
    (∀ r : Reg, memWrite r.val v s = .ok { s with regs := s.regs.set r v }) ∧
    memWrite 0x36 v s =
      .ok { s with ocf1a := s.ocf1a && !v[1], tov1 := s.tov1 && !v[0] } ∧
    memWrite 0x5D v s = .ok { s with sp := s.sp.extractLsb' 8 8 ++ v } ∧
    memWrite 0x5E v s = .ok { s with sp := v ++ s.sp.extractLsb' 0 8 } ∧
    ((s.sreg.i = true ∨ v[7] = false) →
      memWrite 0x5F v s = .ok { s with sreg := Sreg.ofByte v }) ∧
    ((s.sreg.i = false ∧ v[7] = true) → ∃ b : Bool,
      memWrite 0x5F v s =
        .ok { s with sreg := Sreg.ofByte v, inhibit := b, draws := s.draws + 1 }) ∧
    memWrite 0x6F v s = .ok { s with timsk1 := v &&& 0x27 } ∧
    (v[4] = true → memWrite 0x81 v s = .error (.undescribedIO 0x81)) ∧
    (v[4] = false → memWrite 0x81 v s = .ok { s with tccr1b := v &&& 0xDF }) ∧
    memWrite 0x84 v s = .ok { s with tcnt1 := s.temp1 ++ v, matchBlocked := true } ∧
    memWrite 0x85 v s = .ok { s with temp1 := v } ∧
    memWrite 0x88 v s = .ok { s with ocr1a := s.temp1 ++ v } ∧
    memWrite 0x89 v s = .ok { s with temp1 := v } ∧
    (∀ a, 0x100 ≤ a → a ≤ 0x8FF → memWrite a v s = .ok { s with sram := s.sram.write a v }) ∧
    (∀ a, 0x20 ≤ a → a < 0x100 →
      a ∉ [0x36, 0x5D, 0x5E, 0x5F, 0x6F, 0x81, 0x84, 0x85, 0x88, 0x89] →
      memWrite a v s = .error (.undescribedIO a)) ∧
    (∀ a, 0x8FF < a → memWrite a v s = .error (.beyondRamend a))

/-- After any accepted store every SRAM byte other than the one stored to reads as before, and a byte
stored to SRAM is read back, with no other effect (R64, R65, R80). -/
def Obligations.StoreReadBack : Prop :=
  ∀ (s t : State) (a : Nat) (v : Byte), memWrite a v s = .ok t →
    (∀ b, b ≠ a → t.sram.read b = s.sram.read b) ∧
    (isSram a = true → memRead a t = .ok (v, t)) ∧
    (∀ r : Reg, r.val ≠ a → t.reg r = s.reg r) ∧
    (∀ r : Reg, r.val = a → t.reg r = v)

/-- The 16-bit timer registers through TEMP1 (R370): the high byte written first, then the low byte, gives
the whole value at once; the low byte read first latches the high byte, which a count in between does
not disturb. -/
def Obligations.TimerByteAccess : Prop :=
  ∀ (s : State) (hi lo : Byte),
    (memWrite 0x85 hi s >>= fun t => memWrite 0x84 lo t) =
      .ok { s with temp1 := hi, tcnt1 := hi ++ lo, matchBlocked := true } ∧
    (memWrite 0x89 hi s >>= fun t => memWrite 0x88 lo t) =
      .ok { s with temp1 := hi, ocr1a := hi ++ lo } ∧
    (∃ t, memRead 0x84 s = .ok (s.tcnt1.extractLsb' 0 8, t) ∧
      memRead 0x85 (tick t) = .ok (s.tcnt1.extractLsb' 8 8, tick t))

/-- The status register is the byte I T H S V N Z C, and reading back a written byte gives it (R26,
R29). -/
def Obligations.SregLayout : Prop :=
  (∀ b : Byte, (Sreg.ofByte b).toByte = b) ∧
  (∀ f : Sreg, f.toByte = BitVec.ofBool f.i ++ BitVec.ofBool f.t ++ BitVec.ofBool f.h ++
    BitVec.ofBool f.s ++ BitVec.ofBool f.v ++ BitVec.ofBool f.n ++ BitVec.ofBool f.z ++
    BitVec.ofBool f.c)

/-- Push stores at SP and then decrements it, Pop increments it and then reads, both modulo 2^16 and
through the ordinary data space, wherever SP points (R31). On a stack in SRAM a pushed return address
lies with its low byte at SP and its high byte below it, SP is two less, and popping it gives it back
and restores SP (R32). -/
def Obligations.StackOperations : Prop :=
  (∀ (s : State) (v : Byte),
    (∀ t, memWrite s.sp.toNat v s = .ok t → push v s = .ok { t with sp := t.sp - 1 }) ∧
    (∀ e, memWrite s.sp.toNat v s = .error e → push v s = .error e) ∧
    pop s = memRead (s.sp + 1).toNat { s with sp := s.sp + 1 }) ∧
  (∀ (s : State) (v : Word), isSram s.sp.toNat = true → isSram (s.sp - 1).toNat = true →
    ∃ t, pushPC v s = .ok t ∧ t = { s with sp := s.sp - 2, sram := t.sram } ∧
      t.sram.read s.sp.toNat = some (v.extractLsb' 0 8) ∧
      t.sram.read (s.sp - 1).toNat = some (v.extractLsb' 8 8) ∧
      popPC t = .ok (v, { t with sp := s.sp }))

/-! ### Data transfer -/

/-- MOV, MOVW, LDI, SER and SWAP: the register result, and nothing else but `pc` and the cycle count. -/
def Obligations.RegisterMoves : Prop :=
  ∀ (d r : Reg) (k : Byte) (s : State), s.hasNext 1 →
    exec (.mov d r) s = .next { s with
      regs := s.regs.set d s.regs[r], pc := s.pc + 1, cycles := s.cycles + 1 } ∧
    (d.isEven = true → r.isEven = true → exec (.movw d r) s = .next { s with
      regs := (s.regs.set d s.regs[r]).set (d + 1 : Reg) s.regs[r + 1]
      pc := s.pc + 1, cycles := s.cycles + 1 }) ∧
    exec (.ldi d k) s = .next { s with
      regs := s.regs.set d k, pc := s.pc + 1, cycles := s.cycles + 1 } ∧
    exec (.ser d) s = .next { s with
      regs := s.regs.set d 0xFF, pc := s.pc + 1, cycles := s.cycles + 1 } ∧
    exec (.swap d) s = .next { s with
      regs := s.regs.set d (s.regs[d].rotateLeft 4), pc := s.pc + 1, cycles := s.cycles + 1 }

/-- LDS, the plain LD forms and LDD at every described address: the byte read goes to the register, the
pointer is unchanged (R143, R144, R147, R150, R153, R154). What the read gives is `MemReadTable`. -/
def Obligations.LoadResult : Prop :=
  ∀ (d : Reg) (k : Word) (q : BitVec 6) (s : State) (i : Instr) (a n : Nat),
    (i, a, n) ∈ [(Instr.lds d k, k.toNat, 2), (.ldX d, (s.ptr .x).toNat, 1),
      (.ldY d, (s.ptr .y).toNat, 1), (.ldZ d, (s.ptr .z).toNat, 1),
      (.lddY d q, (s.ptr .y).toNat + q.toNat, 1), (.lddZ d q, (s.ptr .z).toNat + q.toNat, 1)] →
    described a = true → s.hasNext n →
    ∃ v t, memRead a s = .ok (v, t) ∧ exec i s = .next { t with
      regs := s.regs.set d v, pc := s.pc + BitVec.ofNat 14 n, cycles := s.cycles + 2 }

/-- The post-increment and pre-decrement LD forms: the byte at the old pointer and the pointer plus 1, or
the byte at the pointer less 1 and that pointer (R145, R146, R148, R149, R151, R152). -/
def Obligations.LoadStepResult : Prop :=
  (∀ (d : Reg) (s : State) (i : Instr) (p : Pointer),
    (i, p) ∈ [(Instr.ldXInc d, Pointer.x), (.ldYInc d, .y), (.ldZInc d, .z)] →
    p.holds d = false → p.covers (s.ptr p).toNat = false → described (s.ptr p).toNat = true →
    s.hasNext 1 →
    ∃ v t, memRead (s.ptr p).toNat s = .ok (v, t) ∧ exec i s = .next { t with
      regs := ((s.regs.set d v).set p.low ((s.ptr p + 1).extractLsb' 0 8)).set (p.low + 1 : Reg)
        ((s.ptr p + 1).extractLsb' 8 8)
      pc := s.pc + 1, cycles := s.cycles + 2 }) ∧
  (∀ (d : Reg) (s : State) (i : Instr) (p : Pointer),
    (i, p) ∈ [(Instr.ldXDec d, Pointer.x), (.ldYDec d, .y), (.ldZDec d, .z)] →
    p.holds d = false → p.covers (s.ptr p - 1).toNat = false →
    described (s.ptr p - 1).toNat = true → s.hasNext 1 →
    ∃ v t, memRead (s.ptr p - 1).toNat s = .ok (v, t) ∧ exec i s = .next { t with
      regs := ((s.regs.set p.low ((s.ptr p - 1).extractLsb' 0 8)).set (p.low + 1 : Reg)
        ((s.ptr p - 1).extractLsb' 8 8)).set d v
      pc := s.pc + 1, cycles := s.cycles + 2 })

/-- STS, the plain ST forms and STD of every storable byte: the register's byte is stored at the address
and every other SRAM byte reads as before (R155, R156, R159, R162, R165, R166). What the store changes is
`MemWriteTable`. -/
def Obligations.StoreResult : Prop :=
  ∀ (r : Reg) (k : Word) (q : BitVec 6) (s : State) (i : Instr) (a n : Nat),
    (i, a, n) ∈ [(Instr.sts k r, k.toNat, 2), (.stX r, (s.ptr .x).toNat, 1),
      (.stY r, (s.ptr .y).toNat, 1), (.stZ r, (s.ptr .z).toNat, 1),
      (.stdY q r, dispAddress .y q s, 1), (.stdZ q r, dispAddress .z q s, 1)] →
    storable a s.regs[r] = true → s.hasNext n →
    ∃ t, memWrite a s.regs[r] s = .ok t ∧
      exec i s = .next { t with
        pc := s.pc + BitVec.ofNat 14 n, cycles := s.cycles + 2 } ∧
      (isSram a = true → t = { s with sram := s.sram.write a s.regs[r] }) ∧
      ∀ b, b ≠ a → t.sram.read b = s.sram.read b

/-- The post-increment and pre-decrement ST forms (R157, R158, R160, R161, R163, R164). -/
def Obligations.StoreStepResult : Prop :=
  (∀ (r : Reg) (s : State) (i : Instr) (p : Pointer),
    (i, p) ∈ [(Instr.stXInc r, Pointer.x), (.stYInc r, .y), (.stZInc r, .z)] →
    p.holds r = false → p.covers (s.ptr p).toNat = false →
    storable (s.ptr p).toNat s.regs[r] = true → s.hasNext 1 →
    ∃ t, memWrite (s.ptr p).toNat s.regs[r] s = .ok t ∧
      exec i s = .next { t with
        regs := (t.regs.set p.low ((s.ptr p + 1).extractLsb' 0 8)).set (p.low + 1 : Reg)
          ((s.ptr p + 1).extractLsb' 8 8)
        pc := s.pc + 1, cycles := s.cycles + 2 } ∧
      ∀ b, b ≠ (s.ptr p).toNat → t.sram.read b = s.sram.read b) ∧
  (∀ (r : Reg) (s : State) (i : Instr) (p : Pointer),
    (i, p) ∈ [(Instr.stXDec r, Pointer.x), (.stYDec r, .y), (.stZDec r, .z)] →
    p.holds r = false → p.covers (decAddress p s).toNat = false →
    storable (decAddress p s).toNat s.regs[r] = true → s.hasNext 1 →
    ∃ t, memWrite (decAddress p s).toNat s.regs[r] (s.setPtr p (decAddress p s)) = .ok t ∧
      exec i s = .next { t with pc := s.pc + 1, cycles := s.cycles + 2 } ∧
      ∀ b, b ≠ (decAddress p s).toNat → t.sram.read b = s.sram.read b)

/-- A post-increment or pre-decrement form whose data register or address is one of its pointer's registers
stops (R177). -/
def Obligations.PointerOverlapStops : Prop :=
  (∀ (d : Reg) (s : State) (i : Instr) (p : Pointer),
    (i, p) ∈ [(Instr.ldXInc d, Pointer.x), (.ldYInc d, .y), (.ldZInc d, .z), (.stXInc d, .x),
      (.stYInc d, .y), (.stZInc d, .z)] →
    (d = p.low ∨ d = p.low + 1 ∨ (s.ptr p).toNat = p.low.val ∨ (s.ptr p).toNat = p.low.val + 1) →
    exec i s = .refused .pointerOverlap) ∧
  (∀ (d : Reg) (s : State) (i : Instr) (p : Pointer),
    (i, p) ∈ [(Instr.ldXDec d, Pointer.x), (.ldYDec d, .y), (.ldZDec d, .z), (.stXDec d, .x),
      (.stYDec d, .y), (.stZDec d, .z)] →
    (d = p.low ∨ d = p.low + 1 ∨ (s.ptr p - 1).toNat = p.low.val ∨
      (s.ptr p - 1).toNat = p.low.val + 1) →
    exec i s = .refused .pointerOverlap) ∧
  (∀ (d : Reg) (s : State), (d = 30 ∨ d = 31) → exec (.lpmZInc d) s = .refused .pointerOverlap)

/-- The data accesses that stop: a load or a pop from an address at which the spec describes nothing, and a
store or a push of a byte that is not storable there. Above RAMEND, an LDD or STD sum above 0xFFFF
included, they stop as nothing is there; below 0x100 as the register is not described (R73, R74, R86,
R178, and R65 for TCCR1B). -/
def Obligations.AccessStops : Prop :=
  ∀ (d : Reg) (k : Word) (q : BitVec 6) (s : State) (i : Instr) (p : Pointer) (a : Nat),
    ((i, a) ∈ [(Instr.lds d k, k.toNat), (.ldX d, (s.ptr .x).toNat), (.ldY d, (s.ptr .y).toNat),
        (.ldZ d, (s.ptr .z).toNat), (.lddY d q, (s.ptr .y).toNat + q.toNat),
        (.lddZ d q, (s.ptr .z).toNat + q.toNat), (.pop d, (s.sp + 1).toNat)] ∨
      (p.holds d = false ∧ (i, p, a) ∈ [(Instr.ldXInc d, Pointer.x, (s.ptr .x).toNat),
        (.ldYInc d, .y, (s.ptr .y).toNat), (.ldZInc d, .z, (s.ptr .z).toNat),
        (.ldXDec d, .x, (s.ptr .x - 1).toNat), (.ldYDec d, .y, (s.ptr .y - 1).toNat),
        (.ldZDec d, .z, (s.ptr .z - 1).toNat)]) → described a = false →
      (a < 0x100 → exec i s = .refused (.undescribedIO a)) ∧
      (0x100 ≤ a → exec i s = .refused (.beyondRamend a))) ∧
    ((i, a) ∈ [(Instr.sts k d, k.toNat), (.stX d, (s.ptr .x).toNat), (.stY d, (s.ptr .y).toNat),
        (.stZ d, (s.ptr .z).toNat), (.stdY q d, (s.ptr .y).toNat + q.toNat),
        (.stdZ q d, (s.ptr .z).toNat + q.toNat), (.push d, s.sp.toNat)] ∨
      (p.holds d = false ∧ (i, p, a) ∈ [(Instr.stXInc d, Pointer.x, (s.ptr .x).toNat),
        (.stYInc d, .y, (s.ptr .y).toNat), (.stZInc d, .z, (s.ptr .z).toNat),
        (.stXDec d, .x, (s.ptr .x - 1).toNat), (.stYDec d, .y, (s.ptr .y - 1).toNat),
        (.stZDec d, .z, (s.ptr .z - 1).toNat)]) → storable a s.regs[d] = false →
      (a < 0x100 → exec i s = .refused (.undescribedIO a)) ∧
      (0x100 ≤ a → exec i s = .refused (.beyondRamend a)))

/-- The three LPM forms: the byte of program word `Z / 2` that bit 0 of Z selects; LPM Z+ also adds 1 to Z. Z at
or above 0x8000 stops, and so does a word the program image does not define (R167..R169, R69, R68). -/
def Obligations.LpmResult : Prop :=
  ∀ (d : Reg) (s : State) (w : Word), s.hasNext 1 →
    ((s.ptr .z).toNat < 0x8000 → progWord ((s.ptr .z).toNat / 2) s = .ok w →
      let v : Byte := if (s.ptr .z).toNat % 2 = 1 then w.extractLsb' 8 8 else w.extractLsb' 0 8
      exec .lpm s = .next { s with
        regs := s.regs.set 0 v, pc := s.pc + 1, cycles := s.cycles + 3 } ∧
      exec (.lpmZ d) s = .next { s with
        regs := s.regs.set d v, pc := s.pc + 1, cycles := s.cycles + 3 } ∧
      (d ≠ 30 → d ≠ 31 → exec (.lpmZInc d) s = .next { s with
        regs := ((s.regs.set d v).set 30 ((s.ptr .z + 1).extractLsb' 0 8)).set 31
          ((s.ptr .z + 1).extractLsb' 8 8)
        pc := s.pc + 1, cycles := s.cycles + 3 })) ∧
    (∀ i, (i = .lpm ∨ i = .lpmZ d ∨ (i = .lpmZInc d ∧ d ≠ 30 ∧ d ≠ 31)) →
      (0x8000 ≤ (s.ptr .z).toNat → exec i s = .refused (.progAddressOutOfRange (s.ptr .z).toNat)) ∧
      ((s.ptr .z).toNat < 0x8000 →
        (s.flash.read (2 * ((s.ptr .z).toNat / 2)) = none ∨
          s.flash.read (2 * ((s.ptr .z).toNat / 2) + 1) = none) →
        exec i s = .refused (.fetchOfUndefinedWord ((s.ptr .z).toNat / 2))))

/-- SPM and BREAK are refused in every state (R170, R221). -/
def Obligations.SpmBreakStop : Prop :=
  ∀ s : State, exec .spm s = .refused .spmEffectUndescribed ∧
    exec .brk s = .refused .breakEffectUndescribed

/-- IN and OUT act on data address A + 0x20: at a described one IN loads the byte, OUT stores it; at an
undescribed one both stop (R171, R172, R73). -/
def Obligations.InOutResult : Prop :=
  ∀ (d : Reg) (a : BitVec 6) (s : State), s.hasNext 1 →
    (described (a.toNat + 0x20) = true → ∃ v t, memRead (a.toNat + 0x20) s = .ok (v, t) ∧
      exec (.ioIn d a) s = .next { t with
        regs := s.regs.set d v, pc := s.pc + 1, cycles := s.cycles + 1 }) ∧
    (described (a.toNat + 0x20) = true → ∃ t, memWrite (a.toNat + 0x20) s.regs[d] s = .ok t ∧
      exec (.ioOut a d) s = .next { t with pc := s.pc + 1, cycles := s.cycles + 1 }) ∧
    (a ∉ [0x16, 0x3D, 0x3E, 0x3F] →
      exec (.ioIn d a) s = .refused (.undescribedIO (a.toNat + 0x20)) ∧
      exec (.ioOut a d) s = .refused (.undescribedIO (a.toNat + 0x20)))

/-- PUSH and POP, wherever SP points; and PUSH followed by POP on a stack in SRAM copies the register and
restores SP (R173, R174). -/
def Obligations.PushPopResult : Prop :=
  ∀ (d r : Reg) (s : State), s.hasNext 1 →
    (storable s.sp.toNat s.regs[r] = true → ∃ t, memWrite s.sp.toNat s.regs[r] s = .ok t ∧
      exec (.push r) s = .next { t with
        sp := t.sp - 1, pc := s.pc + 1, cycles := s.cycles + 2 } ∧
      ∀ b, b ≠ s.sp.toNat → t.sram.read b = s.sram.read b) ∧
    (described (s.sp + 1).toNat = true →
      ∃ v t, memRead (s.sp + 1).toNat { s with sp := s.sp + 1 } = .ok (v, t) ∧
      exec (.pop d) s = .next { t with
        regs := s.regs.set d v, pc := s.pc + 1, cycles := s.cycles + 2 }) ∧
    (isSram s.sp.toNat = true → s.hasNext 2 → ∃ t, exec (.push r) s = .next t ∧
      exec (.pop d) t = .next { s with
        regs := s.regs.set d s.regs[r], sram := s.sram.write s.sp.toNat s.regs[r]
        pc := s.pc + 2, cycles := s.cycles + 4 })

/-! ### Bit manipulation and system control -/

/-- SBI and CBI on TIFR1 (I/O 0x16): SBI clears the addressed timer flag and no other, CBI changes nothing;
on every other register of their range both stop (R191, R192, R67). -/
def Obligations.SbiCbiResult : Prop :=
  ∀ (a : BitVec 5) (b : BitNo) (s : State),
    (s.hasNext 1 →
      exec (.sbi 0x16 b) s = .next { s with
        ocf1a := s.ocf1a && b != 1, tov1 := s.tov1 && b != 0
        pc := s.pc + 1, cycles := s.cycles + 2 } ∧
      exec (.cbi 0x16 b) s = .next { s with pc := s.pc + 1, cycles := s.cycles + 2 }) ∧
    (a ≠ 0x16 → exec (.sbi a b) s = .refused (.undescribedIO (a.toNat + 0x20)) ∧
      exec (.cbi a b) s = .refused (.undescribedIO (a.toNat + 0x20)))

/-- The sixteen SEcc and CLcc: each writes exactly one flag, to 1 or to 0, S being recomputed by none; SEI
also holds off interrupts for one instruction. Each is one word whose bits 6:4 hold the flag's bit
number in SREG and whose bit 7 selects set or clear (R210). -/
def Obligations.FlagBits : Prop :=
  (∀ s : State, s.hasNext 1 →
    (∀ i f, (i, f) ∈ [(Instr.sec, { s.sreg with c := true }), (.sez, { s.sreg with z := true }),
      (.sen, { s.sreg with n := true }), (.sev, { s.sreg with v := true }),
      (.ses, { s.sreg with s := true }), (.seh, { s.sreg with h := true }),
      (.setT, { s.sreg with t := true }), (.clc, { s.sreg with c := false }),
      (.clz, { s.sreg with z := false }), (.cln, { s.sreg with n := false }),
      (.clv, { s.sreg with v := false }), (.cls, { s.sreg with s := false }),
      (.clh, { s.sreg with h := false }), (.clt, { s.sreg with t := false }),
      (.cli, { s.sreg with i := false })] →
      exec i s = .next { s with sreg := f, pc := s.pc + 1, cycles := s.cycles + 1 }) ∧
    exec .sei s = .next { s with
      sreg := { s.sreg with i := true }, inhibit := true
      pc := s.pc + 1, cycles := s.cycles + 1 }) ∧
  (∀ i n c, (i, n, c) ∈ [(Instr.sec, 0, 0), (.sez, 1, 0), (.sen, 2, 0), (.sev, 3, 0), (.ses, 4, 0),
    (.seh, 5, 0), (.setT, 6, 0), (.sei, 7, 0), (.clc, 0, 1), (.clz, 1, 1), (.cln, 2, 1),
    (.clv, 3, 1), (.cls, 4, 1), (.clh, 5, 1), (.clt, 6, 1), (.cli, 7, 1)] →
    encode i = [0x9408#16 + BitVec.ofNat 16 (16 * n + 128 * c)])

/-- NOP and WDR only advance; SLEEP advances and puts the core to sleep (R220, R222, R223). The last is the
value `wait` of the open parameter `sleepBehaviour`, the default R223 states (notes/assumptions/13.md). -/
def Obligations.SystemResult : Prop :=
  ∀ s : State, s.hasNext 1 →
    exec .nop s = .next { s with pc := s.pc + 1, cycles := s.cycles + 1 } ∧
    exec .wdr s = .next { s with pc := s.pc + 1, cycles := s.cycles + 1 } ∧
    exec .sleep s = .next { s with sleeping := true, pc := s.pc + 1, cycles := s.cycles + 1 }

/-! ### Arithmetic and logic -/

/-- ADD, ADC, LSL and ROL: the sum modulo 256 and the flags of R226 as arithmetic: C the carry out of bit 7, H
out of bit 3, V the signed overflow, N the sign of the result, Z zero, S = N xor V. -/
def Obligations.AddResult : Prop :=
  ∀ (d r : Reg) (s : State) (i : Instr) (b : Byte) (cin : Bool),
    (i, b, cin) ∈ [(Instr.add d r, s.regs[r], false), (.adc d r, s.regs[r], s.sreg.c),
      (.lsl d, s.regs[d], false), (.rol d, s.regs[d], s.sreg.c)] →
    s.hasNext 1 →
    let a := s.regs[d]
    let sum := a.toNat + b.toNat + cin.toNat
    let signed := a.toInt + b.toInt + cin.toNat
    let v := decide (signed < -128 ∨ 127 < signed)
    let n := decide (128 ≤ sum % 256)
    exec i s = .next { s with
      regs := s.regs.set d (BitVec.ofNat 8 sum)
      sreg := { s.sreg with
        c := decide (256 ≤ sum)
        h := decide (16 ≤ a.toNat % 16 + b.toNat % 16 + cin.toNat)
        v := v
        n := n
        z := decide (sum % 256 = 0)
        s := n ^^ v }
      pc := s.pc + 1, cycles := s.cycles + 1 }

/-- SUB, SUBI, SBC and SBCI: the difference modulo 256 and the flags of R227 as arithmetic: C the borrow, H
the borrow from bit 4, V the signed overflow; SBC and SBCI keep Z only if it was set (R233..R236). -/
def Obligations.SubResult : Prop :=
  ∀ (d r : Reg) (k : Byte) (s : State) (i : Instr) (b : Byte) (cin keepZ : Bool),
    (i, b, cin, keepZ) ∈ [(Instr.sub d r, s.regs[r], false, false), (.subi d k, k, false, false),
      (.sbc d r, s.regs[r], s.sreg.c, true), (.sbci d k, k, s.sreg.c, true)] →
    s.hasNext 1 →
    let a := s.regs[d]
    let result : Byte := BitVec.ofInt 8 ((a.toNat : Int) - b.toNat - cin.toNat)
    let signed := a.toInt - b.toInt - cin.toNat
    let v := decide (signed < -128 ∨ 127 < signed)
    let n := result.msb
    exec i s = .next { s with
      regs := s.regs.set d result
      sreg := { s.sreg with
        c := decide (a.toNat < b.toNat + cin.toNat)
        h := decide (a.toNat % 16 < b.toNat % 16 + cin.toNat)
        v := v
        n := n
        z := decide (result = 0 ∧ (keepZ = true → s.sreg.z = true))
        s := n ^^ v }
      pc := s.pc + 1, cycles := s.cycles + 1 }

/-- CP, CPC and CPI: the flags of the subtraction (R227), and no register (R249..R251). -/
def Obligations.CompareResult : Prop :=
  ∀ (d r : Reg) (k : Byte) (s : State) (i : Instr) (b : Byte) (cin keepZ : Bool),
    (i, b, cin, keepZ) ∈ [(Instr.cp d r, s.regs[r], false, false), (.cpi d k, k, false, false),
      (.cpc d r, s.regs[r], s.sreg.c, true)] →
    s.hasNext 1 →
    let a := s.regs[d]
    let result : Byte := BitVec.ofInt 8 ((a.toNat : Int) - b.toNat - cin.toNat)
    let signed := a.toInt - b.toInt - cin.toNat
    let v := decide (signed < -128 ∨ 127 < signed)
    let n := result.msb
    exec i s = .next { s with
      sreg := { s.sreg with
        c := decide (a.toNat < b.toNat + cin.toNat)
        h := decide (a.toNat % 16 < b.toNat % 16 + cin.toNat)
        v := v
        n := n
        z := decide (result = 0 ∧ (keepZ = true → s.sreg.z = true))
        s := n ^^ v }
      pc := s.pc + 1, cycles := s.cycles + 1 }

/-- The comparison table (R329): after CP, CPI, SUB or SUBI, N xor V, Z and C say how the two bytes compare as
signed numbers, whether they are equal, and how they compare as unsigned numbers; after CP on the low
bytes and CPC on the high bytes, the same of the two words. -/
def Obligations.CompareTable : Prop :=
  (∀ (d r : Reg) (k : Byte) (s t : State) (i : Instr) (b : Byte),
    (i, b) ∈ [(Instr.cp d r, s.regs[r]), (.sub d r, s.regs[r]), (.cpi d k, k), (.subi d k, k)] →
    exec i s = .next t →
    ((t.sreg.n ^^ t.sreg.v) = true ↔ s.regs[d].toInt < b.toInt) ∧
    (t.sreg.z = true ↔ s.regs[d] = b) ∧
    (t.sreg.c = true ↔ s.regs[d].toNat < b.toNat)) ∧
  (∀ (dl dh rl rh : Reg) (s t u : State),
    exec (.cp dl rl) s = .next t → exec (.cpc dh rh) t = .next u →
    let x : Word := s.regs[dh] ++ s.regs[dl]
    let y : Word := s.regs[rh] ++ s.regs[rl]
    ((u.sreg.n ^^ u.sreg.v) = true ↔ x.toInt < y.toInt) ∧
    (u.sreg.z = true ↔ x = y) ∧
    (u.sreg.c = true ↔ x.toNat < y.toNat))

/-- AND, ANDI, OR, ORI, EOR and CLR: the result, V cleared, N and Z from the result, S = N, C and H
unchanged; COM the same with C set (R228, R238..R243, R247). -/
def Obligations.LogicResult : Prop :=
  ∀ (d r : Reg) (k : Byte) (s : State) (i : Instr) (v : Byte) (c : Bool),
    (i, v, c) ∈ [(Instr.and d r, s.regs[d] &&& s.regs[r], s.sreg.c),
      (.andi d k, s.regs[d] &&& k, s.sreg.c), (.or d r, s.regs[d] ||| s.regs[r], s.sreg.c),
      (.ori d k, s.regs[d] ||| k, s.sreg.c), (.eor d r, s.regs[d] ^^^ s.regs[r], s.sreg.c),
      (.clr d, 0, s.sreg.c), (.com d, ~~~s.regs[d], true)] →
    s.hasNext 1 →
    exec i s = .next { s with
      regs := s.regs.set d v
      sreg := { s.sreg with
        v := false, n := decide (128 ≤ v.toNat), z := decide (v.toNat = 0)
        s := decide (128 ≤ v.toNat), c := c }
      pc := s.pc + 1, cycles := s.cycles + 1 }

/-- NEG: the negated byte and the flags of a subtraction from 0; H holds a value the spec does not fix (R244,
decision D5). -/
def Obligations.NegResult : Prop :=
  ∀ (d : Reg) (s : State), s.hasNext 1 →
    let a := s.regs[d]
    let n := decide (0 < a.toNat ∧ a.toNat ≤ 128)
    let v := decide (a.toNat = 128)
    ∃ h : Bool, exec (.neg d) s = .next { s with
      regs := s.regs.set d (BitVec.ofNat 8 (256 - a.toNat))
      sreg := { s.sreg with
        c := decide (a.toNat ≠ 0), z := decide (a.toNat = 0), n := n, v := v, s := n ^^ v, h := h }
      draws := s.draws + 1
      pc := s.pc + 1, cycles := s.cycles + 1 }

/-- INC and DEC: one more and one less modulo 256; V at the step across the sign boundary; C and H unchanged
(R245, R246). -/
def Obligations.IncDecResult : Prop :=
  ∀ (d : Reg) (s : State), s.hasNext 1 →
    let up := (s.regs[d].toNat + 1) % 256
    let down := (s.regs[d].toNat + 255) % 256
    exec (.inc d) s = .next { s with
      regs := s.regs.set d (BitVec.ofNat 8 up)
      sreg := { s.sreg with
        n := decide (128 ≤ up), z := decide (up = 0), v := decide (s.regs[d].toNat = 127)
        s := decide (128 ≤ up) ^^ decide (s.regs[d].toNat = 127) }
      pc := s.pc + 1, cycles := s.cycles + 1 } ∧
    exec (.dec d) s = .next { s with
      regs := s.regs.set d (BitVec.ofNat 8 down)
      sreg := { s.sreg with
        n := decide (128 ≤ down), z := decide (down = 0), v := decide (s.regs[d].toNat = 128)
        s := decide (128 ≤ down) ^^ decide (s.regs[d].toNat = 128) }
      pc := s.pc + 1, cycles := s.cycles + 1 }

/-- ADIW and SBIW on the pair named by an even register: the 16-bit result in both registers, C the unsigned
carry or borrow, V the signed overflow, N, Z and S of all 16 bits, H unchanged (R232, R237). -/
def Obligations.WordResult : Prop :=
  ∀ (d : Reg) (k : BitVec 6) (s : State), d.isUpperPair = true → s.hasNext 1 →
    let a : Word := s.regs[d + 1] ++ s.regs[d]
    let up : Word := BitVec.ofNat 16 (a.toNat + k.toNat)
    let down : Word := BitVec.ofInt 16 ((a.toNat : Int) - k.toNat)
    let vUp := decide (32767 < a.toInt + k.toNat)
    let vDown := decide (a.toInt - k.toNat < -32768)
    exec (.adiw d k) s = .next { s with
      regs := (s.regs.set d (up.extractLsb' 0 8)).set (d + 1 : Reg) (up.extractLsb' 8 8)
      sreg := { s.sreg with
        c := decide (65536 ≤ a.toNat + k.toNat), v := vUp, n := up.msb, z := decide (up = 0)
        s := up.msb ^^ vUp }
      pc := s.pc + 1, cycles := s.cycles + 2 } ∧
    exec (.sbiw d k) s = .next { s with
      regs := (s.regs.set d (down.extractLsb' 0 8)).set (d + 1 : Reg) (down.extractLsb' 8 8)
      sreg := { s.sreg with
        c := decide (a.toNat < k.toNat), v := vDown, n := down.msb, z := decide (down = 0)
        s := down.msb ^^ vDown }
      pc := s.pc + 1, cycles := s.cycles + 2 }

/-- MUL, MULS and MULSU: the 16-bit product, unsigned, signed, or signed by unsigned, goes to R1:R0 whatever the
operands; C is its bit 15 and Z says it is 0 (R252..R254). -/
def Obligations.MulResult : Prop :=
  ∀ (d r : Reg) (s : State) (i : Instr) (p : Int),
    (i, p) ∈ [(Instr.mul d r, (s.regs[d].toNat : Int) * s.regs[r].toNat),
      (.muls d r, s.regs[d].toInt * s.regs[r].toInt),
      (.mulsu d r, s.regs[d].toInt * s.regs[r].toNat)] →
    s.hasNext 1 →
    exec i s = .next { s with
      regs := (s.regs.set 0 (BitVec.ofInt 8 p)).set 1 (BitVec.ofInt 8 (p / 256))
      sreg := { s.sreg with c := decide (32768 ≤ p % 65536), z := decide (p = 0) }
      pc := s.pc + 1, cycles := s.cycles + 2 }

/-- LSR, ROR and ASR: bit n + 1 goes to bit n, bit 7 takes 0, the old C, or keeps its value; C is the old bit 0,
V = N xor C, S = N xor V, H unchanged (R229, R256, R258, R259). -/
def Obligations.ShiftResult : Prop :=
  ∀ (d : Reg) (s : State) (i : Instr) (top : Bool),
    (i, top) ∈ [(Instr.lsr d, false), (.ror d, s.sreg.c), (.asr d, s.regs[d].msb)] →
    s.hasNext 1 →
    let r : Byte := BitVec.ofNat 8 (s.regs[d].toNat / 2 + 128 * top.toNat)
    let c := decide (s.regs[d].toNat % 2 = 1)
    exec i s = .next { s with
      regs := s.regs.set d r
      sreg := { s.sreg with
        c := c, n := top, z := decide (r = 0), v := top ^^ c, s := top ^^ (top ^^ c) }
      pc := s.pc + 1, cycles := s.cycles + 1 }

/-! ### Jumps, calls, skips, branches -/

/-- RJMP, JMP and IJMP: `pc` becomes the target where program memory has it, else the step stops
(R280..R282, R25). -/
def Obligations.JumpResult : Prop :=
  ∀ (k : BitVec 12) (j : BitVec 22) (s : State) (i : Instr) (target : Int) (c : Nat),
    (i, target, c) ∈ [(Instr.rjmp k, (s.pc.toNat : Int) + 1 + k.toInt, 2),
      (.jmp j, (j.toNat : Int), 3), (.ijmp, ((s.ptr .z).toNat : Int), 2)] →
    (0 ≤ target → target < 16384 →
      exec i s = .next { s with pc := BitVec.ofInt 14 target, cycles := s.cycles + c }) ∧
    ((target < 0 ∨ 16384 ≤ target) → exec i s = .refused (.pcOutOfRange target))

/-- RCALL, CALL and ICALL: the address of the next instruction is pushed, then `pc` becomes the target, read
before the push; with the stack in SRAM only its two bytes change; a push that stops, or a target
outside program memory, stops the call (R283..R285, R25). -/
def Obligations.CallResult : Prop :=
  ∀ (k : BitVec 12) (j : BitVec 22) (s : State) (i : Instr) (target : Int) (ret c : Nat),
    (i, target, ret, c) ∈ [(Instr.rcall k, (s.pc.toNat : Int) + 1 + k.toInt, s.pc.toNat + 1, 3),
      (.call j, (j.toNat : Int), s.pc.toNat + 2, 4),
      (.icall, ((s.ptr .z).toNat : Int), s.pc.toNat + 1, 3)] →
    (∀ t, pushPC (BitVec.ofNat 16 ret) s = .ok t →
      (0 ≤ target → target < 16384 →
        exec i s = .next { t with pc := BitVec.ofInt 14 target, cycles := s.cycles + c }) ∧
      ((target < 0 ∨ 16384 ≤ target) → exec i s = .refused (.pcOutOfRange target))) ∧
    (∀ e, pushPC (BitVec.ofNat 16 ret) s = .error e → exec i s = .refused e) ∧
    (isSram s.sp.toNat = true → isSram (s.sp - 1).toNat = true → 0 ≤ target → target < 16384 →
      exec i s = .next { s with
        sram := (s.sram.write s.sp.toNat (BitVec.ofNat 8 ret)).write (s.sp - 1).toNat
          (BitVec.ofNat 8 (ret / 256))
        sp := s.sp - 2, pc := BitVec.ofInt 14 target, cycles := s.cycles + c })

/-- CPSE, SBRC and SBRS: where the condition fails, the next instruction; where it holds, the one after it, one
or two words further, as the length of the skipped one says; a place outside program memory stops, and so
does a skipped word the program image does not define (R279, R288..R290, R25). -/
def Obligations.SkipResult : Prop :=
  ∀ (d r : Reg) (b : BitNo) (s : State) (i : Instr) (cond : Prop),
    (i, cond) ∈ [(Instr.cpse d r, s.regs[d] = s.regs[r]),
      (.sbrc r b, s.regs[r].getLsbD b.val = false), (.sbrs r b, s.regs[r].getLsbD b.val = true)] →
    (¬ cond →
      (s.hasNext 1 → exec i s = .next { s with pc := s.pc + 1, cycles := s.cycles + 1 }) ∧
      (¬ s.hasNext 1 → exec i s = .refused (.pcOutOfRange 16384))) ∧
    (cond → ∀ e, progWord (s.pc.toNat + 1) s = .error e → exec i s = .refused e) ∧
    (cond → ∀ w n, progWord (s.pc.toNat + 1) s = .ok w → n = (if isTwoWord w then 3 else 2) →
      (s.hasNext n →
        exec i s = .next { s with pc := s.pc + BitVec.ofNat 14 n, cycles := s.cycles + n }) ∧
      (¬ s.hasNext n → exec i s = .refused (.pcOutOfRange (s.pc.toNat + n : Nat))))

/-- SBIC and SBIS on TIFR1 test OCF1A as bit 1, TOV1 as bit 0, 0 as bits 7, 6, 4 and 3, and a value the spec
leaves open as bits 5 and 2, and skip the next instruction by its length; a place outside program memory
stops, and so does a skipped word the program image does not define; on every other register of their
range they stop (R279, R291, R292, R373, R25). -/
def Obligations.IoSkipResult : Prop :=
  ∀ (a : BitVec 5) (b : BitNo) (s : State),
    (∃ bit : Bool, (b = 1 → bit = s.ocf1a) ∧ (b = 0 → bit = s.tov1) ∧
      (b ∈ [3, 4, 6, 7] → bit = false) ∧
      ∀ i skips, (i, skips) ∈ [(Instr.sbic 0x16 b, !bit), (.sbis 0x16 b, bit)] →
        (skips = false →
          (s.hasNext 1 → exec i s = .next { s with
            draws := s.draws + 2, pc := s.pc + 1, cycles := s.cycles + 1 }) ∧
          (¬ s.hasNext 1 → exec i s = .refused (.pcOutOfRange 16384))) ∧
        (skips = true → ∀ e, progWord (s.pc.toNat + 1) s = .error e → exec i s = .refused e) ∧
        (skips = true → ∀ w n, progWord (s.pc.toNat + 1) s = .ok w →
          n = (if isTwoWord w then 3 else 2) →
          (s.hasNext n → exec i s = .next { s with
            draws := s.draws + 2, pc := s.pc + BitVec.ofNat 14 n, cycles := s.cycles + n }) ∧
          (¬ s.hasNext n → exec i s = .refused (.pcOutOfRange (s.pc.toNat + n : Nat))))) ∧
    (a ≠ 0x16 → exec (.sbic a b) s = .refused (.undescribedIO (a.toNat + 0x20)) ∧
      exec (.sbis a b) s = .refused (.undescribedIO (a.toNat + 0x20)))

/-- The sixteen branches on one flag: taken, `pc + 1 + K` in 2 cycles; not taken, `pc + 1` in 1 cycle; a `pc`
outside program memory stops; no flag, register or memory changes (R328, R310..R325). -/
def Obligations.BranchResult : Prop :=
  ∀ (k : BitVec 7) (s : State) (i : Instr) (taken : Bool),
    (i, taken) ∈ [(Instr.breq k, s.sreg.z), (.brne k, !s.sreg.z), (.brcs k, s.sreg.c),
      (.brcc k, !s.sreg.c), (.brlo k, s.sreg.c), (.brsh k, !s.sreg.c), (.brmi k, s.sreg.n),
      (.brpl k, !s.sreg.n), (.brhs k, s.sreg.h), (.brhc k, !s.sreg.h), (.brts k, s.sreg.t),
      (.brtc k, !s.sreg.t), (.brvs k, s.sreg.v), (.brvc k, !s.sreg.v), (.brie k, s.sreg.i),
      (.brid k, !s.sreg.i)] →
    let target : Int := (s.pc.toNat : Int) + 1 + k.toInt
    (taken = false →
      (s.hasNext 1 → exec i s = .next { s with pc := s.pc + 1, cycles := s.cycles + 1 }) ∧
      (¬ s.hasNext 1 → exec i s = .refused (.pcOutOfRange 16384))) ∧
    (taken = true → 0 ≤ target → target < 16384 →
      exec i s = .next { s with pc := BitVec.ofInt 14 target, cycles := s.cycles + 2 }) ∧
    (taken = true → (target < 0 ∨ 16384 ≤ target) → exec i s = .refused (.pcOutOfRange target))

/-- BRGE and BRLT while S = N xor V: taken for S = 0 and for S = 1; where S differs from N xor V they stop
(R326, R327). -/
def Obligations.SignedBranchResult : Prop :=
  ∀ (k : BitVec 7) (s : State) (i : Instr) (taken : Bool),
    (i, taken) ∈ [(Instr.brge k, !s.sreg.s), (.brlt k, s.sreg.s)] →
    let target : Int := (s.pc.toNat : Int) + 1 + k.toInt
    (s.sreg.s = (s.sreg.n ^^ s.sreg.v) →
      (taken = false →
        (s.hasNext 1 → exec i s = .next { s with pc := s.pc + 1, cycles := s.cycles + 1 }) ∧
        (¬ s.hasNext 1 → exec i s = .refused (.pcOutOfRange 16384))) ∧
      (taken = true → 0 ≤ target → target < 16384 →
        exec i s = .next { s with pc := BitVec.ofInt 14 target, cycles := s.cycles + 2 }) ∧
      (taken = true → (target < 0 ∨ 16384 ≤ target) → exec i s = .refused (.pcOutOfRange target))) ∧
    (s.sreg.s ≠ (s.sreg.n ^^ s.sreg.v) → exec i s = .refused .signFlagMismatch)

/-! ### Frames over all instructions -/

/-- Every instruction that is no jump, call, return, branch or skip ends with `pc` past itself, so that none
completes at the end of program memory; and every instruction that completes takes at least one clock cycle
(R25, R420). -/
def Obligations.SequentialAdvance : Prop :=
  ∀ (i : Instr) (s t : State), exec i s = .next t →
    s.cycles < t.cycles ∧ ∀ n, sequentialWords i = some n → t.pc.toNat = s.pc.toNat + n

/-- Every SRAM byte outside the addresses an instruction stores to reads as before, for every instruction, and
no instruction changes program memory. -/
def Obligations.MemoryFrame : Prop :=
  ∀ (i : Instr) (s t : State), exec i s = .next t →
    (∀ b, b ∉ storeAddresses i s → t.sram.read b = s.sram.read b) ∧ t.flash = s.flash

/-- Every general register that is not the instruction's destination or modified pointer, and whose data address
it does not store to, is unchanged, for every instruction (R10, R85). -/
def Obligations.RegisterFrame : Prop :=
  ∀ (i : Instr) (s t : State) (r : Reg), exec i s = .next t → r ∉ destinations i →
    r.val ∉ storeAddresses i s → t.reg r = s.reg r

/-- Only the instructions of the table of R27 and a store to 0x5F change the status register (R27, R175, R293,
R328). -/
def Obligations.FlagFrame : Prop :=
  ∀ (i : Instr) (s t : State), exec i s = .next t → writesFlags i = false →
    0x5F ∉ storeAddresses i s → t.sreg = s.sreg

/-- An instruction that stores to no address below 0x100 changes no timer register, flag or pending bit, and TEMP1
only if it reads data address 0x84 (TCNT1L), then to the counter's high byte (R370); SP changes only by PUSH, POP, calls and returns, `inhibit` only by SEI and
RETI, `sleeping` only by SLEEP (R36, R39, R40, R72). -/
def Obligations.SpecialRegisterFrame : Prop :=
  ∀ (i : Instr) (s t : State), exec i s = .next t → (∀ a ∈ storeAddresses i s, 0x100 ≤ a) →
    t.tccr1b = s.tccr1b ∧ t.tcnt1 = s.tcnt1 ∧ t.ocr1a = s.ocr1a ∧ t.timsk1 = s.timsk1 ∧
    t.ocf1a = s.ocf1a ∧ t.tov1 = s.tov1 ∧ t.matchBlocked = s.matchBlocked ∧
    t.pending = s.pending ∧ t.agenda = s.agenda ∧
    (t.temp1 = s.temp1 ∨ (0x84 ∈ readAddresses i s ∧ t.temp1 = s.tcnt1.extractLsb' 8 8)) ∧
    (t.sp = s.sp ∨ (∃ r, i = .push r) ∨ (∃ d, i = .pop d) ∨ (∃ k, i = .rcall k) ∨
      (∃ k, i = .call k) ∨ i = .icall ∨ i = .ret ∨ i = .reti) ∧
    (t.inhibit = s.inhibit ∨ i = .sei ∨ i = .reti) ∧
    (t.sleeping = s.sleeping ∨ i = .sleep)
end

