-- ==== Sys2Proof/Laws/State.lean ====
section
/-! SUPPORT. What each named update of the state leaves in each field. -/

namespace Sys2Proof.Machine

variable (s : State)

/-! ### `setReg` -/

@[simp] theorem State.setReg_regs (r : Reg) (v : Byte) :
    (s.setReg r v).regs = s.regs.set r v := rfl
@[simp] theorem State.setReg_pc (r : Reg) (v : Byte) :
    (s.setReg r v).pc = s.pc := rfl
@[simp] theorem State.setReg_sp (r : Reg) (v : Byte) :
    (s.setReg r v).sp = s.sp := rfl
@[simp] theorem State.setReg_sreg (r : Reg) (v : Byte) :
    (s.setReg r v).sreg = s.sreg := rfl
@[simp] theorem State.setReg_sram (r : Reg) (v : Byte) :
    (s.setReg r v).sram = s.sram := rfl
@[simp] theorem State.setReg_flash (r : Reg) (v : Byte) :
    (s.setReg r v).flash = s.flash := rfl
@[simp] theorem State.setReg_tccr1b (r : Reg) (v : Byte) :
    (s.setReg r v).tccr1b = s.tccr1b := rfl
@[simp] theorem State.setReg_tcnt1 (r : Reg) (v : Byte) :
    (s.setReg r v).tcnt1 = s.tcnt1 := rfl
@[simp] theorem State.setReg_ocr1a (r : Reg) (v : Byte) :
    (s.setReg r v).ocr1a = s.ocr1a := rfl
@[simp] theorem State.setReg_timsk1 (r : Reg) (v : Byte) :
    (s.setReg r v).timsk1 = s.timsk1 := rfl
@[simp] theorem State.setReg_ocf1a (r : Reg) (v : Byte) :
    (s.setReg r v).ocf1a = s.ocf1a := rfl
@[simp] theorem State.setReg_tov1 (r : Reg) (v : Byte) :
    (s.setReg r v).tov1 = s.tov1 := rfl
@[simp] theorem State.setReg_temp1 (r : Reg) (v : Byte) :
    (s.setReg r v).temp1 = s.temp1 := rfl
@[simp] theorem State.setReg_matchBlocked (r : Reg) (v : Byte) :
    (s.setReg r v).matchBlocked = s.matchBlocked := rfl
@[simp] theorem State.setReg_pending (r : Reg) (v : Byte) :
    (s.setReg r v).pending = s.pending := rfl
@[simp] theorem State.setReg_inhibit (r : Reg) (v : Byte) :
    (s.setReg r v).inhibit = s.inhibit := rfl
@[simp] theorem State.setReg_sleeping (r : Reg) (v : Byte) :
    (s.setReg r v).sleeping = s.sleeping := rfl
@[simp] theorem State.setReg_cycles (r : Reg) (v : Byte) :
    (s.setReg r v).cycles = s.cycles := rfl
@[simp] theorem State.setReg_draws (r : Reg) (v : Byte) :
    (s.setReg r v).draws = s.draws := rfl
@[simp] theorem State.setReg_agenda (r : Reg) (v : Byte) :
    (s.setReg r v).agenda = s.agenda := rfl

/-! ### `setSreg` -/

@[simp] theorem State.setSreg_regs (f : Sreg) :
    (s.setSreg f).regs = s.regs := rfl
@[simp] theorem State.setSreg_pc (f : Sreg) :
    (s.setSreg f).pc = s.pc := rfl
@[simp] theorem State.setSreg_sp (f : Sreg) :
    (s.setSreg f).sp = s.sp := rfl
@[simp] theorem State.setSreg_sreg (f : Sreg) :
    (s.setSreg f).sreg = f := rfl
@[simp] theorem State.setSreg_sram (f : Sreg) :
    (s.setSreg f).sram = s.sram := rfl
@[simp] theorem State.setSreg_flash (f : Sreg) :
    (s.setSreg f).flash = s.flash := rfl
@[simp] theorem State.setSreg_tccr1b (f : Sreg) :
    (s.setSreg f).tccr1b = s.tccr1b := rfl
@[simp] theorem State.setSreg_tcnt1 (f : Sreg) :
    (s.setSreg f).tcnt1 = s.tcnt1 := rfl
@[simp] theorem State.setSreg_ocr1a (f : Sreg) :
    (s.setSreg f).ocr1a = s.ocr1a := rfl
@[simp] theorem State.setSreg_timsk1 (f : Sreg) :
    (s.setSreg f).timsk1 = s.timsk1 := rfl
@[simp] theorem State.setSreg_ocf1a (f : Sreg) :
    (s.setSreg f).ocf1a = s.ocf1a := rfl
@[simp] theorem State.setSreg_tov1 (f : Sreg) :
    (s.setSreg f).tov1 = s.tov1 := rfl
@[simp] theorem State.setSreg_temp1 (f : Sreg) :
    (s.setSreg f).temp1 = s.temp1 := rfl
@[simp] theorem State.setSreg_matchBlocked (f : Sreg) :
    (s.setSreg f).matchBlocked = s.matchBlocked := rfl
@[simp] theorem State.setSreg_pending (f : Sreg) :
    (s.setSreg f).pending = s.pending := rfl
@[simp] theorem State.setSreg_inhibit (f : Sreg) :
    (s.setSreg f).inhibit = s.inhibit := rfl
@[simp] theorem State.setSreg_sleeping (f : Sreg) :
    (s.setSreg f).sleeping = s.sleeping := rfl
@[simp] theorem State.setSreg_cycles (f : Sreg) :
    (s.setSreg f).cycles = s.cycles := rfl
@[simp] theorem State.setSreg_draws (f : Sreg) :
    (s.setSreg f).draws = s.draws := rfl
@[simp] theorem State.setSreg_agenda (f : Sreg) :
    (s.setSreg f).agenda = s.agenda := rfl

/-! ### `setPair` -/

@[simp] theorem State.setPair_regs (lo : Reg) (v : Word) :
    (s.setPair lo v).regs = (s.regs.set lo (lowByte v)).set (lo + 1 : Reg) (highByte v) := rfl
@[simp] theorem State.setPair_pc (lo : Reg) (v : Word) :
    (s.setPair lo v).pc = s.pc := rfl
@[simp] theorem State.setPair_sp (lo : Reg) (v : Word) :
    (s.setPair lo v).sp = s.sp := rfl
@[simp] theorem State.setPair_sreg (lo : Reg) (v : Word) :
    (s.setPair lo v).sreg = s.sreg := rfl
@[simp] theorem State.setPair_sram (lo : Reg) (v : Word) :
    (s.setPair lo v).sram = s.sram := rfl
@[simp] theorem State.setPair_flash (lo : Reg) (v : Word) :
    (s.setPair lo v).flash = s.flash := rfl
@[simp] theorem State.setPair_tccr1b (lo : Reg) (v : Word) :
    (s.setPair lo v).tccr1b = s.tccr1b := rfl
@[simp] theorem State.setPair_tcnt1 (lo : Reg) (v : Word) :
    (s.setPair lo v).tcnt1 = s.tcnt1 := rfl
@[simp] theorem State.setPair_ocr1a (lo : Reg) (v : Word) :
    (s.setPair lo v).ocr1a = s.ocr1a := rfl
@[simp] theorem State.setPair_timsk1 (lo : Reg) (v : Word) :
    (s.setPair lo v).timsk1 = s.timsk1 := rfl
@[simp] theorem State.setPair_ocf1a (lo : Reg) (v : Word) :
    (s.setPair lo v).ocf1a = s.ocf1a := rfl
@[simp] theorem State.setPair_tov1 (lo : Reg) (v : Word) :
    (s.setPair lo v).tov1 = s.tov1 := rfl
@[simp] theorem State.setPair_temp1 (lo : Reg) (v : Word) :
    (s.setPair lo v).temp1 = s.temp1 := rfl
@[simp] theorem State.setPair_matchBlocked (lo : Reg) (v : Word) :
    (s.setPair lo v).matchBlocked = s.matchBlocked := rfl
@[simp] theorem State.setPair_pending (lo : Reg) (v : Word) :
    (s.setPair lo v).pending = s.pending := rfl
@[simp] theorem State.setPair_inhibit (lo : Reg) (v : Word) :
    (s.setPair lo v).inhibit = s.inhibit := rfl
@[simp] theorem State.setPair_sleeping (lo : Reg) (v : Word) :
    (s.setPair lo v).sleeping = s.sleeping := rfl
@[simp] theorem State.setPair_cycles (lo : Reg) (v : Word) :
    (s.setPair lo v).cycles = s.cycles := rfl
@[simp] theorem State.setPair_draws (lo : Reg) (v : Word) :
    (s.setPair lo v).draws = s.draws := rfl
@[simp] theorem State.setPair_agenda (lo : Reg) (v : Word) :
    (s.setPair lo v).agenda = s.agenda := rfl

/-! ### `setPtr` -/

@[simp] theorem State.setPtr_regs (p : Pointer) (v : Word) :
    (s.setPtr p v).regs = (s.regs.set p.low (lowByte v)).set (p.low + 1 : Reg) (highByte v) := rfl
@[simp] theorem State.setPtr_pc (p : Pointer) (v : Word) :
    (s.setPtr p v).pc = s.pc := rfl
@[simp] theorem State.setPtr_sp (p : Pointer) (v : Word) :
    (s.setPtr p v).sp = s.sp := rfl
@[simp] theorem State.setPtr_sreg (p : Pointer) (v : Word) :
    (s.setPtr p v).sreg = s.sreg := rfl
@[simp] theorem State.setPtr_sram (p : Pointer) (v : Word) :
    (s.setPtr p v).sram = s.sram := rfl
@[simp] theorem State.setPtr_flash (p : Pointer) (v : Word) :
    (s.setPtr p v).flash = s.flash := rfl
@[simp] theorem State.setPtr_tccr1b (p : Pointer) (v : Word) :
    (s.setPtr p v).tccr1b = s.tccr1b := rfl
@[simp] theorem State.setPtr_tcnt1 (p : Pointer) (v : Word) :
    (s.setPtr p v).tcnt1 = s.tcnt1 := rfl
@[simp] theorem State.setPtr_ocr1a (p : Pointer) (v : Word) :
    (s.setPtr p v).ocr1a = s.ocr1a := rfl
@[simp] theorem State.setPtr_timsk1 (p : Pointer) (v : Word) :
    (s.setPtr p v).timsk1 = s.timsk1 := rfl
@[simp] theorem State.setPtr_ocf1a (p : Pointer) (v : Word) :
    (s.setPtr p v).ocf1a = s.ocf1a := rfl
@[simp] theorem State.setPtr_tov1 (p : Pointer) (v : Word) :
    (s.setPtr p v).tov1 = s.tov1 := rfl
@[simp] theorem State.setPtr_temp1 (p : Pointer) (v : Word) :
    (s.setPtr p v).temp1 = s.temp1 := rfl
@[simp] theorem State.setPtr_matchBlocked (p : Pointer) (v : Word) :
    (s.setPtr p v).matchBlocked = s.matchBlocked := rfl
@[simp] theorem State.setPtr_pending (p : Pointer) (v : Word) :
    (s.setPtr p v).pending = s.pending := rfl
@[simp] theorem State.setPtr_inhibit (p : Pointer) (v : Word) :
    (s.setPtr p v).inhibit = s.inhibit := rfl
@[simp] theorem State.setPtr_sleeping (p : Pointer) (v : Word) :
    (s.setPtr p v).sleeping = s.sleeping := rfl
@[simp] theorem State.setPtr_cycles (p : Pointer) (v : Word) :
    (s.setPtr p v).cycles = s.cycles := rfl
@[simp] theorem State.setPtr_draws (p : Pointer) (v : Word) :
    (s.setPtr p v).draws = s.draws := rfl
@[simp] theorem State.setPtr_agenda (p : Pointer) (v : Word) :
    (s.setPtr p v).agenda = s.agenda := rfl

/-! ### `drew` -/

@[simp] theorem State.drew_regs (n : Nat) :
    (s.drew n).regs = s.regs := rfl
@[simp] theorem State.drew_pc (n : Nat) :
    (s.drew n).pc = s.pc := rfl
@[simp] theorem State.drew_sp (n : Nat) :
    (s.drew n).sp = s.sp := rfl
@[simp] theorem State.drew_sreg (n : Nat) :
    (s.drew n).sreg = s.sreg := rfl
@[simp] theorem State.drew_sram (n : Nat) :
    (s.drew n).sram = s.sram := rfl
@[simp] theorem State.drew_flash (n : Nat) :
    (s.drew n).flash = s.flash := rfl
@[simp] theorem State.drew_tccr1b (n : Nat) :
    (s.drew n).tccr1b = s.tccr1b := rfl
@[simp] theorem State.drew_tcnt1 (n : Nat) :
    (s.drew n).tcnt1 = s.tcnt1 := rfl
@[simp] theorem State.drew_ocr1a (n : Nat) :
    (s.drew n).ocr1a = s.ocr1a := rfl
@[simp] theorem State.drew_timsk1 (n : Nat) :
    (s.drew n).timsk1 = s.timsk1 := rfl
@[simp] theorem State.drew_ocf1a (n : Nat) :
    (s.drew n).ocf1a = s.ocf1a := rfl
@[simp] theorem State.drew_tov1 (n : Nat) :
    (s.drew n).tov1 = s.tov1 := rfl
@[simp] theorem State.drew_temp1 (n : Nat) :
    (s.drew n).temp1 = s.temp1 := rfl
@[simp] theorem State.drew_matchBlocked (n : Nat) :
    (s.drew n).matchBlocked = s.matchBlocked := rfl
@[simp] theorem State.drew_pending (n : Nat) :
    (s.drew n).pending = s.pending := rfl
@[simp] theorem State.drew_inhibit (n : Nat) :
    (s.drew n).inhibit = s.inhibit := rfl
@[simp] theorem State.drew_sleeping (n : Nat) :
    (s.drew n).sleeping = s.sleeping := rfl
@[simp] theorem State.drew_cycles (n : Nat) :
    (s.drew n).cycles = s.cycles := rfl
@[simp] theorem State.drew_draws (n : Nat) :
    (s.drew n).draws = s.draws + n := rfl
@[simp] theorem State.drew_agenda (n : Nat) :
    (s.drew n).agenda = s.agenda := rfl

/-! ### `storeWord` -/

@[simp] theorem State.storeWord_regs (w : Nat) (v : Word) :
    (s.storeWord w v).regs = s.regs := rfl
@[simp] theorem State.storeWord_pc (w : Nat) (v : Word) :
    (s.storeWord w v).pc = s.pc := rfl
@[simp] theorem State.storeWord_sp (w : Nat) (v : Word) :
    (s.storeWord w v).sp = s.sp := rfl
@[simp] theorem State.storeWord_sreg (w : Nat) (v : Word) :
    (s.storeWord w v).sreg = s.sreg := rfl
@[simp] theorem State.storeWord_sram (w : Nat) (v : Word) :
    (s.storeWord w v).sram = s.sram := rfl
@[simp] theorem State.storeWord_flash (w : Nat) (v : Word) :
    (s.storeWord w v).flash = (s.flash.write (2 * w) (lowByte v)).write (2 * w + 1) (highByte v) := rfl
@[simp] theorem State.storeWord_tccr1b (w : Nat) (v : Word) :
    (s.storeWord w v).tccr1b = s.tccr1b := rfl
@[simp] theorem State.storeWord_tcnt1 (w : Nat) (v : Word) :
    (s.storeWord w v).tcnt1 = s.tcnt1 := rfl
@[simp] theorem State.storeWord_ocr1a (w : Nat) (v : Word) :
    (s.storeWord w v).ocr1a = s.ocr1a := rfl
@[simp] theorem State.storeWord_timsk1 (w : Nat) (v : Word) :
    (s.storeWord w v).timsk1 = s.timsk1 := rfl
@[simp] theorem State.storeWord_ocf1a (w : Nat) (v : Word) :
    (s.storeWord w v).ocf1a = s.ocf1a := rfl
@[simp] theorem State.storeWord_tov1 (w : Nat) (v : Word) :
    (s.storeWord w v).tov1 = s.tov1 := rfl
@[simp] theorem State.storeWord_temp1 (w : Nat) (v : Word) :
    (s.storeWord w v).temp1 = s.temp1 := rfl
@[simp] theorem State.storeWord_matchBlocked (w : Nat) (v : Word) :
    (s.storeWord w v).matchBlocked = s.matchBlocked := rfl
@[simp] theorem State.storeWord_pending (w : Nat) (v : Word) :
    (s.storeWord w v).pending = s.pending := rfl
@[simp] theorem State.storeWord_inhibit (w : Nat) (v : Word) :
    (s.storeWord w v).inhibit = s.inhibit := rfl
@[simp] theorem State.storeWord_sleeping (w : Nat) (v : Word) :
    (s.storeWord w v).sleeping = s.sleeping := rfl
@[simp] theorem State.storeWord_cycles (w : Nat) (v : Word) :
    (s.storeWord w v).cycles = s.cycles := rfl
@[simp] theorem State.storeWord_draws (w : Nat) (v : Word) :
    (s.storeWord w v).draws = s.draws := rfl
@[simp] theorem State.storeWord_agenda (w : Nat) (v : Word) :
    (s.storeWord w v).agenda = s.agenda := rfl

end Sys2Proof.Machine
end

