-- ==== Sys2Proof/Laws/Ops.lean ====
section
/-! SUPPORT. For each shared operation, what it can do: the premises under which it has a result
(`_ok`) and what a result is (`_ok_iff`, `_inv`, `_frame`). -/

namespace Sys2Proof.Machine

/-! ### Sequencing -/

theorem Res.bind_ok_iff {α β : Type} {x : Res α} {f : α → Res β} {b : β} :
    (x >>= f) = .ok b ↔ ∃ a, x = .ok a ∧ f a = .ok b := by
  cases x <;> simp [bind, Except.bind]

/- The next two are proved by `(rfl)`, in parentheses: `simp` then rewrites with them by a proof and
leaves the kernel no definitional equality of two whole operations to find. -/

@[simp] theorem Res.ok_bind {α β : Type} (a : α) (f : α → Res β) :
    ((Except.ok a : Res α) >>= f) = f a := (rfl)

@[simp] theorem Res.error_bind {α β : Type} (e : Refusal) (f : α → Res β) :
    ((Except.error e : Res α) >>= f) = .error e := (rfl)

@[simp] theorem finish_ok (s : State) : finish (.ok s) = .next s := rfl

@[simp] theorem finish_error (r : Refusal) : finish (.error r) = .refused r := rfl

theorem finish_next_iff {x : Res State} {t : State} : finish x = .next t ↔ x = .ok t := by
  cases x <;> simp [finish]

/-! ### Registers -/

theorem State.reg_setReg_same (s : State) (r : Reg) (v : Byte) : (s.setReg r v).reg r = v := by
  simp [State.reg]

theorem State.reg_setReg_other (s : State) {r q : Reg} (v : Byte) (h : q ≠ r) :
    (s.setReg r v).reg q = s.reg q := by
  have : (r : Nat) ≠ q := fun e => h (Fin.ext e.symm)
  simp [State.reg, this]

/-- The next register of a pair is another one. -/
theorem Reg.succ_ne (r : Reg) : r + 1 ≠ r := by revert r; decide

theorem bytePair_bytes (v : Word) : bytePair (highByte v) (lowByte v) = v := by
  apply BitVec.eq_of_getLsbD_eq
  intro i hi
  simp only [bytePair, lowByte, highByte, BitVec.getLsbD_append, BitVec.getLsbD_extractLsb']
  split
  · simp [*]
  · rw [show 8 + (i - 8) = i by omega]; simp; omega

theorem State.pair_setPair (s : State) (lo : Reg) (v : Word) : (s.setPair lo v).pair lo = v := by
  rw [State.pair, State.setPair, State.reg_setReg_same,
    State.reg_setReg_other _ _ (Reg.succ_ne lo).symm, State.reg_setReg_same, bytePair_bytes]

@[simp] theorem lowByte_bytePair (hi lo : Byte) : lowByte (bytePair hi lo) = lo := by
  apply BitVec.eq_of_getLsbD_eq
  intro i h
  simp only [bytePair, lowByte, BitVec.getLsbD_append, BitVec.getLsbD_extractLsb']
  simp [h]

@[simp] theorem highByte_bytePair (hi lo : Byte) : highByte (bytePair hi lo) = hi := by
  apply BitVec.eq_of_getLsbD_eq
  intro i h
  simp only [bytePair, highByte, BitVec.getLsbD_append, BitVec.getLsbD_extractLsb']
  simp [h]

/-! ### The program counter -/

theorem goto_ok {t : Int} (s : State) (c : Nat) (h0 : 0 ≤ t) (h1 : t < 16384) :
    goto t c s = .ok { s with pc := BitVec.ofInt 14 t, cycles := s.cycles + c } := by
  simp [goto, h0, h1]

theorem goto_out {t : Int} (s : State) (c : Nat) (h : t < 0 ∨ 16384 ≤ t) :
    goto t c s = .error (.pcOutOfRange t) := by
  simp only [goto, Nat.cast_ofNat]
  rw [if_neg (by omega)]

theorem goto_ok_iff {t : Int} {c : Nat} {s u : State} :
    goto t c s = .ok u ↔ 0 ≤ t ∧ t < 16384 ∧
      u = { s with pc := BitVec.ofInt 14 t, cycles := s.cycles + c } := by
  by_cases h : 0 ≤ t ∧ t < 16384
  · rw [goto_ok s c h.1 h.2]; simp [h, eq_comm]
  · rw [goto_out s c (by omega)]; simp; omega

theorem advance_ok {s : State} {n : Nat} (c : Nat) (h : s.hasNext n) :
    advance n c s = .ok { s with pc := s.pc + BitVec.ofNat 14 n, cycles := s.cycles + c } := by
  rw [advance, goto_ok s c (by omega) (by simp only [State.pcNat]; omega)]
  congr 2
  apply BitVec.eq_of_toNat_eq
  simp [State.pcNat, BitVec.toNat_ofInt, BitVec.toNat_add]
  omega

theorem advance_out {s : State} {n : Nat} (c : Nat) (h : ¬ s.hasNext n) :
    advance n c s = .error (.pcOutOfRange (s.pc.toNat + n : Nat)) := by
  rw [advance, goto_out s c (by simp only [State.pcNat]; omega)]; rfl

theorem advance_ok_iff {s u : State} {n c : Nat} :
    advance n c s = .ok u ↔ s.hasNext n ∧
      u = { s with pc := s.pc + BitVec.ofNat 14 n, cycles := s.cycles + c } := by
  by_cases h : s.hasNext n
  · rw [advance_ok c h]; simp [h, eq_comm]
  · rw [advance_out c h]; simp; omega

/-! ### Program memory -/

theorem progWord_ok {w : Nat} {s : State} {hi lo : Byte} (h : w < 16384)
    (h0 : s.flash.read (2 * w) = some lo) (h1 : s.flash.read (2 * w + 1) = some hi) :
    progWord w s = .ok (bytePair hi lo) := by
  simp [progWord, h, h0, h1]

theorem progWord_ok_iff {w : Nat} {s : State} {v : Word} :
    progWord w s = .ok v ↔ w < 16384 ∧ ∃ lo hi, s.flash.read (2 * w) = some lo ∧
      s.flash.read (2 * w + 1) = some hi ∧ v = bytePair hi lo := by
  by_cases h : w < 16384
  · cases h0 : s.flash.read (2 * w) <;> cases h1 : s.flash.read (2 * w + 1) <;>
      simp [progWord, h, h0, h1, eq_comm]
  · simp [progWord, h]

/-- Program memory is all that `ProgWord` reads. -/
theorem progWord_congr {s t : State} (w : Nat) (h : t.flash = s.flash) :
    progWord w t = progWord w s := by
  simp [progWord, h]

/-! ### The data space -/

/-- Below SRAM the map is a table of 256 places. -/
theorem place_low : ∀ a : Fin 256, (described a = true ∧ place a ≠ .undescribed ∧ place a ≠ .sram ∧
    place a ≠ .nothing) ∨ (described a = false ∧ place a = .undescribed) := by
  decide +kernel

theorem place_sram {a : Nat} (h : isSram a = true) : place a = .sram := by
  simp only [isSram, Bool.and_eq_true, decide_eq_true_eq] at h
  rw [place, dif_neg (by omega), if_neg (by simp only [Config.ramStart]; omega),
    if_pos (by simp only [Config.ramEnd]; omega)]

theorem place_nothing {a : Nat} (h : 0x8FF < a) : place a = .nothing := by
  rw [place, dif_neg (by omega), if_neg (by simp only [Config.ramStart]; omega),
    if_neg (by simp only [Config.ramEnd]; omega)]

/-- Whether and why an address is not described. -/
theorem place_cases (a : Nat) :
    (described a = true ∧ place a ≠ .undescribed ∧ place a ≠ .nothing) ∨
    (described a = false ∧ a < 0x100 ∧ place a = .undescribed) ∨
    (described a = false ∧ 0x8FF < a ∧ place a = .nothing) := by
  by_cases h : a < 256
  · rcases place_low ⟨a, h⟩ with ⟨h1, h2, _, h3⟩ | ⟨h1, h2⟩
    · exact .inl ⟨h1, h2, h3⟩
    · exact .inr (.inl ⟨h1, h, h2⟩)
  · by_cases h2 : a ≤ 0x8FF
    · have hs : isSram a = true := by simp [isSram]; omega
      left
      rw [place_sram hs]
      simp only [isSram] at hs
      simp [described, hs]
    · refine .inr (.inr ⟨?_, by omega, place_nothing (by omega)⟩)
      simp [described]; omega

theorem isSram_of_place {a : Nat} (h : place a = .sram) : isSram a = true := by
  by_cases h1 : a < 256
  · rcases place_low ⟨a, h1⟩ with ⟨_, _, h2, _⟩ | ⟨_, h2⟩ <;> simp_all
  · by_cases h2 : a ≤ 0x8FF
    · simp [isSram]; omega
    · rw [place_nothing (by omega)] at h; cases h

/-- The address of a described byte below SRAM. -/
def Place.address : Place → Nat
  | .register r => r.val
  | .tifr1 => 0x36
  | .spl => 0x5D
  | .sph => 0x5E
  | .sreg => 0x5F
  | .timsk1 => 0x6F
  | .tccr1b => 0x81
  | .tcnt1l => 0x84
  | .tcnt1h => 0x85
  | .ocr1al => 0x88
  | .ocr1ah => 0x89
  | _ => 0

/-- A described place below SRAM is the place of one address only. -/
theorem place_address_low : ∀ a : Fin 256, described a = true → (place a).address = a := by
  decide +kernel

theorem place_address {a : Nat} (h : place a ≠ .undescribed) (h1 : place a ≠ .sram)
    (h2 : place a ≠ .nothing) : a = (place a).address := by
  by_cases ha : a < 256
  · rcases place_low ⟨a, ha⟩ with ⟨hd, _⟩ | ⟨_, hu⟩
    · exact (place_address_low ⟨a, ha⟩ hd).symm
    · exact absurd hu h
  · by_cases hs : a ≤ 0x8FF
    · exact absurd (place_sram (by simp [isSram]; omega)) h1
    · exact absurd (place_nothing (by omega)) h2

theorem place_register (r : Reg) : place r.val = .register r := by
  simp [place]

theorem register_of_place {a : Nat} {r : Reg} (h : place a = .register r) : a = r.val := by
  rw [place_address (a := a) (by simp [h]) (by simp [h]) (by simp [h]), h, Place.address]

theorem tccr1b_of_place {a : Nat} (h : place a = .tccr1b) : a = 0x81 := by
  rw [place_address (a := a) (by simp [h]) (by simp [h]) (by simp [h]), h, Place.address]

theorem sreg_of_place {a : Nat} (h : place a = .sreg) : a = 0x5F := by
  rw [place_address (a := a) (by simp [h]) (by simp [h]) (by simp [h]), h, Place.address]

theorem spl_of_place {a : Nat} (h : place a = .spl) : a = 0x5D := by
  rw [place_address (a := a) (by simp [h]) (by simp [h]) (by simp [h]), h, Place.address]

theorem sph_of_place {a : Nat} (h : place a = .sph) : a = 0x5E := by
  rw [place_address (a := a) (by simp [h]) (by simp [h]) (by simp [h]), h, Place.address]

theorem tcnt1l_of_place {a : Nat} (h : place a = .tcnt1l) : a = 0x84 := by
  rw [place_address (a := a) (by simp [h]) (by simp [h]) (by simp [h]), h, Place.address]

/-- A described address reads. -/
theorem memRead_ok {a : Nat} (s : State) (h : described a = true) :
    ∃ v t, memRead a s = .ok (v, t) := by
  rcases place_cases a with ⟨_, h1, h2⟩ | ⟨h1, _⟩ | ⟨h1, _⟩
  · cases hp : place a <;> simp_all [memRead]
    split <;> simp
  · simp [h] at h1
  · simp [h] at h1

/-- An address that is not described stops the access (R73, R74). -/
theorem memRead_stop {a : Nat} (s : State) (h : described a = false) :
    memRead a s = .error (if a < 0x100 then .undescribedIO a else .beyondRamend a) := by
  rcases place_cases a with ⟨h1, _⟩ | ⟨_, h1, h2⟩ | ⟨_, h1, h2⟩
  · simp [h] at h1
  · simp [memRead, h1, h2]
  · simp [memRead, h2, show ¬ a < 0x100 by omega]

/-- A read changes nothing but TEMP1 and the count of free values. -/
theorem memRead_frame {a : Nat} {s t : State} {v : Byte} (h : memRead a s = .ok (v, t)) :
    ∃ x y, t = { s with temp1 := x, draws := y } := by
  simp only [memRead] at h
  split at h <;> (try split at h) <;> simp only [Except.ok.injEq, Prod.mk.injEq, reduceCtorEq] at h <;>
    obtain ⟨_, rfl⟩ := h <;> exact ⟨_, _, rfl⟩

/-- A store of a storable byte has a result. -/
theorem memWrite_ok {a : Nat} {v : Byte} (s : State) (h : storable a v = true) :
    ∃ t, memWrite a v s = .ok t := by
  simp only [storable, Bool.and_eq_true, Bool.not_eq_true', Bool.and_eq_false_iff, beq_eq_false_iff_ne] at h
  rcases place_cases a with ⟨_, h1, h2⟩ | ⟨h1, _⟩ | ⟨h1, _⟩
  · cases hp : place a <;> simp_all [memWrite]
    have := tccr1b_of_place hp
    simp_all
  · simp [h.1] at h1
  · simp [h.1] at h1

/-- A store stops exactly where the byte is not storable. -/
theorem memWrite_stop {a : Nat} {v : Byte} (s : State) (h : storable a v = false) :
    memWrite a v s =
      .error (if a < 0x100 then .undescribedIO a else .beyondRamend a) := by
  rcases place_cases a with ⟨h1, _⟩ | ⟨_, h1, h2⟩ | ⟨_, h1, h2⟩
  · simp only [storable, h1, Bool.true_and, Bool.not_eq_false', Bool.and_eq_true, beq_iff_eq] at h
    obtain ⟨rfl, hv⟩ := h
    have hp : place 0x81 = .tccr1b := by decide +kernel
    simp [memWrite, hp, hv]
  · simp [memWrite, h1, h2]
  · simp [memWrite, h2, show ¬ a < 0x100 by omega]

theorem memWrite_sram {a : Nat} (v : Byte) (s : State) (h : isSram a = true) :
    memWrite a v s = .ok { s with sram := s.sram.write a v } := by
  simp [memWrite, place_sram h]

/-- What a store leaves alone: program memory, the program counter, the cycle count, the pending
requests, `sleeping` and the agenda. -/
theorem memWrite_frame {a : Nat} {v : Byte} {s t : State} (h : memWrite a v s = .ok t) :
    t.flash = s.flash ∧ t.pc = s.pc ∧ t.cycles = s.cycles ∧ t.pending = s.pending ∧
      t.sleeping = s.sleeping ∧ t.agenda = s.agenda := by
  simp only [memWrite] at h
  split at h <;> (try split at h) <;> simp only [Except.ok.injEq, reduceCtorEq] at h <;> subst h <;>
    simp [writeSreg]
  split <;> simp

/-- SRAM after a store: the byte written, if the address is in SRAM. -/
theorem memWrite_sram_inv {a : Nat} {v : Byte} {s t : State} (h : memWrite a v s = .ok t) :
    t.sram = if isSram a then s.sram.write a v else s.sram := by
  by_cases hp : isSram a = true
  · rw [memWrite_sram v s hp] at h; cases h; simp [hp]
  · have hn : place a ≠ .sram := fun e => hp (isSram_of_place e)
    simp only [hp, if_false, Bool.false_eq_true]
    simp only [memWrite] at h
    split at h <;> (try split at h) <;> simp only [Except.ok.injEq, reduceCtorEq] at h <;>
      (try subst h) <;> simp_all [writeSreg]
    split <;> simp

/-- A store to SRAM or above changes nothing but SRAM. -/
theorem memWrite_high {a : Nat} {v : Byte} {s t : State} (ha : 0x100 ≤ a)
    (h : memWrite a v s = .ok t) : t = { s with sram := s.sram.write a v } := by
  by_cases hs : a ≤ 0x8FF
  · rw [memWrite_sram v s (by simp [isSram]; omega)] at h; cases h; rfl
  · simp [memWrite, place_nothing (show 0x8FF < a by omega)] at h

/-- The general registers after a store: register `a` if the address is below 0x20. -/
theorem memWrite_reg {a : Nat} {v : Byte} {s t : State} (h : memWrite a v s = .ok t) (r : Reg) :
    t.reg r = if r.val = a then v else s.reg r := by
  by_cases hr : r.val = a
  · subst hr
    simp only [memWrite, place_register, Except.ok.injEq] at h
    subst h; simp [State.reg_setReg_same]
  · simp only [hr, if_false]
    simp only [memWrite] at h
    split at h <;> (try split at h) <;> simp only [Except.ok.injEq, reduceCtorEq] at h <;> subst h
    case h_1 q hq => exact State.reg_setReg_other _ _ fun e => hr (by rw [e, register_of_place hq])
    all_goals simp [State.reg, writeSreg]
    split <;> rfl

/-- The status register changes only by a store to 0x5F. -/
theorem memWrite_sreg {a : Nat} {v : Byte} {s t : State} (h : memWrite a v s = .ok t)
    (ha : a ≠ 0x5F) : t.sreg = s.sreg := by
  simp only [memWrite] at h
  split at h <;> (try split at h) <;> simp only [Except.ok.injEq, reduceCtorEq] at h <;> subst h <;>
    try rfl
  rename_i hq; exact absurd (sreg_of_place hq) ha

/-- `writeSreg` changes the flags, `inhibit` and the count of free values. -/
theorem writeSreg_eq (v : Byte) (s : State) :
    ∃ b d, writeSreg v s = { s with sreg := .ofByte v, inhibit := b, draws := d } := by
  simp only [writeSreg]
  split
  · exact ⟨_, _, rfl⟩
  · exact ⟨s.inhibit, s.draws, rfl⟩

/-! ### The invariant -/

/-- The fields the invariant speaks of. -/
theorem State.Inv.congr {s t : State} (h : s.Inv) (h1 : t.sram = s.sram) (h2 : t.flash = s.flash)
    (h3 : t.tccr1b = s.tccr1b) (h4 : t.timsk1 = s.timsk1) (h5 : t.pending = s.pending) : t.Inv :=
  ⟨h1 ▸ h.1, h1 ▸ h.2, h2 ▸ h.3, h2 ▸ h.4, h3 ▸ h.5, h4 ▸ h.6, h5 ▸ h.7⟩

theorem memRead_keeps_inv {a : Nat} {v : Byte} {s t : State} (h : memRead a s = .ok (v, t))
    (hi : s.Inv) : t.Inv := by
  obtain ⟨x, y, rfl⟩ := memRead_frame h
  exact hi.congr rfl rfl rfl rfl rfl

theorem memWrite_keeps_inv {a : Nat} {v : Byte} {s t : State} (h : memWrite a v s = .ok t)
    (hi : s.Inv) : t.Inv := by
  simp only [memWrite] at h
  split at h <;> (try split at h) <;> simp only [Except.ok.injEq, reduceCtorEq] at h <;> subst h
  case h_5 => obtain ⟨b, d, e⟩ := writeSreg_eq v s; rw [e]; exact hi.congr rfl rfl rfl rfl rfl
  case h_6 =>
    have masked : ∀ v : Byte, v &&& 0x27 &&& 0xD8 = 0 := by decide
    exact ⟨hi.1, hi.2, hi.3, hi.4, hi.5, masked v, hi.7⟩
  case h_7.isFalse hv =>
    have masked : ∀ v : Byte, ¬v[4] = true → v &&& 0xDF &&& 0x30 = 0 := by decide
    exact ⟨hi.1, hi.2, hi.3, hi.4, masked v hv, hi.6, hi.7⟩
  case h_12 hp =>
    have := isSram_of_place hp
    simp only [isSram, Bool.and_eq_true, decide_eq_true_eq] at this
    exact ⟨Memory.wf_write _ _ hi.1, Memory.within_write _ hi.2 this.1 this.2, hi.3, hi.4, hi.5,
      hi.6, hi.7⟩
  all_goals exact hi.congr rfl rfl rfl rfl rfl

end Sys2Proof.Machine
end

