-- ==== Sys2Proof/Laws/Control.lean ====
section
/-! SUPPORT. For the operations of the stack, of bits in I/O, of skips and branches, of interrupts, of
the timer and of a step: what each can do. -/

namespace Sys2Proof.Machine

/-! ### Loads and stores of a register -/

theorem load_ok_iff {d : Reg} {a : Nat} {s t : State} :
    load d a s = .ok t ↔ ∃ v u, memRead a s = .ok (v, u) ∧ t = u.setReg d v := by
  simp only [load, Res.bind_ok_iff, Prod.exists, Except.ok.injEq]
  simp only [eq_comm]

/-- A load from a described address. -/
theorem load_ok {d : Reg} {a : Nat} (s : State) (h : described a = true) :
    ∃ v x y, memRead a s = .ok (v, { s with temp1 := x, draws := y }) ∧
      load d a s = .ok ({ s with temp1 := x, draws := y }.setReg d v) := by
  obtain ⟨v, t, ht⟩ := memRead_ok s h
  obtain ⟨x, y, rfl⟩ := memRead_frame ht
  exact ⟨v, x, y, ht, load_ok_iff.mpr ⟨v, _, ht, rfl⟩⟩

theorem load_stop {d : Reg} {a : Nat} (s : State) (h : described a = false) :
    load d a s = .error (if a < 0x100 then .undescribedIO a else .beyondRamend a) := by
  simp only [load, memRead_stop s h, Res.error_bind]

/-- A write of a register and a read of another address do not disturb each other. -/
theorem memRead_setReg {a : Nat} {s t : State} {r : Reg} {w v : Byte} (h : a ≠ r.val)
    (ht : memRead a s = .ok (v, t)) : memRead a (s.setReg r w) = .ok (v, t.setReg r w) := by
  simp only [memRead] at ht ⊢
  cases hp : place a <;> simp only [hp] at ht ⊢
  case register q =>
    simp only [Except.ok.injEq, Prod.mk.injEq] at ht ⊢
    obtain ⟨rfl, rfl⟩ := ht
    exact ⟨State.reg_setReg_other _ _ fun e => h (by rw [register_of_place hp, e]), rfl⟩
  case sram =>
    simp only [State.setReg_sram]
    split at ht <;> simp_all only [Except.ok.injEq, Prod.mk.injEq, State.nextByte,
      State.setReg_draws, true_and]
    all_goals obtain ⟨_, rfl⟩ := ht; simp [State.setReg, State.drew]
  case undescribed => cases ht
  case nothing => cases ht
  all_goals
    simp only [Except.ok.injEq, Prod.mk.injEq] at ht ⊢
    obtain ⟨rfl, rfl⟩ := ht
    exact ⟨rfl, rfl⟩

/-! ### Program memory -/

theorem progByte_ok {z : Word} {s : State} {w : Word} (h : z.toNat < 0x8000)
    (hw : progWord (z.toNat / 2) s = .ok w) :
    progByte z s = .ok (if z[0] then highByte w else lowByte w) := by
  simp [progByte, h, hw, Except.map]

theorem progByte_out {z : Word} {s : State} (h : 0x8000 ≤ z.toNat) :
    progByte z s = .error (.progAddressOutOfRange z.toNat) := by
  simp [progByte, show ¬ z.toNat < 0x8000 by omega]

/-! ### I/O -/

theorem ioRead_eq (a : Nat) (s : State) : ioRead a s = memRead (a + 0x20) s := rfl

theorem ioWrite_eq (a : Nat) (v : Byte) (s : State) : ioWrite a v s = memWrite (a + 0x20) v s := rfl

/-- Of the I/O addresses a bit instruction reaches, only TIFR1 is described. -/
theorem described_bit_io : ∀ a : BitVec 5, described (a.toNat + 0x20) = decide (a = 0x16) := by
  decide

/-- Of the I/O addresses `IN` and `OUT` reach, four are described. -/
theorem described_io : ∀ a : BitVec 6,
    described (a.toNat + 0x20) = decide (a ∈ [0x16#6, 0x3D, 0x3E, 0x3F]) := by
  decide

/-- Writing a bit of TIFR1: a 1 clears the flag it addresses, a 0 nothing (R67). -/
theorem ioBitWrite_tifr1 (b : BitNo) (v : Bool) (s : State) :
    ioBitWrite 0x16 b v s = .ok { s with
      ocf1a := s.ocf1a && !(v && b == 1), tov1 := s.tov1 && !(v && b == 0) } := by
  have hp : place (0x16 + Config.ioOffset) = .tifr1 := by decide +kernel
  have h : ∀ (b : BitNo) (v : Bool), (if v then bitMask b else 0)[1] = (v && b == 1) ∧
      (if v then bitMask b else 0)[0] = (v && b == 0) := by decide
  simp only [ioBitWrite, ioWrite, memWrite, hp, if_true, (h b v).1, (h b v).2]

/-- A bit write to an undescribed register stops (R73). -/
theorem ioBitWrite_stop {a : Nat} (b : BitNo) (v : Bool) (s : State) (ha : a < 0x20)
    (h : a ≠ 0x16) : ioBitWrite a b v s = .error (.undescribedIO (a + 0x20)) := by
  have hd : described (a + 0x20) = false := by
    have := described_bit_io (BitVec.ofNat 5 a)
    rw [BitVec.toNat_ofNat, Nat.mod_eq_of_lt (by omega)] at this
    rw [this, decide_eq_false_iff_not]
    intro e
    have := congrArg BitVec.toNat e
    rw [BitVec.toNat_ofNat, Nat.mod_eq_of_lt (by omega)] at this
    exact h (by simpa using this)
  simp only [ioBitWrite, h, if_false, ioRead_eq, memRead_stop s hd, Res.error_bind,
    show a + 0x20 < 0x100 by omega, if_true]

/-! ### The stack -/

theorem push_ok_iff {v : Byte} {s t : State} :
    push v s = .ok t ↔ ∃ u, memWrite s.sp.toNat v s = .ok u ∧ t = { u with sp := u.sp - 1 } := by
  simp only [push, Res.bind_ok_iff, Except.ok.injEq]
  simp only [eq_comm]

theorem push_sram {v : Byte} {s : State} (h : isSram s.sp.toNat = true) :
    push v s = .ok { s with sram := s.sram.write s.sp.toNat v, sp := s.sp - 1 } := by
  simp only [push, memWrite_sram v s h, Res.ok_bind]

/-- A pushed return address is its low byte, then its high byte. -/
theorem pushPC_eq (v : Word) (s : State) :
    pushPC v s = (push (lowByte v) s >>= fun t => push (highByte v) t) := by
  have h : lowByte (v >>> 8) = highByte v := by
    apply BitVec.eq_of_getLsbD_eq
    intro i hi
    simp [lowByte, highByte, hi]
  have e : ∀ x : Res State, (x >>= fun t => (.ok t : Res State)) = x := fun x => by cases x <;> simp
  simp only [pushPC, pushBytes, h, e]

/-- A popped return address is its high byte, then its low byte. -/
theorem popPC_eq (s : State) :
    popPC s = (pop s >>= fun p => pop p.2 >>= fun q => .ok (bytePair p.1 q.1, q.2)) := by
  simp only [popPC, popBytes, lowByte_bytePair]

theorem pushPC_sram {v : Word} {s : State} (h : isSram s.sp.toNat = true)
    (h1 : isSram (s.sp - 1).toNat = true) :
    pushPC v s = .ok { s with
      sram := (s.sram.write s.sp.toNat (lowByte v)).write (s.sp - 1).toNat (highByte v)
      sp := s.sp - 2 } := by
  simp only [pushPC_eq, push_sram h, Res.ok_bind]
  rw [push_sram (by exact h1)]
  simp only [BitVec.sub_sub]
  rfl

theorem memRead_sram {a : Nat} {v : Byte} {s : State} (h : isSram a = true)
    (hv : s.sram.read a = some v) : memRead a s = .ok (v, s) := by
  simp only [memRead, place_sram h, hv]

theorem popPC_sram {hi lo : Byte} {s : State} (h1 : isSram (s.sp + 1).toNat = true)
    (h2 : isSram (s.sp + 2).toNat = true) (hh : s.sram.read (s.sp + 1).toNat = some hi)
    (hl : s.sram.read (s.sp + 2).toNat = some lo) :
    popPC s = .ok (bytePair hi lo, { s with sp := s.sp + 2 }) := by
  have e : s.sp + 1 + 1 = s.sp + 2 := by rw [BitVec.add_assoc]; rfl
  simp only [popPC_eq, pop]
  rw [memRead_sram h1 (by exact hh)]
  simp only [Res.ok_bind, e]
  rw [memRead_sram h2 (by exact hl)]
  simp only [Res.ok_bind]

/-- What a pop leaves alone. -/
theorem pop_frame {s t : State} {v : Byte} (h : pop s = .ok (v, t)) :
    ∃ x y, t = { s with sp := s.sp + 1, temp1 := x, draws := y } := by
  obtain ⟨x, y, rfl⟩ := memRead_frame h
  exact ⟨x, y, rfl⟩

/-- What a pop of a return address leaves alone. -/
theorem popPC_frame {s t : State} {v : Word} (h : popPC s = .ok (v, t)) :
    ∃ x y, t = { s with sp := s.sp + 2, temp1 := x, draws := y } := by
  simp only [popPC_eq, Res.bind_ok_iff, Prod.exists, Except.ok.injEq, Prod.mk.injEq] at h
  obtain ⟨hi, u, h1, lo, w, h2, _, rfl⟩ := h
  obtain ⟨x, y, rfl⟩ := pop_frame h1
  obtain ⟨x', y', rfl⟩ := pop_frame h2
  exact ⟨x', y', by simp only [BitVec.add_assoc]; rfl⟩

/-! ### Branches and skips -/

theorem branchIf_taken (k : BitVec 7) (s : State) :
    branchIf true k s = goto ((s.pc.toNat : Int) + 1 + k.toInt) 2 s := by
  simp only [branchIf, if_true, relTarget, State.pcNat]

theorem branchIf_not (k : BitVec 7) (s : State) : branchIf false k s = advance 1 1 s := by
  simp only [branchIf, Bool.false_eq_true, if_false]

theorem skipIf_not (s : State) : skipIf false s = advance 1 1 s := by
  simp only [skipIf, Bool.false_eq_true, if_false]

theorem skipIf_one {s : State} {w : Word} (h : progWord (s.pc.toNat + 1) s = .ok w)
    (hw : isTwoWord w = false) : skipIf true s = advance 2 2 s := by
  simp only [skipIf, skipNext, State.pcNat, h, Res.ok_bind, hw, if_true, if_false,
    Bool.false_eq_true]

theorem skipIf_two {s : State} {w : Word} (h : progWord (s.pc.toNat + 1) s = .ok w)
    (hw : isTwoWord w = true) : skipIf true s = advance 3 3 s := by
  simp only [skipIf, skipNext, State.pcNat, h, Res.ok_bind, hw, if_true]

/-- A skip or a branch changes `pc` and the cycle count only. -/
theorem skipIf_frame {c : Bool} {s t : State} (h : skipIf c s = .ok t) :
    ∃ p n, t = { s with pc := p, cycles := n } := by
  simp only [skipIf, skipNext] at h
  split at h
  · obtain ⟨w, -, h⟩ := Res.bind_ok_iff.mp h
    split at h <;> exact ⟨_, _, (advance_ok_iff.mp h).2⟩
  · exact ⟨_, _, (advance_ok_iff.mp h).2⟩

theorem branchIf_frame {c : Bool} {k : BitVec 7} {s t : State} (h : branchIf c k s = .ok t) :
    ∃ p n, t = { s with pc := p, cycles := n } := by
  simp only [branchIf] at h
  split at h
  · exact ⟨_, _, (goto_ok_iff.mp h).2.2⟩
  · exact ⟨_, _, (advance_ok_iff.mp h).2⟩

/-! ### Interrupts -/

theorem interruptEntry_ok_iff {n : Nat} {s t : State} :
    interruptEntry n s = .ok t ↔ vectorAddress n < 16384 ∧
      ∃ u, pushPC (s.pc.setWidth 16) s = .ok u ∧ t = { u with
        sreg := { u.sreg with i := false }, ocf1a := u.ocf1a && n != 12
        tov1 := u.tov1 && n != 14, sleeping := false, inhibit := false
        pc := BitVec.ofInt 14 (vectorAddress n), cycles := u.cycles + 4 } := by
  simp only [interruptEntry, Res.bind_ok_iff, goto_ok_iff]
  constructor
  · rintro ⟨u, hu, -, h, rfl⟩; exact ⟨by omega, u, hu, rfl⟩
  · rintro ⟨h, u, hu, rfl⟩; exact ⟨u, hu, by omega, by omega, rfl⟩

theorem interruptReturn_ok_iff {s t : State} :
    interruptReturn s = .ok t ↔ ∃ v u, popPC s = .ok (v, u) ∧ v.toNat < 16384 ∧ t = { u with
      sreg := { u.sreg with i := true }, inhibit := true
      pc := BitVec.ofInt 14 v.toNat, cycles := u.cycles + 4 } := by
  simp only [interruptReturn, Res.bind_ok_iff, Prod.exists, goto_ok_iff]
  constructor
  · rintro ⟨v, u, hu, -, h, rfl⟩; exact ⟨v, u, hu, by omega, rfl⟩
  · rintro ⟨v, u, hu, h, rfl⟩; exact ⟨v, u, hu, by omega, by omega, rfl⟩

theorem takenVector_iff {s : State} {n : Nat} :
    takenVector s = some n ↔ pendingVector s = some n ∧ s.sreg.i = true ∧ s.inhibit = false := by
  simp only [takenVector]
  cases h : pendingVector s <;> cases h1 : s.sreg.i <;> cases h2 : s.inhibit <;> simp

theorem takenVector_of_inhibit {s : State} (h : s.inhibit = true) : takenVector s = none := by
  simp only [takenVector, h]; split <;> simp

theorem takenVector_of_disabled {s : State} (h : s.sreg.i = false) : takenVector s = none := by
  simp only [takenVector, h]; split <;> simp

/-! ### A step -/

theorem fetch_ok {s : State} {w w2 : Word} {i : Instr} (h : progWord s.pcNat s = .ok w)
    (h2 : isTwoWord w = true → progWord (s.pcNat + 1) s = .ok w2) (hd : decode w w2 = .ok i)
    (h1 : isTwoWord w = false → decode w 0 = .ok i) : fetch s = .ok i := by
  simp only [fetch, h, Res.ok_bind]
  cases ht : isTwoWord w
  · simp only [if_false, Bool.false_eq_true, h1 ht]
  · simp only [if_true, h2 ht, Res.ok_bind, hd]

/-- Everything the core's move can do when it does not stop. -/
theorem coreStep_cases {s t : State} (h : coreStep s = .next t) :
    (∃ n, takenVector s = some n ∧ interruptEntry n (afterBoundary s) = .ok t) ∨
    (takenVector s = none ∧ s.sleeping = true ∧ t = afterBoundary s) ∨
    (takenVector s = none ∧ s.sleeping = false ∧ ∃ i, fetch (afterBoundary s) = .ok i ∧
      exec i { afterBoundary s with inhibit := false } = .next t) := by
  simp only [coreStep] at h
  cases hv : takenVector s with
  | some n => exact .inl ⟨n, rfl, finish_next_iff.mp (by simpa [hv] using h)⟩
  | none =>
    simp only [hv] at h
    cases hs : s.sleeping with
    | true => simp only [hs, if_true, Host.Outcome.next.injEq] at h; exact .inr (.inl ⟨rfl, rfl, h.symm⟩)
    | false =>
      simp only [hs, if_false, Bool.false_eq_true, runInstruction] at h
      cases hf : fetch (afterBoundary s) with
      | ok i => exact .inr (.inr ⟨rfl, rfl, i, rfl, by simpa [hf] using h⟩)
      | error e => simp [hf] at h

/-- `afterBoundary` moves only the count of free values. -/
theorem afterBoundary_eq (s : State) : ∃ d, afterBoundary s = { s with draws := d } := by
  simp only [afterBoundary]; split
  · exact ⟨_, rfl⟩
  · exact ⟨s.draws, rfl⟩

/-- A count of the timer writes these fields only. -/
theorem tick_eq (s : State) : ∃ c f v, tick s = { s with
    tcnt1 := c, ocf1a := f, tov1 := v, matchBlocked := false, draws := s.draws + 2 } :=
  ⟨_, _, _, rfl⟩

/-- Everything a step can do when it does not stop: the core's move, a count of the timer, a clock edge
that does not count, or a reset. -/
theorem step_cases {s t : State} (h : step s = .next t) :
    ∃ a d, (∃ u, u = { s with agenda := a, draws := d } ∧
      (coreStep u = .next t ∨ t = tick u ∨ t = u)) ∨
      ∃ c, s.agenda = .reset c :: a ∧ t = resetEvent c { s with agenda := a } := by
  simp only [step] at h
  split at h
  · rename_i ha
    simp only [openMove] at h
    split at h
    · exact ⟨s.agenda, s.draws, .inl ⟨s, rfl, .inl h⟩⟩
    · split at h
      · cases h; exact ⟨s.agenda, s.draws + 1, .inl ⟨_, rfl, .inr (.inl rfl)⟩⟩
      · exact ⟨s.agenda, s.draws + 1, .inl ⟨_, rfl, .inl h⟩⟩
  · rename_i m rest ha
    refine ⟨rest, s.draws, ?_⟩
    simp only [performMove] at h
    split at h
    · exact .inl ⟨_, rfl, .inl h⟩
    · cases h; refine .inl ⟨_, rfl, .inr ?_⟩; split
      · exact .inl rfl
      · exact .inr rfl
    · cases h; refine .inl ⟨_, rfl, .inr ?_⟩; split
      · exact .inl rfl
      · exact .inr rfl
    · cases h; refine .inl ⟨_, rfl, .inr ?_⟩; split
      · exact .inl rfl
      · exact .inr rfl
    · cases h; exact .inr ⟨_, ha, rfl⟩

end Sys2Proof.Machine
end

