-- ==== Sys2Proof/Laws/Decode.lean ====
section
/-! SUPPORT. Which row of the opcode table the decoder takes, without a walk through the table. -/

namespace Sys2Proof

/-- No word matches both rows. -/
def Row.disjoint (a b : Row) : Bool := (a.pattern ^^^ b.pattern) &&& a.mask &&& b.mask != 0

/-- A word that matches one of two disjoint rows does not match the other. -/
theorem Row.not_accepts {a b : Row} {w : Word} (h : a.disjoint b = true) (hb : b.accepts w = true) :
    a.accepts w = false := by
  simp only [disjoint, bne_iff_ne, ne_eq, accepts, beq_iff_eq, beq_eq_false_iff_ne] at *
  rintro ha
  apply h
  rw [← ha, ← hb]
  apply BitVec.eq_of_getLsbD_eq
  intro i _
  simp only [BitVec.getLsbD_and, BitVec.getLsbD_xor]
  cases w.getLsbD i <;> cases a.mask.getLsbD i <;> cases b.mask.getLsbD i <;> simp

/-- The row taken is one of the table that accepts the word. -/
theorem findRow_mem {w : Word} {r : Row} (h : findRow w = some r) :
    r ∈ Config.opcodeTable ∧ r.accepts w = true :=
  ⟨List.mem_of_find?_eq_some h, by simpa using List.find?_some h⟩

/-- The row at place `n` is taken where it accepts the word and no row before it does. -/
theorem findRow_eq {w : Word} {r : Row} (n : Nat) (hn : Config.opcodeTable[n]? = some r)
    (hw : r.accepts w = true) (hp : ∀ q ∈ Config.opcodeTable.take n, q.accepts w = false) :
    findRow w = some r := by
  obtain ⟨hlt, hr⟩ := List.getElem?_eq_some_iff.mp hn
  have hs : Config.opcodeTable = Config.opcodeTable.take n ++ r :: Config.opcodeTable.drop (n + 1) := by
    rw [← hr, ← List.drop_eq_getElem_cons hlt, List.take_append_drop]
  rw [findRow, hs, List.find?_append, List.find?_eq_none.mpr (by simpa using hp),
    List.find?_cons_of_pos (by exact hw)]
  rfl

/-- The row at place `n` is taken where it accepts the word and the rows before it are disjoint from it:
both can be computed. -/
theorem findRow_at {w : Word} {r : Row} (n : Nat) (hn : Config.opcodeTable[n]? = some r)
    (hd : (Config.opcodeTable.take n).all (·.disjoint r) = true) (hw : r.accepts w = true) :
    findRow w = some r :=
  findRow_eq n hn hw fun _ hq => Row.not_accepts (List.all_eq_true.mp hd _ hq) hw

theorem decode_of_row {w : Word} {r : Row} (w2 : Word) (h : findRow w = some r) :
    decode w w2 = .ok (r.instr w w2) := by
  simp only [decode, h]

/-- The rows of the table with two words. -/
theorem twoWordRows : Config.opcodeTable.filter Row.twoWords = [
    ⟨0xFE0F, 0x9000, .two fun w w2 => .lds (fieldD w) w2⟩,
    ⟨0xFE0F, 0x9200, .two fun w w2 => .sts w2 (fieldD w)⟩,
    ⟨0xFE0E, 0x940C, .two fun w w2 => .jmp (fieldAbs w w2)⟩,
    ⟨0xFE0E, 0x940E, .two fun w w2 => .call (fieldAbs w w2)⟩] := rfl

/-- The first words of LDS, STS, JMP and CALL. -/
theorem isTwoWord_eq (w : Word) : isTwoWord w =
    (w &&& 0xFE0F == 0x9000 || w &&& 0xFE0F == 0x9200 || w &&& 0xFE0E == 0x940C ||
      w &&& 0xFE0E == 0x940E) := by
  rw [Bool.eq_iff_iff]
  simp only [isTwoWord, Bool.or_eq_true]
  constructor
  · intro h
    split at h
    · rename_i r hr
      obtain ⟨hm, ha⟩ := findRow_mem hr
      have hf : r ∈ Config.opcodeTable.filter Row.twoWords := List.mem_filter.mpr ⟨hm, h⟩
      rw [twoWordRows] at hf
      fin_cases hf <;> simp [Row.accepts] at ha <;> simp [ha]
    · cases h
  · rintro (((h | h) | h) | h)
    · rw [findRow_at 28 rfl (by decide) h]; rfl
    · rw [findRow_at 39 rfl (by decide) h]; rfl
    · rw [findRow_at 81 rfl (by decide) h]; rfl
    · rw [findRow_at 82 rfl (by decide) h]; rfl

end Sys2Proof
end

