-- ==== Sys2Proof/Laws/PerInstr.lean ====
section
/-! SUPPORT. Facts about every instruction as syntax, one lemma for each constructor. -/

namespace Sys2Proof.Laws.SameWords

open Sys2Proof

/-- The spelling the decoder returns is well-formed and has the same words (spec/30_encoding.md
R119). -/
def Statement (i : Instr) : Prop :=
  i.wellFormed = true → i.canonical.wellFormed = true ∧ encode i.canonical = encode i

/-- A spelling that is the decoder's own. -/
theorem of_canonical {i : Instr} (h : i.canonical = i) : Statement i := by
  intro hw; rw [h]; exact ⟨hw, rfl⟩

theorem mov (d r : Reg) : Statement (.mov d r) := of_canonical rfl

theorem movw (d r : Reg) : Statement (.movw d r) := of_canonical rfl

theorem ldi (d : Reg) (k : Byte) : Statement (.ldi d k) := of_canonical rfl

theorem lds (d : Reg) (k : Word) : Statement (.lds d k) := of_canonical rfl

theorem ldX (d : Reg) : Statement (.ldX d) := of_canonical rfl

theorem ldXInc (d : Reg) : Statement (.ldXInc d) := of_canonical rfl

theorem ldXDec (d : Reg) : Statement (.ldXDec d) := of_canonical rfl

theorem ldY (d : Reg) : Statement (.ldY d) := of_canonical rfl

theorem ldYInc (d : Reg) : Statement (.ldYInc d) := of_canonical rfl

theorem ldYDec (d : Reg) : Statement (.ldYDec d) := of_canonical rfl

theorem ldZ (d : Reg) : Statement (.ldZ d) := of_canonical rfl

theorem ldZInc (d : Reg) : Statement (.ldZInc d) := of_canonical rfl

theorem ldZDec (d : Reg) : Statement (.ldZDec d) := of_canonical rfl

theorem lddY (d : Reg) (q : BitVec 6) : Statement (.lddY d q) := by
  have key : ∀ d : Reg, encode (.ldY d) = encode (.lddY d 0) := by decide
  intro _
  by_cases h : q = 0
  · subst h; exact ⟨rfl, key d⟩
  · exact of_canonical (if_neg h) rfl

theorem lddZ (d : Reg) (q : BitVec 6) : Statement (.lddZ d q) := by
  have key : ∀ d : Reg, encode (.ldZ d) = encode (.lddZ d 0) := by decide
  intro _
  by_cases h : q = 0
  · subst h; exact ⟨rfl, key d⟩
  · exact of_canonical (if_neg h) rfl

theorem sts (k : Word) (r : Reg) : Statement (.sts k r) := of_canonical rfl

theorem stX (r : Reg) : Statement (.stX r) := of_canonical rfl

theorem stXInc (r : Reg) : Statement (.stXInc r) := of_canonical rfl

theorem stXDec (r : Reg) : Statement (.stXDec r) := of_canonical rfl

theorem stY (r : Reg) : Statement (.stY r) := of_canonical rfl

theorem stYInc (r : Reg) : Statement (.stYInc r) := of_canonical rfl

theorem stYDec (r : Reg) : Statement (.stYDec r) := of_canonical rfl

theorem stZ (r : Reg) : Statement (.stZ r) := of_canonical rfl

theorem stZInc (r : Reg) : Statement (.stZInc r) := of_canonical rfl

theorem stZDec (r : Reg) : Statement (.stZDec r) := of_canonical rfl

theorem stdY (q : BitVec 6) (r : Reg) : Statement (.stdY q r) := by
  have key : ∀ r : Reg, encode (.stY r) = encode (.stdY 0 r) := by decide
  intro _
  by_cases h : q = 0
  · subst h; exact ⟨rfl, key r⟩
  · exact of_canonical (if_neg h) rfl

theorem stdZ (q : BitVec 6) (r : Reg) : Statement (.stdZ q r) := by
  have key : ∀ r : Reg, encode (.stZ r) = encode (.stdZ 0 r) := by decide
  intro _
  by_cases h : q = 0
  · subst h; exact ⟨rfl, key r⟩
  · exact of_canonical (if_neg h) rfl

theorem lpm : Statement .lpm := of_canonical rfl

theorem lpmZ (d : Reg) : Statement (.lpmZ d) := of_canonical rfl

theorem lpmZInc (d : Reg) : Statement (.lpmZInc d) := of_canonical rfl

theorem spm : Statement .spm := of_canonical rfl

theorem ioIn (d : Reg) (a : BitVec 6) : Statement (.ioIn d a) := of_canonical rfl

theorem ioOut (a : BitVec 6) (r : Reg) : Statement (.ioOut a r) := of_canonical rfl

theorem push (r : Reg) : Statement (.push r) := of_canonical rfl

theorem pop (d : Reg) : Statement (.pop d) := of_canonical rfl

theorem swap (d : Reg) : Statement (.swap d) := of_canonical rfl

theorem sbi (a : BitVec 5) (b : BitNo) : Statement (.sbi a b) := of_canonical rfl

theorem cbi (a : BitVec 5) (b : BitNo) : Statement (.cbi a b) := of_canonical rfl

theorem sec : Statement .sec := of_canonical rfl

theorem sez : Statement .sez := of_canonical rfl

theorem sen : Statement .sen := of_canonical rfl

theorem sev : Statement .sev := of_canonical rfl

theorem ses : Statement .ses := of_canonical rfl

theorem seh : Statement .seh := of_canonical rfl

theorem setT : Statement .setT := of_canonical rfl

theorem sei : Statement .sei := of_canonical rfl

theorem clc : Statement .clc := of_canonical rfl

theorem clz : Statement .clz := of_canonical rfl

theorem cln : Statement .cln := of_canonical rfl

theorem clv : Statement .clv := of_canonical rfl

theorem cls : Statement .cls := of_canonical rfl

theorem clh : Statement .clh := of_canonical rfl

theorem clt : Statement .clt := of_canonical rfl

theorem cli : Statement .cli := of_canonical rfl

theorem nop : Statement .nop := of_canonical rfl

theorem brk : Statement .brk := of_canonical rfl

theorem wdr : Statement .wdr := of_canonical rfl

theorem sleep : Statement .sleep := of_canonical rfl

theorem add (d r : Reg) : Statement (.add d r) := of_canonical rfl

theorem adc (d r : Reg) : Statement (.adc d r) := of_canonical rfl

theorem adiw (d : Reg) (k : BitVec 6) : Statement (.adiw d k) := of_canonical rfl

theorem sub (d r : Reg) : Statement (.sub d r) := of_canonical rfl

theorem subi (d : Reg) (k : Byte) : Statement (.subi d k) := of_canonical rfl

theorem sbc (d r : Reg) : Statement (.sbc d r) := of_canonical rfl

theorem sbci (d : Reg) (k : Byte) : Statement (.sbci d k) := of_canonical rfl

theorem sbiw (d : Reg) (k : BitVec 6) : Statement (.sbiw d k) := of_canonical rfl

theorem and (d r : Reg) : Statement (.and d r) := of_canonical rfl

theorem andi (d : Reg) (k : Byte) : Statement (.andi d k) := of_canonical rfl

theorem or (d r : Reg) : Statement (.or d r) := of_canonical rfl

theorem ori (d : Reg) (k : Byte) : Statement (.ori d k) := of_canonical rfl

theorem eor (d r : Reg) : Statement (.eor d r) := of_canonical rfl

theorem com (d : Reg) : Statement (.com d) := of_canonical rfl

theorem neg (d : Reg) : Statement (.neg d) := of_canonical rfl

theorem inc (d : Reg) : Statement (.inc d) := of_canonical rfl

theorem dec (d : Reg) : Statement (.dec d) := of_canonical rfl

theorem clr (d : Reg) : Statement (.clr d) := fun _ => ⟨rfl, rfl⟩

theorem ser (d : Reg) : Statement (.ser d) := by
  intro h; exact ⟨h, by revert d; decide⟩

theorem cp (d r : Reg) : Statement (.cp d r) := of_canonical rfl

theorem cpc (d r : Reg) : Statement (.cpc d r) := of_canonical rfl

theorem cpi (d : Reg) (k : Byte) : Statement (.cpi d k) := of_canonical rfl

theorem mul (d r : Reg) : Statement (.mul d r) := of_canonical rfl

theorem muls (d r : Reg) : Statement (.muls d r) := of_canonical rfl

theorem mulsu (d r : Reg) : Statement (.mulsu d r) := of_canonical rfl

theorem lsl (d : Reg) : Statement (.lsl d) := fun _ => ⟨rfl, rfl⟩

theorem lsr (d : Reg) : Statement (.lsr d) := of_canonical rfl

theorem rol (d : Reg) : Statement (.rol d) := fun _ => ⟨rfl, rfl⟩

theorem ror (d : Reg) : Statement (.ror d) := of_canonical rfl

theorem asr (d : Reg) : Statement (.asr d) := of_canonical rfl

theorem rjmp (k : BitVec 12) : Statement (.rjmp k) := of_canonical rfl

theorem jmp (k : BitVec 22) : Statement (.jmp k) := of_canonical rfl

theorem ijmp : Statement .ijmp := of_canonical rfl

theorem rcall (k : BitVec 12) : Statement (.rcall k) := of_canonical rfl

theorem call (k : BitVec 22) : Statement (.call k) := of_canonical rfl

theorem icall : Statement .icall := of_canonical rfl

theorem ret : Statement .ret := of_canonical rfl

theorem reti : Statement .reti := of_canonical rfl

theorem cpse (d r : Reg) : Statement (.cpse d r) := of_canonical rfl

theorem sbrc (r : Reg) (b : BitNo) : Statement (.sbrc r b) := of_canonical rfl

theorem sbrs (r : Reg) (b : BitNo) : Statement (.sbrs r b) := of_canonical rfl

theorem sbic (a : BitVec 5) (b : BitNo) : Statement (.sbic a b) := of_canonical rfl

theorem sbis (a : BitVec 5) (b : BitNo) : Statement (.sbis a b) := of_canonical rfl

theorem breq (k : BitVec 7) : Statement (.breq k) := of_canonical rfl

theorem brne (k : BitVec 7) : Statement (.brne k) := of_canonical rfl

theorem brcs (k : BitVec 7) : Statement (.brcs k) := of_canonical rfl

theorem brcc (k : BitVec 7) : Statement (.brcc k) := of_canonical rfl

theorem brlo (k : BitVec 7) : Statement (.brlo k) := fun _ => ⟨rfl, rfl⟩

theorem brsh (k : BitVec 7) : Statement (.brsh k) := fun _ => ⟨rfl, rfl⟩

theorem brmi (k : BitVec 7) : Statement (.brmi k) := of_canonical rfl

theorem brpl (k : BitVec 7) : Statement (.brpl k) := of_canonical rfl

theorem brhs (k : BitVec 7) : Statement (.brhs k) := of_canonical rfl

theorem brhc (k : BitVec 7) : Statement (.brhc k) := of_canonical rfl

theorem brts (k : BitVec 7) : Statement (.brts k) := of_canonical rfl

theorem brtc (k : BitVec 7) : Statement (.brtc k) := of_canonical rfl

theorem brvs (k : BitVec 7) : Statement (.brvs k) := of_canonical rfl

theorem brvc (k : BitVec 7) : Statement (.brvc k) := of_canonical rfl

theorem brie (k : BitVec 7) : Statement (.brie k) := of_canonical rfl

theorem brid (k : BitVec 7) : Statement (.brid k) := of_canonical rfl

theorem brge (k : BitVec 7) : Statement (.brge k) := of_canonical rfl

theorem brlt (k : BitVec 7) : Statement (.brlt k) := of_canonical rfl

end Sys2Proof.Laws.SameWords
end

