-- ==== Sys2Proof/Tests/Slice0.lean ====
section
/-! SUPPORT. Tests. Every expected value is the spec's: the vectors of spec/95_test_vectors.md (table
named in the comment), or a rule. The `witness` theorems show, for each statement with hypotheses,
concrete states and operands that meet them. -/

namespace Sys2Proof.Tests

open Sys2Proof.Machine

/-! ### Ill-formed terms (R21, R104) -/

theorem test_movw_odd_refused :
    (Instr.movw 1 2).wellFormed = false ∧ (Instr.movw 2 1).wellFormed = false := by decide

theorem test_immediate_low_register_refused :
    (Instr.ldi 15 0).wellFormed = false ∧ (Instr.subi 15 0).wellFormed = false ∧
    (Instr.sbci 15 0).wellFormed = false ∧ (Instr.andi 15 0).wellFormed = false ∧
    (Instr.ori 15 0).wellFormed = false ∧ (Instr.cpi 15 0).wellFormed = false ∧
    (Instr.ser 15).wellFormed = false ∧ (Instr.ldi 16 0).wellFormed = true := by decide

theorem test_word_pair_refused :
    (Instr.adiw 22 0).wellFormed = false ∧ (Instr.adiw 25 0).wellFormed = false ∧
    (Instr.sbiw 22 0).wellFormed = false ∧ (Instr.sbiw 31 0).wellFormed = false ∧
    (Instr.adiw 24 0).wellFormed = true ∧ (Instr.sbiw 30 63).wellFormed = true := by decide

theorem test_muls_low_register_refused :
    (Instr.muls 15 16).wellFormed = false ∧ (Instr.muls 16 15).wellFormed = false ∧
    (Instr.muls 16 31).wellFormed = true := by decide

theorem test_mulsu_register_refused :
    (Instr.mulsu 24 16).wellFormed = false ∧ (Instr.mulsu 16 24).wellFormed = false ∧
    (Instr.mulsu 15 16).wellFormed = false ∧ (Instr.mulsu 16 15).wellFormed = false ∧
    (Instr.mulsu 16 23).wellFormed = true := by decide

/-! ### Decoding -/

/-- The words decode to the instruction, in the decoder's spelling, and encode back. -/
abbrev codes (p : Word × Word × Instr) : Prop :=
  decode p.1 p.2.1 = .ok p.2.2.canonical ∧
    encode p.2.2 = if isTwoWord p.1 then [p.1, p.2.1] else [p.1]

/- Table V-ENC, all 119 forms. -/

theorem test_encodings_data_transfer : ∀ p ∈ ([
    (0x2D5A, 0, .mov 21 10), (0x01FC, 0, .movw 30 24), (0xEA55, 0, .ldi 21 0xA5),
    (0x9150, 0x0123, .lds 21 0x0123), (0x915C, 0, .ldX 21), (0x915D, 0, .ldXInc 21),
    (0x915E, 0, .ldXDec 21), (0x8158, 0, .ldY 21), (0x9159, 0, .ldYInc 21),
    (0x915A, 0, .ldYDec 21), (0x8150, 0, .ldZ 21), (0x9151, 0, .ldZInc 21),
    (0x9152, 0, .ldZDec 21), (0xA55A, 0, .lddY 21 42), (0xA552, 0, .lddZ 21 42),
    (0x9350, 0x0123, .sts 0x0123 21), (0x935C, 0, .stX 21), (0x935D, 0, .stXInc 21),
    (0x935E, 0, .stXDec 21), (0x8358, 0, .stY 21), (0x9359, 0, .stYInc 21),
    (0x935A, 0, .stYDec 21), (0x8350, 0, .stZ 21), (0x9351, 0, .stZInc 21),
    (0x9352, 0, .stZDec 21), (0xA75A, 0, .stdY 42 21), (0xA752, 0, .stdZ 42 21), (0x95C8, 0, .lpm),
    (0x9154, 0, .lpmZ 21), (0x9155, 0, .lpmZInc 21), (0x95E8, 0, .spm), (0xB75F, 0, .ioIn 21 0x3F),
    (0xBB56, 0, .ioOut 0x16 21), (0x935F, 0, .push 21), (0x915F, 0, .pop 21)] :
    List (Word × Word × Instr)), codes p := by
  decide

theorem test_encodings_bit_manipulation : ∀ p ∈ ([
    (0x9552, 0, .swap 21), (0x9AB5, 0, .sbi 0x16 5), (0x98B5, 0, .cbi 0x16 5), (0x9408, 0, .sec),
    (0x9418, 0, .sez), (0x9428, 0, .sen), (0x9438, 0, .sev), (0x9448, 0, .ses), (0x9458, 0, .seh),
    (0x9468, 0, .setT), (0x9478, 0, .sei), (0x9488, 0, .clc), (0x9498, 0, .clz), (0x94A8, 0, .cln),
    (0x94B8, 0, .clv), (0x94C8, 0, .cls), (0x94D8, 0, .clh), (0x94E8, 0, .clt), (0x94F8, 0, .cli)] :
    List (Word × Word × Instr)), codes p := by
  decide

theorem test_encodings_system_control : ∀ p ∈ ([
    (0x0000, 0, .nop), (0x9598, 0, .brk), (0x95A8, 0, .wdr), (0x9588, 0, .sleep)] :
    List (Word × Word × Instr)), codes p := by
  decide

theorem test_encodings_arithmetic_logic : ∀ p ∈ ([
    (0x0D5A, 0, .add 21 10), (0x1D5A, 0, .adc 21 10), (0x96AA, 0, .adiw 28 42),
    (0x195A, 0, .sub 21 10), (0x5A55, 0, .subi 21 0xA5), (0x095A, 0, .sbc 21 10),
    (0x4A55, 0, .sbci 21 0xA5), (0x97AA, 0, .sbiw 28 42), (0x215A, 0, .and 21 10),
    (0x7A55, 0, .andi 21 0xA5), (0x295A, 0, .or 21 10), (0x6A55, 0, .ori 21 0xA5),
    (0x255A, 0, .eor 21 10), (0x9550, 0, .com 21), (0x9551, 0, .neg 21), (0x9553, 0, .inc 21),
    (0x955A, 0, .dec 21), (0x2755, 0, .clr 21), (0xEF5F, 0, .ser 21), (0x155A, 0, .cp 21 10),
    (0x055A, 0, .cpc 21 10), (0x3A55, 0, .cpi 21 0xA5), (0x9D5A, 0, .mul 21 10),
    (0x025A, 0, .muls 21 26), (0x0352, 0, .mulsu 21 18), (0x0F55, 0, .lsl 21),
    (0x9556, 0, .lsr 21), (0x1F55, 0, .rol 21), (0x9557, 0, .ror 21), (0x9555, 0, .asr 21)] :
    List (Word × Word × Instr)), codes p := by
  decide

theorem test_encodings_jump : ∀ p ∈ ([
    (0xCFFD, 0, .rjmp (-3)), (0x940C, 0x1234, .jmp 0x1234), (0x9409, 0, .ijmp),
    (0xDFFD, 0, .rcall (-3)), (0x940E, 0x1234, .call 0x1234), (0x9509, 0, .icall),
    (0x9508, 0, .ret), (0x9518, 0, .reti), (0x115A, 0, .cpse 21 10), (0xFD55, 0, .sbrc 21 5),
    (0xFF55, 0, .sbrs 21 5), (0x99B5, 0, .sbic 0x16 5), (0x9BB5, 0, .sbis 0x16 5)] :
    List (Word × Word × Instr)), codes p := by
  decide

theorem test_encodings_branch : ∀ p ∈ ([
    (0xF3B1, 0, .breq (-10)), (0xF7B1, 0, .brne (-10)), (0xF3B0, 0, .brcs (-10)),
    (0xF7B0, 0, .brcc (-10)), (0xF3B0, 0, .brlo (-10)), (0xF7B0, 0, .brsh (-10)),
    (0xF3B2, 0, .brmi (-10)), (0xF7B2, 0, .brpl (-10)), (0xF3B5, 0, .brhs (-10)),
    (0xF7B5, 0, .brhc (-10)), (0xF3B6, 0, .brts (-10)), (0xF7B6, 0, .brtc (-10)),
    (0xF3B3, 0, .brvs (-10)), (0xF7B3, 0, .brvc (-10)), (0xF3B7, 0, .brie (-10)),
    (0xF7B7, 0, .brid (-10)), (0xF7B4, 0, .brge (-10)), (0xF3B4, 0, .brlt (-10))] :
    List (Word × Word × Instr)), codes p := by
  decide

/- Words written out field by field from the patterns of R118, other operands than above. -/

theorem test_bits_mov : decode 0b0010111011111100 0 = .ok (.mov 15 28) := by decide
theorem test_bits_out : decode 0b1011111111111010 0 = .ok (.ioOut 0x3A 31) := by decide
theorem test_bits_sbi : decode 0b1001101011111011 0 = .ok (.sbi 0x1F 3) := by decide
theorem test_bits_clv : decode 0b1001010010111000 0 = .ok .clv := by decide
theorem test_bits_wdr : decode 0b1001010110101000 0 = .ok .wdr := by decide
theorem test_bits_sbiw : decode 0b1001011110110001 0 = .ok (.sbiw 30 33) := by decide
theorem test_bits_cpc : decode 0b0000011000010001 0 = .ok (.cpc 1 17) := by decide
theorem test_bits_call : decode 0b1001010010001111 0x8001 = .ok (.call 0x118001) := by decide
theorem test_bits_cpse : decode 0b0001001001110111 0 = .ok (.cpse 7 23) := by decide
theorem test_bits_brlt : decode 0b1111000111111100 0 = .ok (.brlt 63) := by decide

/-- Table V-ALIAS. -/
theorem test_alias_spellings :
    decode 0x0C55 0 = .ok (.add 5 5) ∧ decode 0x1C55 0 = .ok (.adc 5 5) ∧
    decode 0x2455 0 = .ok (.eor 5 5) ∧ decode 0xEF0F 0 = .ok (.ldi 16 0xFF) ∧
    decode 0xF020 0 = .ok (.brcs 4) ∧ decode 0xF420 0 = .ok (.brcc 4) ∧
    decode 0x8078 0 = .ok (.ldY 7) ∧ decode 0x8270 0 = .ok (.stZ 7) := by decide

/-- No row matches the word. -/
abbrev unlisted (w : Word) : Prop := decode w 0 = .error (.unlistedEncoding w)

/-- Table V-ALIAS: the unlisted words. -/
theorem test_unlisted_words :
    unlisted 0xFFFF ∧ unlisted 0xF800 ∧ unlisted 0xFA00 ∧ unlisted 0x0308 ∧ unlisted 0x95D8 ∧
    unlisted 0x9419 ∧ unlisted 0x9519 ∧ unlisted 0x9006 ∧ unlisted 0x9003 ∧ unlisted 0x9204 ∧ unlisted 0x940B ∧
    unlisted 0x0001 ∧ unlisted 0x95F8 := by decide

/-- No word matches two rows of the table, LDD and STD left out: their rows also match LD and ST, which
stand first (R119). -/
theorem test_rows_disjoint :
    (Config.opcodeTable.filter fun r => r.mask != 0xD208).Pairwise
      (fun a b => a.disjoint b = true) := by decide +kernel

/-- The number of an instruction's bits, one word and two. -/
theorem test_table_numbering :
    decodeTableWord 16 0x2D5A = some (.mov 21 10) ∧
    decodeTableWord 32 0x01239150 = some (.lds 21 0x0123) ∧
    decodeTableWord 32 0x91500000 = some (.lds 21 0) := by decide

/-! ### Single steps: the tables V-DT to V-BR -/

/-- The vectors' start: reset, `pc` at 0x0100 and the words there. -/
def machine (ws : List Word) : State :=
  ws.zipIdx.foldl (fun s p => s.storeWord (0x100 + p.2) p.1) { State.reset with pc := 0x100 }

/-- The step completes and its state meets `p`. -/
def after (s : State) (p : State → Bool) : Bool :=
  match step s with
  | .next t => p t
  | _ => false

/-- The step stops for this reason. -/
def stopsWith (s : State) (e : Refusal) : Bool :=
  match step s with
  | .refused r => e == r
  | _ => false

theorem test_movw_copies_pair :
    after (((machine [0x01FD]).setReg 26 0x34).setReg 27 0x12) (fun t =>
      t.reg 30 == 0x34 && t.reg 31 == 0x12 && t.pc == 0x101) = true := by decide

theorem test_ldi_keeps_flags :
    after ((machine [0xE000]).setSreg (.ofByte 2)) (fun t =>
      t.reg 16 == 0 && t.sreg.toByte == 2) = true := by decide

theorem test_lds_reads_sreg :
    after ((machine [0x9100, 0x005F]).setSreg (.ofByte 0x83)) (fun t =>
      t.reg 16 == 0x83 && t.pc == 0x102 && t.cycles == 2) = true := by decide

theorem test_sts_tcnt1_through_temp :
    after { (machine [0x9300, 0x0084]).setReg 16 0x34 with temp1 := 0x12 } (fun t =>
      t.tcnt1 == 0x1234 && t.matchBlocked) = true := by decide

theorem test_ld_increment_carries :
    after { (machine [0x910D]).setPair 26 0x01FF with sram := [(0x1FF, 0x12)] } (fun t =>
      t.reg 16 == 0x12 && t.pair 26 == 0x0200) = true := by decide

theorem test_ld_decrement :
    after { (machine [0x902A]).setPair 28 0x0200 with sram := [(0x1FF, 0x21)] } (fun t =>
      t.reg 2 == 0x21 && t.pair 28 == 0x01FF) = true := by decide

theorem test_ld_pointer_overlap_stops :
    stopsWith ((machine [0x91AD]).setPair 26 0x0100) .pointerOverlap = true ∧
    stopsWith ((machine [0x9051]).setPair 30 0x001E) .pointerOverlap = true := by
  decide

theorem test_ldd_sum_not_wrapped :
    stopsWith ((machine [0x8041]).setPair 30 0xFFFF) (.beyondRamend 0x10000) = true := by
  decide

theorem test_st_into_own_pointer :
    after (((machine [0x8270]).setPair 30 0x001E).setReg 7 0x44) (fun t =>
      t.pair 30 == 0x0044) = true := by decide

theorem test_st_decrement :
    after (((machine [0x926A]).setPair 28 0x0101).setReg 6 0xCD) (fun t =>
      t.pair 28 == 0x0100 && t.sram == [(0x100, 0xCD)]) = true := by decide

theorem test_lpm_selects_byte :
    after (((machine [0x95C8]).storeWord 0x20 0xBEEF).setPair 30 0x0041) (fun t =>
      t.reg 0 == 0xBE && t.cycles == 3) = true := by decide

theorem test_lpm_increment_at_end :
    after (((machine [0x9055]).storeWord 0x3FFF 0x1234).setPair 30 0x7FFF) (fun t =>
      t.reg 5 == 0x12 && t.pair 30 == 0x8000) = true := by decide

theorem test_in_spl : after (machine [0xB70D]) (fun t => t.reg 16 == 0xFF) = true := by
  decide

theorem test_out_tifr1_write_one_clears :
    after { (machine [0xBB06]).setReg 16 0x02 with ocf1a := true, tov1 := true } (fun t =>
      !t.ocf1a && t.tov1) = true := by decide

theorem test_push_to_register_wraps_sp :
    after { (machine [0x930F]).setReg 16 0x5A with sp := 0 } (fun t =>
      t.reg 0 == 0x5A && t.sp == 0xFFFF) = true := by decide

theorem test_pop_underflow_stops :
    stopsWith (machine [0x910F]) (.beyondRamend 0x900) = true := by decide

theorem test_swap : after ((machine [0x9502]).setReg 16 0xA5) (fun t => t.reg 16 == 0x5A) = true := by
  decide

theorem test_sbi_clears_one_flag :
    after { machine [0x9AB1] with ocf1a := true, tov1 := true } (fun t =>
      !t.ocf1a && t.tov1 && t.cycles == 2) = true := by decide

theorem test_cbi_clears_nothing :
    after { machine [0x98B0] with ocf1a := true, tov1 := true } (fun t => t.ocf1a && t.tov1) = true := by
  decide

theorem test_sen_leaves_s :
    after (machine [0x9428]) (fun t => t.sreg.toByte == 0x04) = true := by decide

theorem test_cli : after ((machine [0x94F8]).setSreg (.ofByte 0xFF)) (fun t =>
    t.sreg.toByte == 0x7F) = true := by decide

theorem test_sleep : after (machine [0x9588]) (fun t => t.sleeping && t.pc == 0x101) = true := by
  decide

theorem test_nop_at_end_stops :
    stopsWith (State.storeWord { State.reset with pc := 0x3FFF } 0x3FFF 0) (.pcOutOfRange 0x4000) = true := by
  decide

theorem test_add_overflow :
    after (((machine [0x0F01]).setReg 16 0x38).setReg 17 0x48) (fun t =>
      t.reg 16 == 0x80 && t.sreg.toByte == 0x2C) = true := by decide

theorem test_adc_carry_in :
    after ((((machine [0x1F01]).setReg 16 0x0F).setReg 17 0xF0).setSreg (.ofByte 1)) (fun t =>
      t.reg 16 == 0 && t.sreg.toByte == 0x23) = true := by decide

theorem test_adiw_overflow :
    after ((machine [0x9601]).setPair 24 0x7FFF) (fun t =>
      t.pair 24 == 0x8000 && t.sreg.toByte == 0x0C && t.cycles == 2) = true := by decide

theorem test_sub_overflow :
    after (((machine [0x1B01]).setReg 16 0x80).setReg 17 0x01) (fun t =>
      t.reg 16 == 0x7F && t.sreg.toByte == 0x38) = true := by decide

theorem test_sbc_keeps_zero_clear :
    after (machine [0x0B01]) (fun t => t.sreg.toByte == 0) = true ∧
    after ((machine [0x0B01]).setSreg (.ofByte 2)) (fun t => t.sreg.toByte == 2) = true := by
  decide

theorem test_sbiw_borrow :
    after (machine [0x9701]) (fun t => t.pair 24 == 0xFFFF && t.sreg.toByte == 0x15) = true := by
  decide

theorem test_cp_signed_and_unsigned :
    after (((machine [0x1701]).setReg 16 0xFB).setReg 17 0x07) (fun t =>
      t.reg 16 == 0xFB && t.sreg.toByte == 0x14) = true := by decide

/-- H is a free value: SREG is 0x0D or 0x2D. -/
theorem test_neg_most_negative :
    after ((machine [0x9501]).setReg 16 0x80) (fun t =>
      t.reg 16 == 0x80 && t.sreg.c && t.sreg.n && t.sreg.v && !t.sreg.z && !t.sreg.s) = true := by
  decide

theorem test_and_keeps_carry :
    after ((((machine [0x2301]).setReg 16 0xF0).setReg 17 0x0F).setSreg (.ofByte 9)) (fun t =>
      t.reg 16 == 0 && t.sreg.toByte == 0x03) = true := by decide

theorem test_com : after (machine [0x9500]) (fun t =>
    t.reg 16 == 0xFF && t.sreg.toByte == 0x15) = true := by decide

theorem test_inc_keeps_carry :
    after (((machine [0x9503]).setReg 16 0x7F).setSreg (.ofByte 1)) (fun t =>
      t.reg 16 == 0x80 && t.sreg.toByte == 0x0D) = true := by decide

theorem test_dec : after ((machine [0x950A]).setReg 16 0x80) (fun t =>
    t.reg 16 == 0x7F && t.sreg.toByte == 0x18) = true := by decide

theorem test_mul_of_result_registers :
    after (((machine [0x9C01]).setReg 0 0x10).setReg 1 0x10) (fun t =>
      t.pair 0 == 0x0100 && t.sreg.toByte == 0) = true := by decide

theorem test_muls_negative :
    after (((machine [0x0201]).setReg 16 0x80).setReg 17 0x7F) (fun t =>
      t.pair 0 == 0xC080 && t.sreg.toByte == 0x01) = true := by decide

theorem test_mulsu_mixed :
    after (((machine [0x0301]).setReg 16 0xFF).setReg 17 0xFF) (fun t =>
      t.pair 0 == 0xFF01 && t.sreg.toByte == 0x01) = true := by decide

theorem test_lsl_half_carry : after ((machine [0x0F00]).setReg 16 0x48) (fun t =>
    t.reg 16 == 0x90 && t.sreg.toByte == 0x2C) = true := by decide

theorem test_ror_carry_in : after ((machine [0x9507]).setSreg (.ofByte 1)) (fun t =>
    t.reg 16 == 0x80 && t.sreg.toByte == 0x0C) = true := by decide

theorem test_asr : after ((machine [0x9505]).setReg 16 0x80) (fun t =>
    t.reg 16 == 0xC0 && t.sreg.toByte == 0x0C) = true := by decide

theorem test_rjmp_to_itself : after (machine [0xCFFF]) (fun t =>
    t.pc == 0x100 && t.cycles == 2) = true := by decide

theorem test_jmp_out_of_range_stops :
    stopsWith (machine [0x940C, 0x4000]) (.pcOutOfRange 0x4000) = true := by decide

theorem test_rcall_stack : after (machine [0xD005]) (fun t =>
    t.pc == 0x106 && t.sp == 0x8FD && t.sram == [(0x8FE, 1), (0x8FF, 1)]) = true := by decide

theorem test_icall_target_read_first :
    after { (machine [0x9509]).setPair 30 0x0300 with sp := 0x1F } (fun t =>
      t.pc == 0x300 && t.pair 30 == 0x0101 && t.sp == 0x1D) = true := by decide

theorem test_ret_high_byte_first :
    after { machine [0x9508] with sp := 0x8FD, sram := [(0x8FE, 0x01), (0x8FF, 0x23)] } (fun t =>
      t.pc == 0x123 && t.sp == 0x8FF && t.cycles == 4) = true := by decide

theorem test_reti_enables :
    after { machine [0x9518] with sp := 0x8FD, sram := [(0x8FE, 0x01), (0x8FF, 0x23)] } (fun t =>
      t.pc == 0x123 && t.sreg.toByte == 0x80 && t.inhibit) = true := by decide

theorem test_cpse_skips_two_words :
    after (machine [0x1300, 0x940C, 0]) (fun t => t.pc == 0x103 && t.cycles == 3) = true ∧
    after ((machine [0x1301, 0x9300, 0x0100]).setReg 17 6) (fun t => t.pc == 0x101) = true := by
  decide

/-- The registers a bit instruction reaches, but for TIFR1, are undescribed: PINB. -/
theorem test_sbis_undescribed_stops :
    stopsWith (machine [0x9B18, 0]) (.undescribedIO 0x23) = true := by decide

/-- Bits 1 and 0 of TIFR1 are OCF1A and TOV1, whatever bits 5 and 2 read as (R373). -/
theorem test_tifr1_bits : ∀ x y : Bool,
    (tifr1Byte x y true false)[1] = true ∧ (tifr1Byte x y true false)[0] = false ∧
    (tifr1Byte x y true false)[3] = false := by decide

theorem test_brne_backward : after (machine [0xF601]) (fun t => t.pc == 0xC1 && t.cycles == 2) = true := by
  decide

theorem test_brge_sign_mismatch_stops :
    stopsWith ((machine [0xF47C]).setSreg (.ofByte 4)) .signFlagMismatch = true ∧
    after ((machine [0xF47C]).setSreg (.ofByte 0x0C)) (fun t => t.pc == 0x110) = true := by
  decide

/-! ### Timer/Counter1, interrupts, reset: the tables V-TIMER and V-INT -/

/-- T1: the overflow. -/
theorem test_tick_overflow :
    (tick { State.reset with tcnt1 := 0xFFFF, tccr1b := 1 }).tcnt1 = 0 ∧
    (tick { State.reset with tcnt1 := 0xFFFF, tccr1b := 1 }).tov1 = true := by decide

/-- T3: CTC mode clears the counter on the match. -/
theorem test_tick_ctc :
    (tick { State.reset with tcnt1 := 3, ocr1a := 3, tccr1b := 9 }).tcnt1 = 0 ∧
    (tick { State.reset with tcnt1 := 3, ocr1a := 3, tccr1b := 9 }).ocf1a = true := by decide

/-- T4: normal mode does not. -/
theorem test_tick_normal_match :
    (tick { State.reset with tcnt1 := 3, ocr1a := 3, tccr1b := 1 }).tcnt1 = 4 := by decide

/-- I1, step 3: vector 12 before vector 14. -/
theorem test_entry_lowest_vector :
    after { (machine [0]).setSreg (.ofByte 0x80) with ocf1a := true, tov1 := true, timsk1 := 3 } (fun t =>
      t.pc == 0x16 && t.sreg.toByte == 0 && !t.ocf1a && t.tov1 &&
        t.sram == [(0x8FE, 1), (0x8FF, 0)]) = true := by decide

/-- I2, step 2: CLI after SEI. -/
theorem test_cli_after_sei :
    after { (machine [0x94F8]).setSreg (.ofByte 0x80) with ocf1a := true, timsk1 := 2, inhibit := true }
      (fun t => t.pc == 0x101 && t.sreg.toByte == 0 && !t.inhibit) = true := by decide

/-- I4, step 3: asleep. -/
theorem test_asleep_idles :
    after { (machine [0]).setSreg (.ofByte 0x80) with sleeping := true } (fun t =>
      t.sleeping && t.pc == 0x100 && t.cycles == 0) = true := by decide

/-- I6: the second push of the entry stops. -/
theorem test_entry_push_stops :
    stopsWith { (machine [0]).setSreg (.ofByte 0x80) with ocf1a := true, timsk1 := 2, sp := 0x100 }
      (.undescribedIO 0xFF) = true := by decide

theorem test_external_reset_keeps_registers :
    after { (machine [0]).setReg 5 7 with agenda := [.reset .externalPin], sp := 3 } (fun t =>
      t.pc == 0 && t.reg 5 == 7 && t.sp == 0x8FF) = true := by decide

/-- The host's two questions, for one word. -/
theorem test_fetch_word_runs_first :
    after (State.reset.withFetchWord 16 0xEA55) (fun t => t.reg 21 == 0xA5 && t.pc == 1) = true := by
  decide

/-! ### Witnesses

Each theorem takes a statement and applies it to concrete states and operands: its proof shows that
they meet every premise, at the ends of the ranges. -/

/-- Reset with `pc` at `n`. -/
def atPc (n : Nat) : State := { State.reset with pc := BitVec.ofNat 14 n }

theorem witness_DecodeEncode : Obligations.DecodeEncode →
    decodeWords (encode (.adiw 24 63)) = .ok (.adiw 24 63) ∧
    decodeWords (encode (.ser 16)) = .ok (.ldi 16 0xFF) ∧
    decodeWords (encode (.mulsu 23 16)) = .ok (.mulsu 23 16) :=
  fun h => ⟨h _ (by decide), h _ (by decide), h _ (by decide)⟩

theorem witness_DecodeSound : Obligations.DecodeSound →
    (Instr.nop).wellFormed = true ∧ (Instr.lds 21 0x0123).wellFormed = true :=
  fun h => ⟨(h 0 0 _ (by decide)).1, (h 0x9150 0x0123 _ (by decide)).1⟩

theorem witness_InstructionLength : Obligations.InstructionLength →
    (∃ w rest, encode (.call 0x118001) = w :: rest) ∧ ∃ w rest, encode (.movw 30 0) = w :: rest :=
  fun h => ⟨(h _ (by decide)).imp fun _ x => x.imp fun _ y => y.1,
    (h _ (by decide)).imp fun _ x => x.imp fun _ y => y.1⟩

/-- Both forms of the agenda, a one-word and a two-word instruction. -/
theorem witness_StepRunsDecoded : Obligations.StepRunsDecoded →
    (step (machine [0]) = exec .nop { afterBoundary (machine [0]) with inhibit := false }) ∧
    (step (machine [0x9150, 0x0123]) =
      exec (.lds 21 0x0123) { afterBoundary (machine [0x9150, 0x0123]) with inhibit := false }) ∧
    (step { machine [0] with agenda := [.core] } =
      exec .nop { afterBoundary (machine [0]) with inhibit := false }) :=
  fun h => ⟨
    (h .nop (machine [0]) 0 0 [] (by decide) (by decide) (by decide) (by decide) (by decide)).1
      (by decide) (by decide),
    (h (.lds 21 0x0123) (machine [0x9150, 0x0123]) 0x9150 0x0123 [] (by decide) (by decide)
      (by decide) (by decide) (by decide)).1 (by decide) (by decide),
    (h .nop { machine [0] with agenda := [.core] } 0 0 [] (by decide) (by decide) (by decide)
      (by decide) (by decide)).2 rfl⟩

/-- The three ways a sleeping core's step can end: idle, by an interrupt, by a reset. -/
theorem witness_SleepLeft :
    (∀ s ∈ [{ machine [0] with sleeping := true },
        { (machine [0]).setSreg (.ofByte 0x80) with sleeping := true, tov1 := true, timsk1 := 1 },
        { machine [0] with sleeping := true, agenda := [.reset .watchdog] }],
      s.sleeping = true ∧ after s (fun _ => true) = true) := by decide

/-- A count and a move of the core in turn. -/
def alternately (n : Nat) : Move := if n % 2 = 0 then .prescaledClock else .core

/-- Asleep with a compare match next; the vector of the compare interrupt holds a jump to itself. -/
def dozing : State :=
  { State.reset.storeWord 0x16 0xCFFF with
    sleeping := true, sreg := .ofByte 0x80, tccr1b := 9, timsk1 := 2 }

/-- The run from there. -/
def dozingRun : Nat → State
  | 0 => dozing
  | n + 1 =>
    match step { dozingRun n with agenda := [alternately n] } with
    | .next t => t
    | _ => dozingRun n

/-- In the jump to itself. -/
def looping (s : State) : Prop :=
  s.sleeping = false ∧ s.sreg.i = false ∧ s.pc = 0x16 ∧ s.flash = dozing.flash ∧ s.tccr1b = 9 ∧
    s.timsk1 = 2

theorem looping_coreStep {s : State} (h : looping s) : ∃ t, coreStep s = .next t ∧ looping t := by
  obtain ⟨h1, h2, h3, h4, h5, h6⟩ := h
  have hw : progWord s.pcNat s = .ok 0xCFFF := by
    rw [progWord_congr (s := dozing) _ h4, State.pcNat, h3]; decide
  have hf : fetch s = .ok (.rjmp (-1)) :=
    fetch_ok (w2 := 0) hw (fun e => absurd e (by decide)) (by decide) fun _ => by decide
  have hb : afterBoundary s = s := by simp [afterBoundary, usesRequests, h6]
  have hr : relTarget { s with inhibit := false } (-1 : BitVec 12) = 0x16 := by
    simp only [relTarget, State.pcNat, h3]; decide
  refine ⟨{ s with inhibit := false, pc := 0x16, cycles := s.cycles + 2 }, ?_, h1, h2, rfl, h4, h5, h6⟩
  rw [coreStep, takenVector_of_disabled h2, hb]
  change (if s.sleeping then _ else runInstruction s) = _
  rw [if_neg (by rw [h1]; decide), runInstruction, hf]
  change finish (goto _ 2 _) = _
  rw [hr, goto_ok _ _ (by decide) (by decide)]
  rfl

theorem looping_step {s : State} (h : looping s) (n : Nat) :
    ∃ t, step { s with agenda := [alternately n] } = .next t ∧ looping t := by
  have hu : looping { s with agenda := [] } := h
  change ∃ t, performMove (alternately n) { s with agenda := [] } = .next t ∧ looping t
  generalize { s with agenda := [] } = u at hu
  unfold alternately
  split
  · have hc : (clockSource u.tccr1b).internal = true := by rw [hu.2.2.2.2.1]; decide
    exact ⟨tick u, by simp only [performMove, hc, if_true], hu⟩
  · exact looping_coreStep hu

theorem dozingRun_looping (n : Nat) : looping (dozingRun (n + 2)) := by
  induction n with
  | zero => exact ⟨by decide, by decide, by decide, by decide, by decide, by decide⟩
  | succ n ih =>
    obtain ⟨t, e, h⟩ := looping_step ih (n + 2)
    have : dozingRun (n + 3) = t := by rw [dozingRun, e]
    rw [this]; exact h

theorem next_of_after {s : State} {p : State → Bool} (h : after s p = true) :
    ∃ t, step s = .next t := by
  unfold after at h
  split at h
  · exact ⟨_, ‹_›⟩
  · cases h

theorem dozingRun_fair : FairRun alternately dozingRun where
  steps n := by
    have : ∃ t, step { dozingRun n with agenda := [alternately n] } = .next t := by
      match n with
      | 0 => exact ⟨_, rfl⟩
      | 1 => exact next_of_after (p := fun _ => true) (by decide)
      | n + 2 => exact (looping_step (dozingRun_looping n) (n + 2)).imp fun _ e => e.1
    obtain ⟨t, e⟩ := this
    rw [e, dozingRun, e]
  coreFair n _ := ⟨2 * n + 1, by omega, by simp [alternately]⟩
  timerFair n _ := ⟨2 * n, by omega, by simp [alternately]⟩

/-- The second clause of `SleepLeft`: a fair run that sleeps, and is served. -/
theorem witness_SleepLeft_served : Obligations.SleepLeft →
    ∃ m v, interruptEntry v { dozingRun m with agenda := [] } = .ok (dozingRun (m + 1)) :=
  fun h => by
    obtain ⟨m, v, -, -, -, e⟩ := h.2 alternately dozingRun 0 dozingRun_fair
      (fun m _ c => by simp only [alternately]; split <;> simp) (by decide) (by decide) (by decide) (by decide)
      (by decide) (by decide) (.inl (by decide))
    exact ⟨m, v, e⟩
theorem reset_inv : State.reset.Inv :=
  ⟨by decide, by decide, by decide, by decide, by decide, by decide, by decide⟩

/-- A reset is the next move, so that the state after is at hand. -/
def resetting : State := { State.reset with agenda := [.reset .powerOn] }

theorem witness_ProgramConstant : Obligations.ProgramConstant →
    (resetEvent .powerOn State.reset).flash = [] :=
  fun h => h resetting (resetEvent .powerOn State.reset) rfl

theorem witness_StepKeepsInv : Obligations.StepKeepsInv → (resetEvent .powerOn State.reset).Inv :=
  fun h => h resetting (resetEvent .powerOn State.reset)
    (reset_inv.congr rfl rfl rfl rfl rfl) rfl

theorem witness_ResetEventValues : Obligations.ResetEventValues →
    (step resetting = .next (resetEvent .powerOn State.reset)) ∧
    (∀ a, (resetEvent .powerOn resetting).sram.read a = none) ∧
    (resetEvent .brownOut resetting).temp1 = 0 :=
  fun h => ⟨(h .powerOn resetting []).2 rfl, by
    have := (h .powerOn resetting []).1; exact this.2.2.2.2.2.2.2.2.2.2.2.2.2.2.1 rfl, by
    have := (h .brownOut resetting []).1; exact (this.2.2.2.2.2.2.2.2.2.2.2.2.2.2.2 (by decide)).2.2⟩

/-- The first and the last vector, the lowest stack in SRAM, and one whose second push stops. -/
theorem witness_InterruptEntryResult : Obligations.InterruptEntryResult →
    (∃ t, interruptEntry 2 State.reset = .ok t) ∧ (∃ t, interruptEntry 26 State.reset = .ok t) ∧
    (∃ t, interruptEntry 12 { State.reset with sp := 0x101 } = .ok t) ∧
    interruptEntry 12 { State.reset with sp := 0x100 } = .error (.undescribedIO 0xFF) ∧
    ∃ t, interruptEntry 14 { State.reset with sp := 0x1F } = .ok t :=
  fun h => ⟨⟨_, (h 2 State.reset (by decide) (by decide)).2.2 (by decide) (by decide)⟩,
    ⟨_, (h 26 State.reset (by decide) (by decide)).2.2 (by decide) (by decide)⟩,
    ⟨_, (h 12 { State.reset with sp := 0x101 } (by decide) (by decide)).2.2 (by decide) (by decide)⟩,
    (h 12 { State.reset with sp := 0x100 } (by decide) (by decide)).2.1 _ (by decide),
    ⟨_, (h 14 { State.reset with sp := 0x1F } (by decide) (by decide)).1 _ rfl⟩⟩

/-- Vectors 12 and 14 taken; both need I = 1. -/
theorem witness_InterruptSelection :
    takenVector { State.reset with sreg := .ofByte 0x80, ocf1a := true, tov1 := true, timsk1 := 3 } =
      some 12 ∧
    takenVector { State.reset with sreg := .ofByte 0x80, tov1 := true, timsk1 := 1 } = some 14 := by
  decide

/-- A stack with the return address `v`. -/
def stackWith (hi lo : Byte) : State :=
  { State.reset with sp := 0x8FD, sram := [(0x8FE, hi), (0x8FF, lo)] }

/-- The last address of program memory, the first outside it, an empty stack. -/
theorem witness_ReturnResult : Obligations.ReturnResult →
    (∃ t, exec .ret (stackWith 0x3F 0xFF) = .next t) ∧
    (∃ t, exec .reti (stackWith 0x3F 0xFF) = .next t) ∧
    exec .ret (stackWith 0x40 0x00) = .refused (.pcOutOfRange 0x4000) ∧
    exec .reti State.reset = .refused (.beyondRamend 0x900) ∧
    popPC (stackWith 0x3F 0xFF) = .ok (0x3FFF, { stackWith 0x3F 0xFF with sp := 0x8FF }) :=
  fun h => ⟨⟨_, ((h.1 _ _ 0x3FFF (h.2.2 (stackWith 0x3F 0xFF) 0x3F 0xFF (by decide) (by decide)
      (by decide) (by decide))).1 (by decide)).1⟩,
    ⟨_, ((h.1 _ _ 0x3FFF (h.2.2 (stackWith 0x3F 0xFF) 0x3F 0xFF (by decide) (by decide)
      (by decide) (by decide))).1 (by decide)).2⟩,
    ((h.1 _ _ 0x4000 (h.2.2 (stackWith 0x40 0x00) 0x40 0x00 (by decide) (by decide) (by decide)
      (by decide))).2 (by decide)).1,
    (h.2.1 State.reset (.beyondRamend 0x900) (by decide)).2,
    h.2.2 (stackWith 0x3F 0xFF) 0x3F 0xFF (by decide) (by decide) (by decide) (by decide)⟩

/-- The instruction completes. -/
def completes (i : Instr) (s : State) : Bool :=
  match exec i s with
  | .next _ => true
  | _ => false

theorem next_of_completes {i : Instr} {s : State} (h : completes i s = true) :
    ∃ t, exec i s = .next t := by
  unfold completes at h
  split at h
  · exact ⟨_, ‹_›⟩
  · cases h

theorem witness_EnableDelay : Obligations.EnableDelay →
    (∃ t, exec .sei State.reset = .next t ∧ takenVector t = none) ∧
    (∃ t, exec .reti (stackWith 0 0) = .next t ∧ takenVector t = none) ∧
    (∃ t, exec .cli State.reset = .next t ∧ takenVector t = none) ∧
    takenVector { State.reset with sreg := .ofByte 0x80, inhibit := true } = none ∧
    takenVector State.reset = none :=
  fun h => ⟨(next_of_completes (by decide)).imp fun _ e => ⟨e, (h.1 _ _ e).2.2⟩,
    (next_of_completes (by decide)).imp fun _ e => ⟨e, (h.2.1 _ _ e).2.2⟩,
    (next_of_completes (by decide)).imp fun _ e => ⟨e, (h.2.2.1 _ _ e).2⟩,
    h.2.2.2 _ (.inl rfl), h.2.2.2 _ (.inr rfl)⟩

/-- A state for each premise: no match, a match, no overflow, an overflow, TOV1 set. -/
theorem witness_TickEffect :
    ({ State.reset with ocr1a := 1 }).tcnt1 ≠ ({ State.reset with ocr1a := 1 }).ocr1a ∧
    (State.reset.tcnt1 = State.reset.ocr1a ∧ State.reset.matchBlocked = false) ∧
    State.reset.tcnt1 ≠ 0xFFFF ∧
    (tick { State.reset with tcnt1 := 0xFFFF }).tov1 = true ∧
    (tick { State.reset with tov1 := true }).tov1 = true := by decide

/-- The timer at `tccr1b` with the move `m` next. -/
def clocked (tccr1b : Byte) (m : Move) : State :=
  { State.reset with tccr1b := tccr1b, agenda := [m] }

theorem witness_ClockSelect : Obligations.ClockSelect →
    (∃ t, step (clocked 1 .prescaledClock) = .next (tick t)) ∧
    (∃ t, step (clocked 5 .prescaledClock) = .next (tick t)) ∧
    (∃ t, step (clocked 6 .t1Falling) = .next (tick t)) ∧
    (∃ t, step (clocked 7 .t1Rising) = .next (tick t)) ∧
    step (clocked 0 .prescaledClock) = .next { clocked 0 .prescaledClock with agenda := [] } ∧
    step (clocked 6 .t1Rising) = .next { clocked 6 .t1Rising with agenda := [] } ∧
    (step { State.reset with tccr1b := 1 } =
        .next (tick { State.reset with tccr1b := 1, draws := 1 }) ∨
      step { State.reset with tccr1b := 1 } =
        coreStep { State.reset with tccr1b := 1, draws := 1 }) :=
  fun h => ⟨⟨_, (h.2.1 (clocked 1 .prescaledClock) [] .prescaledClock _ (.head _) rfl).1 (by decide)⟩,
    ⟨_, (h.2.1 (clocked 5 .prescaledClock) [] .prescaledClock _ (.head _) rfl).1 (by decide)⟩,
    ⟨_, (h.2.1 (clocked 6 .t1Falling) [] .t1Falling _ (.tail _ (.head _)) rfl).1 (by decide)⟩,
    ⟨_, (h.2.1 (clocked 7 .t1Rising) [] .t1Rising _ (.tail _ (.tail _ (.head _))) rfl).1 (by decide)⟩,
    (h.2.1 (clocked 0 .prescaledClock) [] .prescaledClock _ (.head _) rfl).2 (by decide),
    (h.2.1 (clocked 6 .t1Rising) [] .t1Rising _ (.tail _ (.tail _ (.head _))) rfl).2 (by decide),
    h.2.2 { State.reset with tccr1b := 1 } rfl (by decide)⟩

/-- SRAM with its first and last byte written. -/
def filled : State := { State.reset with sram := [(0x100, 1), (0x8FF, 2)] }

theorem witness_MemReadTable : Obligations.MemReadTable →
    memRead 0x100 filled = .ok (1, filled) ∧ memRead 0x8FF filled = .ok (2, filled) ∧
    (∃ v, memRead 0x101 filled = .ok (v, { filled with draws := 1 })) ∧
    (∃ v, memRead 0x8FE filled = .ok (v, { filled with draws := 1 })) ∧
    memRead 0x20 filled = .error (.undescribedIO 0x20) ∧
    memRead 0xFF filled = .error (.undescribedIO 0xFF) ∧
    memRead 0x900 filled = .error (.beyondRamend 0x900) :=
  fun h => by
    obtain ⟨-, -, -, -, -, -, -, -, -, -, -, h1, h2, h3, h4⟩ := h filled
    exact ⟨h1 _ 1 (by decide) (by decide) rfl, h1 _ 2 (by decide) (by decide) rfl,
      h2 _ (by decide) (by decide) rfl, h2 _ (by decide) (by decide) rfl,
      h3 _ (by decide) (by decide) (by decide), h3 _ (by decide) (by decide) (by decide),
      h4 _ (by decide)⟩

theorem witness_MemWriteTable : Obligations.MemWriteTable →
    memWrite 0x5F 0x7F State.reset = .ok { State.reset with sreg := .ofByte 0x7F } ∧
    (∃ b, memWrite 0x5F 0x80 State.reset =
      .ok { State.reset with sreg := .ofByte 0x80, inhibit := b, draws := 1 }) ∧
    memWrite 0x81 0x10 State.reset = .error (.undescribedIO 0x81) ∧
    memWrite 0x81 0xEF State.reset = .ok { State.reset with tccr1b := 0xCF } ∧
    memWrite 0x100 5 State.reset = .ok { State.reset with sram := [(0x100, 5)] } ∧
    memWrite 0x8FF 5 State.reset = .ok { State.reset with sram := [(0x8FF, 5)] } ∧
    memWrite 0x20 5 State.reset = .error (.undescribedIO 0x20) ∧
    memWrite 0xFF 5 State.reset = .error (.undescribedIO 0xFF) ∧
    memWrite 0x900 5 State.reset = .error (.beyondRamend 0x900) :=
  fun h => by
    obtain ⟨-, -, -, -, h1, -⟩ := h State.reset 0x7F
    obtain ⟨-, -, -, -, -, h2, -⟩ := h State.reset 0x80
    obtain ⟨-, -, -, -, -, -, -, h3, -⟩ := h State.reset 0x10
    obtain ⟨-, -, -, -, -, -, -, -, h4, -⟩ := h State.reset 0xEF
    obtain ⟨-, -, -, -, -, -, -, -, -, -, -, -, -, h5, h6, h7⟩ := h State.reset 5
    exact ⟨h1 (.inr (by decide)), h2 (by decide), h3 (by decide), h4 (by decide),
      h5 _ (by decide) (by decide), h5 _ (by decide) (by decide),
      h6 _ (by decide) (by decide) (by decide), h6 _ (by decide) (by decide) (by decide),
      h7 _ (by decide)⟩

theorem witness_StoreReadBack : Obligations.StoreReadBack →
    memRead 0x100 { State.reset with sram := [(0x100, 5)] } =
      .ok (5, { State.reset with sram := [(0x100, 5)] }) ∧
    (State.reset.setReg 31 5).reg 31 = 5 ∧ (State.reset.setReg 31 5).reg 30 = State.reset.reg 30 :=
  fun h => ⟨(h State.reset { State.reset with sram := [(0x100, 5)] } 0x100 5 rfl).2.1 (by decide),
    (h State.reset (State.reset.setReg 31 5) 31 5 rfl).2.2.2 31 rfl,
    (h State.reset (State.reset.setReg 31 5) 31 5 rfl).2.2.1 30 (by decide)⟩

/-- The highest and the lowest stack in SRAM, a push that stops. -/
theorem witness_StackOperations : Obligations.StackOperations →
    (∃ t, push 5 State.reset = .ok t) ∧
    push 5 { State.reset with sp := 0xFFFF } = .error (.beyondRamend 0xFFFF) ∧
    (∃ t, pushPC 0x0123 State.reset = .ok t) ∧
    ∃ t, pushPC 0x0123 { State.reset with sp := 0x101 } = .ok t :=
  fun h => ⟨⟨_, (h.1 State.reset 5).1 { State.reset with sram := [(0x8FF, 5)] } rfl⟩,
    (h.1 { State.reset with sp := 0xFFFF } 5).2.1 _ (by decide),
    (h.2 State.reset 0x0123 (by decide) (by decide)).imp fun _ e => e.1,
    (h.2 { State.reset with sp := 0x101 } 0x0123 (by decide) (by decide)).imp fun _ e => e.1⟩

theorem witness_RegisterMoves : Obligations.RegisterMoves →
    (∃ t, exec (.mov 31 0) (atPc 0x3FFE) = .next t) ∧
    ∃ t, exec (.movw 30 0) (atPc 0x3FFE) = .next t :=
  fun h => ⟨⟨_, (h 31 0 0 (atPc 0x3FFE) (by decide)).1⟩,
    ⟨_, (h 30 0 0 (atPc 0x3FFE) (by decide)).2.1 (by decide) (by decide)⟩⟩

/-- Reset with the pointer `p` at `a` and `pc` at the last place with a next word. -/
def pointing (p : Pointer) (a : Word) : State := (atPc 0x3FFE).setPtr p a

theorem witness_LoadResult : Obligations.LoadResult →
    (∃ t, exec (.lds 0 0x1F) (atPc 0x3FFD) = .next t) ∧
    (∃ t, exec (.lds 0 0x89) (atPc 0) = .next t) ∧
    (∃ t, exec (.ldX 0) (pointing .x 0x100) = .next t) ∧
    ∃ t, exec (.lddZ 0 63) (pointing .z 0x8C0) = .next t :=
  fun h => ⟨
    let ⟨_, _, e⟩ := h 0 0x1F 0 (atPc 0x3FFD) _ _ _ (.head _) (by decide) (by decide); ⟨_, e.2⟩,
    let ⟨_, _, e⟩ := h 0 0x89 0 (atPc 0) _ _ _ (.head _) (by decide) (by decide); ⟨_, e.2⟩,
    let ⟨_, _, e⟩ := h 0 0 0 (pointing .x 0x100) (.ldX 0) _ _ (.tail _ (.head _)) (by decide)
      (by decide); ⟨_, e.2⟩,
    let ⟨_, _, e⟩ := h 0 0 63 (pointing .z 0x8C0) (.lddZ 0 63) _ _
      (.tail _ (.tail _ (.tail _ (.tail _ (.tail _ (.head _)))))) (by decide) (by decide)
    ⟨_, e.2⟩⟩

theorem witness_LoadStepResult : Obligations.LoadStepResult →
    (∃ t, exec (.ldXInc 25) (pointing .x 0x19) = .next t) ∧
    (∃ t, exec (.ldZInc 0) (pointing .z 0x8FF) = .next t) ∧
    (∃ t, exec (.ldXDec 28) (pointing .x 0x1D) = .next t) ∧
    ∃ t, exec (.ldYDec 0) (pointing .y 0x101) = .next t :=
  fun h => ⟨
    let ⟨_, _, e⟩ := h.1 25 (pointing .x 0x19) _ _ (.head _) (by decide) (by decide) (by decide)
      (by decide); ⟨_, e.2⟩,
    let ⟨_, _, e⟩ := h.1 0 (pointing .z 0x8FF) (.ldZInc 0) .z (.tail _ (.tail _ (.head _)))
      (by decide) (by decide) (by decide) (by decide); ⟨_, e.2⟩,
    let ⟨_, _, e⟩ := h.2 28 (pointing .x 0x1D) _ _ (.head _) (by decide) (by decide) (by decide)
      (by decide); ⟨_, e.2⟩,
    let ⟨_, _, e⟩ := h.2 0 (pointing .y 0x101) (.ldYDec 0) .y (.tail _ (.head _)) (by decide)
      (by decide) (by decide) (by decide); ⟨_, e.2⟩⟩

theorem witness_StoreResult : Obligations.StoreResult →
    (∃ t, exec (.sts 0x8FF 0) (atPc 0x3FFD) = .next t) ∧
    (∃ t, exec (.sts 0x81 0) (atPc 0) = .next t) ∧
    ∃ t, exec (.stdY 63 0) (pointing .y 0xC1) = .next t :=
  fun h => ⟨
    let ⟨_, e⟩ := h 0 0x8FF 0 (atPc 0x3FFD) _ _ _ (.head _) (by decide) (by decide); ⟨_, e.2.1⟩,
    let ⟨_, e⟩ := h 0 0x81 0 (atPc 0) _ _ _ (.head _) (by decide) (by decide); ⟨_, e.2.1⟩,
    let ⟨_, e⟩ := h 0 0 63 (pointing .y 0xC1) (.stdY 63 0) _ _
      (.tail _ (.tail _ (.tail _ (.tail _ (.head _))))) (by decide) (by decide); ⟨_, e.2.1⟩⟩

theorem witness_StoreStepResult : Obligations.StoreStepResult →
    (∃ t, exec (.stXInc 28) (pointing .x 0x1C) = .next t) ∧
    (∃ t, exec (.stZInc 0) (pointing .z 0x8FF) = .next t) ∧
    ∃ t, exec (.stYDec 0) (pointing .y 0x101) = .next t :=
  fun h => ⟨
    let ⟨_, e⟩ := h.1 28 (pointing .x 0x1C) _ _ (.head _) (by decide) (by decide) (by decide)
      (by decide); ⟨_, e.2.1⟩,
    let ⟨_, e⟩ := h.1 0 (pointing .z 0x8FF) (.stZInc 0) .z (.tail _ (.tail _ (.head _)))
      (by decide) (by decide) (by decide) (by decide); ⟨_, e.2.1⟩,
    let ⟨_, e⟩ := h.2 0 (pointing .y 0x101) (.stYDec 0) .y (.tail _ (.head _)) (by decide)
      (by decide) (by decide) (by decide); ⟨_, e.2.1⟩⟩

theorem witness_PointerOverlapStops : Obligations.PointerOverlapStops →
    exec (.ldXInc 26) (pointing .x 0x100) = .refused .pointerOverlap ∧
    exec (.stXInc 27) (pointing .x 0x100) = .refused .pointerOverlap ∧
    exec (.ldXInc 0) (pointing .x 0x1B) = .refused .pointerOverlap ∧
    exec (.ldXDec 0) (pointing .x 0x1B) = .refused .pointerOverlap ∧
    exec (.lpmZInc 31) State.reset = .refused .pointerOverlap :=
  fun h => ⟨h.1 26 (pointing .x 0x100) _ _ (.head _) (.inl rfl),
    h.1 27 (pointing .x 0x100) (.stXInc 27) .x (.tail _ (.tail _ (.tail _ (.head _))))
      (.inr (.inl rfl)),
    h.1 0 (pointing .x 0x1B) _ _ (.head _) (.inr (.inr (.inr (by decide)))),
    h.2.1 0 (pointing .x 0x1B) _ _ (.head _) (.inr (.inr (.inl (by decide)))),
    h.2.2 31 State.reset (.inr rfl)⟩

theorem witness_AccessStops : Obligations.AccessStops →
    exec (.lds 0 0x20) State.reset = .refused (.undescribedIO 0x20) ∧
    exec (.lds 0 0xFF) State.reset = .refused (.undescribedIO 0xFF) ∧
    exec (.lds 0 0x900) State.reset = .refused (.beyondRamend 0x900) ∧
    exec (.ldXInc 0) (pointing .x 0x900) = .refused (.beyondRamend 0x900) ∧
    exec (.sts 0x81 16) (State.reset.setReg 16 0x10) = .refused (.undescribedIO 0x81) ∧
    exec (.sts 0x900 0) State.reset = .refused (.beyondRamend 0x900) ∧
    exec (.stXDec 0) (pointing .x 0x100) = .refused (.undescribedIO 0xFF) :=
  fun h => ⟨
    ((h 0 0x20 0 State.reset _ .x _).1 (.inl (.head _)) (by decide)).1 (by decide),
    ((h 0 0xFF 0 State.reset _ .x _).1 (.inl (.head _)) (by decide)).1 (by decide),
    ((h 0 0x900 0 State.reset _ .x _).1 (.inl (.head _)) (by decide)).2 (by decide),
    ((h 0 0 0 (pointing .x 0x900) (.ldXInc 0) .x 0x900).1 (.inr ⟨by decide, .head _⟩)
      (by decide)).2 (by decide),
    ((h 16 0x81 0 (State.reset.setReg 16 0x10) _ .x _).2 (.inl (.head _)) (by decide)).1
      (by decide),
    ((h 0 0x900 0 State.reset _ .x _).2 (.inl (.head _)) (by decide)).2 (by decide),
    ((h 0 0 0 (pointing .x 0x100) (.stXDec 0) .x 0xFF).2
      (.inr ⟨by decide, .tail _ (.tail _ (.tail _ (.head _)))⟩) (by decide)).1 (by decide)⟩

/-- The last program word holds 0xBEEF. -/
def lastWord (z : Word) : State := (State.reset.storeWord 0x3FFF 0xBEEF).setPtr .z z

theorem witness_LpmResult : Obligations.LpmResult →
    (∃ t, exec .lpm (lastWord 0x7FFF) = .next t) ∧
    (∃ t, exec (.lpmZInc 29) (lastWord 0x7FFE) = .next t) ∧
    exec .lpm (lastWord 0x8000) = .refused (.progAddressOutOfRange 0x8000) ∧
    exec (.lpmZInc 29) (lastWord 0x7FFD) = .refused (.fetchOfUndefinedWord 0x3FFE) :=
  fun h => ⟨⟨_, ((h 0 (lastWord 0x7FFF) 0xBEEF (by decide)).1 (by decide) (by decide)).1⟩,
    ⟨_, ((h 29 (lastWord 0x7FFE) 0xBEEF (by decide)).1 (by decide) (by decide)).2.2 (by decide)
      (by decide)⟩,
    ((h 0 (lastWord 0x8000) 0 (by decide)).2 .lpm (.inl rfl)).1 (by decide),
    ((h 29 (lastWord 0x7FFD) 0 (by decide)).2 (.lpmZInc 29)
      (.inr (.inr ⟨rfl, by decide, by decide⟩))).2 (by decide) (.inl (by decide))⟩

theorem witness_InOutResult : Obligations.InOutResult →
    (∃ t, exec (.ioIn 0 0x3F) (atPc 0x3FFE) = .next t) ∧
    (∃ t, exec (.ioOut 0x16 0) (atPc 0x3FFE) = .next t) ∧
    exec (.ioIn 0 0x3C) (atPc 0) = .refused (.undescribedIO 0x5C) :=
  fun h => ⟨
    let ⟨_, _, e⟩ := (h 0 0x3F (atPc 0x3FFE) (by decide)).1 (by decide); ⟨_, e.2⟩,
    let ⟨_, e⟩ := (h 0 0x16 (atPc 0x3FFE) (by decide)).2.1 (by decide); ⟨_, e.2⟩,
    ((h 0 0x3C (atPc 0) (by decide)).2.2 (by decide)).1⟩

theorem witness_PushPopResult : Obligations.PushPopResult →
    (∃ t, exec (.push 0) (atPc 0x3FFE) = .next t) ∧
    (∃ t, exec (.pop 0) { State.reset with sp := 0xFFFF } = .next t) ∧
    ∃ t, exec (.push 0) (atPc 0x3FFD) = .next t :=
  fun h => ⟨
    let ⟨_, e⟩ := (h 0 0 (atPc 0x3FFE) (by decide)).1 (by decide); ⟨_, e.2.1⟩,
    let ⟨_, _, e⟩ := (h 0 0 { State.reset with sp := 0xFFFF } (by decide)).2.1 (by decide)
    ⟨_, e.2⟩,
    let ⟨_, e⟩ := (h 0 0 (atPc 0x3FFD) (by decide)).2.2 (by decide) (by decide); ⟨_, e.1⟩⟩

theorem witness_SbiCbiResult : Obligations.SbiCbiResult →
    (∃ t, exec (.sbi 0x16 7) (atPc 0x3FFE) = .next t) ∧
    exec (.sbi 0x15 0) (atPc 0) = .refused (.undescribedIO 0x35) ∧
    exec (.cbi 0x1F 0) (atPc 0) = .refused (.undescribedIO 0x3F) :=
  fun h => ⟨⟨_, ((h 0 7 (atPc 0x3FFE)).1 (by decide)).1⟩,
    ((h 0x15 0 (atPc 0)).2 (by decide)).1, ((h 0x1F 0 (atPc 0)).2 (by decide)).2⟩

theorem witness_FlagBits : Obligations.FlagBits →
    (∃ t, exec .sec (atPc 0x3FFE) = .next t) ∧ encode .cli = [0x94F8] :=
  fun h => ⟨⟨_, (h.1 (atPc 0x3FFE) (by decide)).1 _ _ (.head _)⟩, h.2 .cli 7 1 (by decide)⟩

theorem witness_SystemResult : Obligations.SystemResult →
    ∃ t, exec .sleep (atPc 0x3FFE) = .next t :=
  fun h => ⟨_, (h (atPc 0x3FFE) (by decide)).2.2⟩

theorem witness_AddResult : Obligations.AddResult → ∃ t, exec (.add 0 31) (atPc 0x3FFE) = .next t :=
  fun h => ⟨_, h 0 31 (atPc 0x3FFE) _ _ _ (.head _) (by decide)⟩

theorem witness_SubResult : Obligations.SubResult → ∃ t, exec (.sub 0 31) (atPc 0x3FFE) = .next t :=
  fun h => ⟨_, h 0 31 0 (atPc 0x3FFE) _ _ _ _ (.head _) (by decide)⟩

theorem witness_CompareResult : Obligations.CompareResult →
    ∃ t, exec (.cp 0 31) (atPc 0x3FFE) = .next t :=
  fun h => ⟨_, h 0 31 0 (atPc 0x3FFE) _ _ _ _ (.head _) (by decide)⟩

/-- Both instructions complete, one after the other. -/
theorem next_of_completes_twice {i j : Instr} {s : State}
    (h : (match exec i s with | .next t => completes j t | _ => false) = true) :
    ∃ t u, exec i s = .next t ∧ exec j t = .next u := by
  split at h
  · obtain ⟨u, e⟩ := next_of_completes h
    exact ⟨_, u, ‹_›, e⟩
  · cases h

theorem witness_CompareTable : Obligations.CompareTable →
    (∃ t, exec (.cp 0 31) (atPc 0) = .next t ∧ t.sreg.z = true) ∧
    ∃ t u, exec (.cp 0 2) (atPc 0) = .next t ∧ exec (.cpc 1 3) t = .next u ∧ u.sreg.z = true := by
  intro h
  obtain ⟨t, e⟩ := next_of_completes (i := .cp 0 31) (s := atPc 0) (by decide)
  obtain ⟨u, v, e1, e2⟩ :=
    next_of_completes_twice (i := .cp 0 2) (j := .cpc 1 3) (s := atPc 0) (by decide)
  exact ⟨⟨t, e, (h.1 0 31 0 (atPc 0) t _ _ (.head _) e).2.1.mpr (by decide)⟩,
    u, v, e1, e2, (h.2 0 1 2 3 (atPc 0) u v e1 e2).2.1.mpr (by decide)⟩

theorem witness_LogicResult : Obligations.LogicResult →
    ∃ t, exec (.and 0 31) (atPc 0x3FFE) = .next t :=
  fun h => ⟨_, h 0 31 0 (atPc 0x3FFE) _ _ _ (.head _) (by decide)⟩

theorem witness_NegResult : Obligations.NegResult → ∃ t, exec (.neg 31) (atPc 0x3FFE) = .next t :=
  fun h => let ⟨_, e⟩ := h 31 (atPc 0x3FFE) (by decide); ⟨_, e⟩

theorem witness_IncDecResult : Obligations.IncDecResult →
    ∃ t, exec (.dec 31) (atPc 0x3FFE) = .next t :=
  fun h => ⟨_, (h 31 (atPc 0x3FFE) (by decide)).2⟩

theorem witness_WordResult : Obligations.WordResult →
    (∃ t, exec (.adiw 24 63) (atPc 0x3FFE) = .next t) ∧ ∃ t, exec (.sbiw 30 0) (atPc 0) = .next t :=
  fun h => ⟨⟨_, (h 24 63 (atPc 0x3FFE) (by decide) (by decide)).1⟩,
    ⟨_, (h 30 0 (atPc 0) (by decide) (by decide)).2⟩⟩

theorem witness_MulResult : Obligations.MulResult → ∃ t, exec (.mul 0 31) (atPc 0x3FFE) = .next t :=
  fun h => ⟨_, h 0 31 (atPc 0x3FFE) _ _ (.head _) (by decide)⟩

theorem witness_ShiftResult : Obligations.ShiftResult →
    ∃ t, exec (.lsr 31) (atPc 0x3FFE) = .next t :=
  fun h => ⟨_, h 31 (atPc 0x3FFE) _ _ (.head _) (by decide)⟩

/-- The first and the last target, and the first outside on each side. -/
theorem witness_JumpResult : Obligations.JumpResult →
    (∃ t, exec (.rjmp (-1)) (atPc 0) = .next t) ∧ (∃ t, exec (.rjmp 0) (atPc 0x3FFE) = .next t) ∧
    exec (.rjmp (-2)) (atPc 0) = .refused (.pcOutOfRange (-1)) ∧
    exec (.rjmp 0) (atPc 0x3FFF) = .refused (.pcOutOfRange 0x4000) :=
  fun h => ⟨⟨_, (h (-1) 0 (atPc 0) _ _ _ (.head _)).1 (by decide) (by decide)⟩,
    ⟨_, (h 0 0 (atPc 0x3FFE) _ _ _ (.head _)).1 (by decide) (by decide)⟩,
    (h (-2) 0 (atPc 0) _ _ _ (.head _)).2 (by decide),
    (h 0 0 (atPc 0x3FFF) _ _ _ (.head _)).2 (by decide)⟩

theorem witness_CallResult : Obligations.CallResult →
    (∃ t, exec (.rcall (-1)) (atPc 0) = .next t) ∧
    exec (.call 0x4000) (atPc 0) = .refused (.pcOutOfRange 0x4000) ∧
    exec (.rcall 0) { State.reset with sp := 0x900 } = .refused (.beyondRamend 0x900) :=
  fun h => ⟨⟨_, (h (-1) 0 (atPc 0) _ _ _ _ (.head _)).2.2 (by decide) (by decide) (by decide)
      (by decide)⟩,
    ((h 0 0x4000 (atPc 0) (.call 0x4000) _ _ _ (.tail _ (.head _))).1
      { atPc 0 with sp := 0x8FD, sram := [(0x8FE, 0), (0x8FF, 2)] } (by decide)).2 (by decide),
    (h 0 0 { State.reset with sp := 0x900 } _ _ _ _ (.head _)).2.1 (.beyondRamend 0x900)
      (by decide)⟩

/-- Every clause: no skip, a skip of one and of two words, and the ends of program memory. -/
theorem witness_SkipResult : Obligations.SkipResult →
    (∃ t, exec (.cpse 0 16) ((atPc 0x3FFE).setReg 16 1) = .next t) ∧
    exec (.cpse 0 16) ((atPc 0x3FFF).setReg 16 1) = .refused (.pcOutOfRange 0x4000) ∧
    (∃ t, exec (.cpse 0 0) (machine [0, 0]) = .next t) ∧
    (∃ t, exec (.cpse 0 0) (machine [0, 0x940C]) = .next t) ∧
    exec (.cpse 0 0) ((atPc 0x3FFE).storeWord 0x3FFF 0x940C) = .refused (.pcOutOfRange 0x4001) ∧
    exec (.cpse 0 0) (atPc 0) = .refused (.fetchOfUndefinedWord 1) :=
  fun h => ⟨⟨_, ((h 0 16 0 ((atPc 0x3FFE).setReg 16 1) _ _ (.head _)).1 (by decide)).1 (by decide)⟩,
    ((h 0 16 0 ((atPc 0x3FFF).setReg 16 1) _ _ (.head _)).1 (by decide)).2 (by decide),
    ⟨_, ((h 0 0 0 (machine [0, 0]) _ _ (.head _)).2.2 rfl 0 2 (by decide) (by decide)).1
      (by decide)⟩,
    ⟨_, ((h 0 0 0 (machine [0, 0x940C]) _ _ (.head _)).2.2 rfl 0x940C 3 (by decide) (by decide)).1
      (by decide)⟩,
    ((h 0 0 0 ((atPc 0x3FFE).storeWord 0x3FFF 0x940C) _ _ (.head _)).2.2 rfl 0x940C 3 (by decide)
      (by decide)).2 (by decide),
    (h 0 0 0 (atPc 0) _ _ (.head _)).2.1 rfl (.fetchOfUndefinedWord 1) (by decide)⟩

/-- Every clause, as for the other skips: `SBIS` on OCF1A clear does not skip, `SBIC` does. -/
theorem witness_IoSkipResult : Obligations.IoSkipResult →
    (∃ t, exec (.sbis 0x16 1) (atPc 0x3FFE) = .next t) ∧
    exec (.sbis 0x16 1) (atPc 0x3FFF) = .refused (.pcOutOfRange 0x4000) ∧
    (∃ t, exec (.sbic 0x16 1) (machine [0, 0]) = .next t) ∧
    (∃ t, exec (.sbic 0x16 1) (machine [0, 0x940C]) = .next t) ∧
    exec (.sbic 0x16 1) ((atPc 0x3FFE).storeWord 0x3FFF 0x940C) = .refused (.pcOutOfRange 0x4001) ∧
    exec (.sbic 0x16 1) (atPc 0) = .refused (.fetchOfUndefinedWord 1) ∧
    exec (.sbic 0x15 0) (atPc 0) = .refused (.undescribedIO 0x35) := by
  intro h
  have stays : ∀ s : State, s.ocf1a = false → _ := fun s hs =>
    let ⟨⟨b, hb, _, _, hi⟩, _⟩ := h 0 1 s
    hi (.sbis 0x16 1) b (.tail _ (.head _)) |>.1 ((hb rfl).trans hs)
  have skips : ∀ s : State, s.ocf1a = false → ∃ b : Bool, (!b) = true ∧ _ := fun s hs =>
    let ⟨⟨b, hb, _, _, hi⟩, _⟩ := h 0 1 s
    ⟨b, by rw [hb rfl, hs]; rfl, hi (.sbic 0x16 1) (!b) (.head _) |>.2⟩
  exact ⟨⟨_, (stays (atPc 0x3FFE) rfl).1 (by decide)⟩, (stays (atPc 0x3FFF) rfl).2 (by decide),
    let ⟨_, e, k⟩ := skips (machine [0, 0]) rfl
    ⟨_, (k.2 e 0 2 (by decide) (by decide)).1 (by decide)⟩,
    let ⟨_, e, k⟩ := skips (machine [0, 0x940C]) rfl
    ⟨_, (k.2 e 0x940C 3 (by decide) (by decide)).1 (by decide)⟩,
    let ⟨_, e, k⟩ := skips ((atPc 0x3FFE).storeWord 0x3FFF 0x940C) rfl
    (k.2 e 0x940C 3 (by decide) (by decide)).2 (by decide),
    let ⟨_, e, k⟩ := skips (atPc 0) rfl
    k.1 e (.fetchOfUndefinedWord 1) (by decide),
    ((h 0x15 0 (atPc 0)).2 (by decide)).1⟩

theorem witness_BranchResult : Obligations.BranchResult →
    (∃ t, exec (.breq 0) (atPc 0x3FFE) = .next t) ∧
    exec (.breq 0) (atPc 0x3FFF) = .refused (.pcOutOfRange 0x4000) ∧
    (∃ t, exec (.brne (-1)) (atPc 0) = .next t) ∧ (∃ t, exec (.brne 0) (atPc 0x3FFE) = .next t) ∧
    exec (.brne (-2)) (atPc 0) = .refused (.pcOutOfRange (-1)) ∧
    exec (.brne 0) (atPc 0x3FFF) = .refused (.pcOutOfRange 0x4000) :=
  fun h => ⟨⟨_, ((h 0 (atPc 0x3FFE) _ _ (.head _)).1 rfl).1 (by decide)⟩,
    ((h 0 (atPc 0x3FFF) _ _ (.head _)).1 rfl).2 (by decide),
    ⟨_, (h (-1) (atPc 0) (.brne (-1)) _ (.tail _ (.head _))).2.1 rfl (by decide) (by decide)⟩,
    ⟨_, (h 0 (atPc 0x3FFE) (.brne 0) _ (.tail _ (.head _))).2.1 rfl (by decide) (by decide)⟩,
    (h (-2) (atPc 0) (.brne (-2)) _ (.tail _ (.head _))).2.2 rfl (by decide),
    (h 0 (atPc 0x3FFF) (.brne 0) _ (.tail _ (.head _))).2.2 rfl (by decide)⟩

theorem witness_SignedBranchResult : Obligations.SignedBranchResult →
    (∃ t, exec (.brge 63) (atPc 0) = .next t) ∧ (∃ t, exec (.brlt 63) (atPc 0x3FFE) = .next t) ∧
    exec (.brlt 0) (atPc 0x3FFF) = .refused (.pcOutOfRange 0x4000) ∧
    exec (.brge 0) (atPc 0x3FFF) = .refused (.pcOutOfRange 0x4000) ∧
    exec (.brge 0) ((atPc 0).setSreg (.ofByte 4)) = .refused .signFlagMismatch :=
  fun h => ⟨⟨_, ((h 63 (atPc 0) _ _ (.head _)).1 rfl).2.1 rfl (by decide) (by decide)⟩,
    ⟨_, (((h 63 (atPc 0x3FFE) (.brlt 63) _ (.tail _ (.head _))).1 rfl).1 rfl).1 (by decide)⟩,
    (((h 0 (atPc 0x3FFF) (.brlt 0) _ (.tail _ (.head _))).1 rfl).1 rfl).2 (by decide),
    ((h 0 (atPc 0x3FFF) _ _ (.head _)).1 rfl).2.2 rfl (by decide),
    (h 0 ((atPc 0).setSreg (.ofByte 4)) _ _ (.head _)).2 (by decide)⟩

/-- One completed instruction meets the premises of the frames: a store, with what it leaves alone. -/
theorem witness_frames : Obligations.MemoryFrame → Obligations.RegisterFrame →
    Obligations.FlagFrame → Obligations.SpecialRegisterFrame → Obligations.SequentialAdvance →
    ∃ t, exec (.push 0) filled = .next t ∧ t.sram.read 0x100 = some 1 ∧ t.reg 31 = 0 ∧
      t.sreg = .zero ∧ t.tcnt1 = 0 ∧ t.pc.toNat = 1 := by
  intro h1 h2 h3 h4 h5
  obtain ⟨t, e⟩ := next_of_completes (i := .push 0) (s := filled) (by decide)
  exact ⟨t, e, (h1 _ _ _ e).1 0x100 (by decide), h2 _ _ _ 31 e (by decide) (by decide),
    h3 _ _ _ e rfl (by decide), (h4 _ _ _ e (by decide)).2.1, (h5 _ _ _ e).2 1 rfl⟩

end Sys2Proof.Tests
end

section
/-! SUPPORT. The frame of every instruction over SRAM, program memory and the general registers
(spec/00_scope.md R10, spec/20_memory.md R65, R83, R85): one relation between the state before and the
state after, kept by each operation an instruction is made of. -/

namespace Sys2Proof.Machine

/-! ### The relation -/

/-- What an instruction that stores to the addresses `A` and has the destinations `D` leaves alone. A
general register can be reached both ways: as a destination, and by a store to its data address. -/
structure SameOutside (A : List Nat) (D : List Reg) (s t : State) : Prop where
  sram : ∀ b, b ∉ A → t.sram.read b = s.sram.read b
  flash : t.flash = s.flash
  reg : ∀ r, r ∉ D → r.val ∉ A → t.reg r = s.reg r

/-- Every result of the operation, if it has one, agrees with `s` outside `A` and `D`. -/
def Res.KeepsOutside (A : List Nat) (D : List Reg) (s : State) (x : Res State) : Prop :=
  ∀ t, x = .ok t → SameOutside A D s t

variable {A B : List Nat} {D : List Reg} {s t u : State}

namespace SameOutside

theorem refl : SameOutside A D s s := ⟨fun _ _ => rfl, rfl, fun _ _ _ => rfl⟩

theorem trans (h : SameOutside A D s t) (h' : SameOutside A D t u) : SameOutside A D s u where
  sram b hb := (h'.sram b hb).trans (h.sram b hb)
  flash := h'.flash.trans h.flash
  reg r hd ha := (h'.reg r hd ha).trans (h.reg r hd ha)

theorem mono (h : SameOutside A D s t) (hAB : A ⊆ B) : SameOutside B D s t where
  sram b hb := h.sram b fun m => hb (hAB m)
  flash := h.flash
  reg r hd hb := h.reg r hd fun m => hb (hAB m)

/-- The fields the relation speaks of. -/
theorem congr (h : SameOutside A D s t) (hsram : u.sram = t.sram) (hflash : u.flash = t.flash)
    (hregs : u.regs = t.regs) : SameOutside A D s u where
  sram b hb := by rw [hsram, h.sram b hb]
  flash := hflash.trans h.flash
  reg r hd ha := by rw [State.reg, hregs]; exact h.reg r hd ha

theorem setReg (h : SameOutside A D s t) {d : Reg} (v : Byte) (hd : d ∈ D) :
    SameOutside A D s (t.setReg d v) where
  sram := h.sram
  flash := h.flash
  reg r hr ha := by
    have hrd : r ≠ d := fun e => hr (e ▸ hd)
    rw [State.reg_setReg_other t v hrd, h.reg r hr ha]

theorem setPair (h : SameOutside A D s t) {lo : Reg} (v : Word) (hlo : lo ∈ D) (hhi : lo + 1 ∈ D) :
    SameOutside A D s (t.setPair lo v) :=
  (h.setReg (lowByte v) hlo).setReg (highByte v) hhi

theorem memRead (h : SameOutside A D s t) {a : Nat} {v : Byte} (hr : memRead a t = .ok (v, u)) :
    SameOutside A D s u := by
  obtain ⟨x, y, rfl⟩ := memRead_frame hr
  exact h.congr rfl rfl rfl

/-- A store changes its own address only, be it an SRAM byte or a general register. -/
theorem memWrite (h : SameOutside A D s t) {a : Nat} {v : Byte} (ha : a ∈ A)
    (hw : memWrite a v t = .ok u) : SameOutside A D s u where
  sram b hb := by
    have hba : b ≠ a := fun e => hb (e ▸ ha)
    rw [memWrite_sram_inv hw, ← h.sram b hb]
    split
    · exact Memory.read_write_other _ v hba
    · rfl
  flash := (memWrite_frame hw).1.trans h.flash
  reg r hd hr := by
    have hra : r.val ≠ a := fun e => hr (e ▸ ha)
    rw [memWrite_reg hw, if_neg hra, h.reg r hd hr]

end SameOutside

/-! ### Sequencing -/

namespace Res.KeepsOutside

theorem ok (h : SameOutside A D s t) : Res.KeepsOutside A D s (.ok t) := by
  rintro _ ⟨⟩; exact h

theorem error (e : Refusal) : Res.KeepsOutside A D s (.error e) := by
  rintro _ ⟨⟩

theorem ite {p : Prop} [Decidable p] {x y : Res State} (hx : Res.KeepsOutside A D s x)
    (hy : Res.KeepsOutside A D s y) : Res.KeepsOutside A D s (if p then x else y) := by
  split <;> assumption

/-- A first part with any kind of result. -/
theorem ofBind {α : Type} {x : Res α} {f : α → Res State}
    (hf : ∀ a, x = .ok a → Res.KeepsOutside A D s (f a)) : Res.KeepsOutside A D s (x >>= f) := by
  intro t h
  obtain ⟨a, ha, hfa⟩ := Res.bind_ok_iff.mp h
  exact hf a ha t hfa

theorem bind {x : Res State} {f : State → Res State} (hx : Res.KeepsOutside A D s x)
    (hf : ∀ t, SameOutside A D s t → Res.KeepsOutside A D s (f t)) :
    Res.KeepsOutside A D s (x >>= f) :=
  ofBind fun t ht => hf t (hx t ht)

end Res.KeepsOutside

/-- A completed instruction is a result of its operation. -/
theorem SameOutside.of_finish {x : Res State} (h : finish x = .next t) (hx : Res.KeepsOutside A D s x) :
    SameOutside A D s t :=
  hx t (finish_next_iff.mp h)

/-! ### The program counter -/

theorem goto_keepsOutside {target : Int} {c : Nat} (h : SameOutside A D s t) :
    Res.KeepsOutside A D s (goto target c t) := by
  intro u hu
  obtain ⟨-, -, rfl⟩ := goto_ok_iff.mp hu
  exact h.congr rfl rfl rfl

theorem advance_keepsOutside {n c : Nat} (h : SameOutside A D s t) :
    Res.KeepsOutside A D s (advance n c t) :=
  goto_keepsOutside h

/-- An operation, then the sequential end. -/
theorem Res.KeepsOutside.thenAdvance {x : Res State} {n c : Nat} (hx : Res.KeepsOutside A D s x) :
    Res.KeepsOutside A D s (x >>= fun t => advance n c t) :=
  hx.bind fun _ ht => advance_keepsOutside ht

theorem branchIf_keepsOutside {cond : Bool} {k : BitVec 7} :
    Res.KeepsOutside A D s (branchIf cond k s) := by
  intro t ht
  obtain ⟨p, n, rfl⟩ := branchIf_frame ht
  exact SameOutside.refl.congr rfl rfl rfl

theorem branchSigned_keepsOutside {cond : Bool} {k : BitVec 7} :
    Res.KeepsOutside A D s (branchSigned cond k s) :=
  .ite (.error _) branchIf_keepsOutside

theorem skipIf_keepsOutside {cond : Bool} (h : SameOutside A D s t) :
    Res.KeepsOutside A D s (skipIf cond t) := by
  intro u hu
  obtain ⟨p, n, rfl⟩ := skipIf_frame hu
  exact h.congr rfl rfl rfl

theorem sleepStep_keepsOutside {b : Config.SleepBehaviour} :
    Res.KeepsOutside A D s (sleepStep b s) := by
  cases b with
  | wait => exact advance_keepsOutside (SameOutside.refl.congr rfl rfl rfl)
  | nop => exact advance_keepsOutside .refl

/-! ### Arithmetic and logic -/

theorem advance_setSreg_keepsOutside {f : Sreg} {n c : Nat} (h : SameOutside A D s t) :
    Res.KeepsOutside A D s (advance n c (t.setSreg f)) :=
  advance_keepsOutside (h.congr rfl rfl rfl)

theorem aluEnd_keepsOutside {d : Reg} {v : Byte} {f : Sreg} (h : SameOutside A [d] s t) :
    Res.KeepsOutside A [d] s (aluEnd d v f t) :=
  advance_setSreg_keepsOutside (h.setReg v (.head _))

/-- The end of the instructions that write a register pair and the flags. -/
theorem pairEnd_keepsOutside {lo : Reg} {v : Word} {f : Sreg} {n c : Nat} :
    Res.KeepsOutside A [lo, lo + 1] s (advance n c ((s.setPair lo v).setSreg f)) :=
  advance_setSreg_keepsOutside (SameOutside.refl.setPair v (.head _) (.tail _ (.head _)))

/-! ### Loads -/

theorem load_keepsOutside {d : Reg} {a : Nat} (h : SameOutside A D s t) (hd : d ∈ D) :
    Res.KeepsOutside A D s (load d a t) := by
  intro u hu
  obtain ⟨v, w, hw, rfl⟩ := load_ok_iff.mp hu
  exact (h.memRead hw).setReg v hd

theorem loadInc_keepsOutside {p : Pointer} {d : Reg} :
    Res.KeepsOutside A [d, p.low, p.low + 1] s (loadInc p d s) :=
  .ite (.error _) <| (load_keepsOutside .refl (.head _)).bind fun _ ht =>
    .ok (ht.setPair _ (.tail _ (.head _)) (.tail _ (.tail _ (.head _))))

theorem loadDec_keepsOutside {p : Pointer} {d : Reg} :
    Res.KeepsOutside A [d, p.low, p.low + 1] s (loadDec p d s) :=
  .ite (.error _) <| load_keepsOutside
    (SameOutside.refl.setPair _ (.tail _ (.head _)) (.tail _ (.tail _ (.head _)))) (.head _)

theorem loadProg_keepsOutside {d : Reg} (hd : d ∈ D) : Res.KeepsOutside A D s (loadProg d s) :=
  .ofBind fun v _ => .ok (SameOutside.refl.setReg v hd)

theorem loadProgInc_keepsOutside {d : Reg} :
    Res.KeepsOutside A [d, 30, 31] s (loadProgInc d s) :=
  .ite (.error _) <| (loadProg_keepsOutside (.head _)).bind fun _ ht =>
    .ok (ht.setPair _ (.tail _ (.head _)) (.tail _ (.tail _ (.head _))))

/-! ### Stores -/

theorem memWrite_keepsOutside {a : Nat} {v : Byte} (h : SameOutside A D s t) (ha : a ∈ A) :
    Res.KeepsOutside A D s (memWrite a v t) :=
  fun _ hu => h.memWrite ha hu

theorem storeInc_keepsOutside {p : Pointer} {r : Reg} :
    Res.KeepsOutside [(s.ptr p).toNat] [p.low, p.low + 1] s (storeInc p r s) :=
  .ite (.error _) <| (memWrite_keepsOutside .refl (.head _)).bind fun _ ht =>
    .ok (ht.setPair _ (.head _) (.tail _ (.head _)))

theorem storeDec_keepsOutside {p : Pointer} {r : Reg} :
    Res.KeepsOutside [(decAddress p s).toNat] [p.low, p.low + 1] s (storeDec p r s) :=
  .ite (.error _) <|
    memWrite_keepsOutside (SameOutside.refl.setPair _ (.head _) (.tail _ (.head _))) (.head _)

/-- Both ways of writing a bit (R67) end in a store to the one address. -/
theorem ioBitWrite_keepsOutside {a : Nat} {b : BitNo} {v : Bool} :
    Res.KeepsOutside [a + 0x20] D s (ioBitWrite a b v s) :=
  .ite (memWrite_keepsOutside .refl (.head _)) <|
    .ofBind fun _ hr => memWrite_keepsOutside (SameOutside.refl.memRead hr) (.head _)

/-! ### The stack -/

theorem push_keepsOutside {v : Byte} : Res.KeepsOutside [s.sp.toNat] D s (push v s) :=
  (memWrite_keepsOutside .refl (.head _)).bind fun _ ht => .ok (ht.congr rfl rfl rfl)

theorem pushAddresses_succ {n : Nat} {v : Word} (h : push (lowByte v) s = .ok t) :
    pushAddresses (n + 1) v s = s.sp.toNat :: pushAddresses n (v >>> 8) t := by
  simp only [pushAddresses, h]

/-- SP is read again for each byte, so the addresses of the later pushes are those of the state the
first push leaves. -/
theorem pushBytes_keepsOutside (n : Nat) (v : Word) (s : State) :
    Res.KeepsOutside (pushAddresses n v s) D s (pushBytes n v s) := by
  induction n generalizing v s with
  | zero => exact .ok .refl
  | succ n ih =>
    refine .ofBind fun t ht => ?_
    rw [pushAddresses_succ ht]
    have first : SameOutside (s.sp.toNat :: pushAddresses n (v >>> 8) t) D s t :=
      (push_keepsOutside t ht).mono (by simp)
    exact fun u hu => first.trans ((ih (v >>> 8) t u hu).mono (List.subset_cons_self _ _))

theorem callTo_keepsOutside {target : Int} {words cycles : Nat} :
    Res.KeepsOutside (pushPCAddresses (BitVec.ofNat 16 (s.pcNat + words)) s) D s
      (callTo target words cycles s) :=
  (pushBytes_keepsOutside Config.returnAddressBytes _ s).bind fun _ ht => goto_keepsOutside ht

theorem pop_sameOutside {v : Byte} (h : pop s = .ok (v, t)) : SameOutside A D s t := by
  obtain ⟨x, y, rfl⟩ := pop_frame h
  exact SameOutside.refl.congr rfl rfl rfl

theorem popPC_sameOutside {v : Word} (h : popPC s = .ok (v, t)) : SameOutside A D s t := by
  obtain ⟨x, y, rfl⟩ := popPC_frame h
  exact SameOutside.refl.congr rfl rfl rfl

theorem interruptReturn_keepsOutside : Res.KeepsOutside A D s (interruptReturn s) :=
  .ofBind fun _ hp => goto_keepsOutside ((popPC_sameOutside hp).congr rfl rfl rfl)

/-! ### Every instruction -/

/-- An instruction changes SRAM at most where it stores, no program memory, and no general register but
its destinations and those it stores to. -/
theorem exec_sameOutside {i : Instr} (h : exec i s = .next t) :
    SameOutside (storeAddresses i s) (destinations i) s t := by
  -- The six meanings that begin with a `let` are unfolded here, so that `finish` stands at their head.
  cases i with dsimp only [exec, execCom, execInc, execDec, execNeg, execAdiw, execSbiw] at h
  -- a register or a pair, with or without flags
  | mov | ldi | swap | ser =>
    exact .of_finish h (advance_keepsOutside (SameOutside.refl.setReg _ (.head _)))
  | add | adc | sub | subi | sbc | sbci | and | andi | or | ori | eor | com | inc | dec | clr | lsl
  | lsr | rol | ror | asr =>
    exact .of_finish h (aluEnd_keepsOutside .refl)
  | neg => exact .of_finish h (aluEnd_keepsOutside (SameOutside.refl.congr rfl rfl rfl))
  | movw =>
    exact .of_finish h
      (advance_keepsOutside (SameOutside.refl.setPair _ (.head _) (.tail _ (.head _))))
  | adiw | sbiw | mul | muls | mulsu => exact .of_finish h pairEnd_keepsOutside
  -- flags only, or nothing but `pc`
  | cp | cpc | cpi | sec | sez | sen | sev | ses | seh | setT | clc | clz | cln | clv | cls | clh
  | clt | cli =>
    exact .of_finish h (advance_setSreg_keepsOutside .refl)
  | sei => exact .of_finish h (advance_keepsOutside (SameOutside.refl.congr rfl rfl rfl))
  | nop | wdr => exact .of_finish h (advance_keepsOutside .refl)
  | sleep => exact .of_finish h sleepStep_keepsOutside
  | spm | brk => cases h
  -- loads
  | lds | ldX | ldY | ldZ | lddY | lddZ =>
    exact .of_finish h ((load_keepsOutside .refl (.head _)).thenAdvance)
  | ldXInc | ldYInc | ldZInc => exact .of_finish h loadInc_keepsOutside.thenAdvance
  | ldXDec | ldYDec | ldZDec => exact .of_finish h loadDec_keepsOutside.thenAdvance
  | lpm | lpmZ => exact .of_finish h ((loadProg_keepsOutside (.head _)).thenAdvance)
  | lpmZInc => exact .of_finish h loadProgInc_keepsOutside.thenAdvance
  | ioIn =>
    exact .of_finish h (.ofBind fun _ hr =>
      advance_keepsOutside ((SameOutside.refl.memRead hr).setReg _ (.head _)))
  | pop =>
    exact .of_finish h (.ofBind fun _ hp =>
      advance_keepsOutside ((pop_sameOutside hp).setReg _ (.head _)))
  -- stores
  | sts | stX | stY | stZ | stdY | stdZ | ioOut =>
    exact .of_finish h ((memWrite_keepsOutside .refl (.head _)).thenAdvance)
  | stXInc | stYInc | stZInc => exact .of_finish h storeInc_keepsOutside.thenAdvance
  | stXDec | stYDec | stZDec => exact .of_finish h storeDec_keepsOutside.thenAdvance
  | sbi | cbi => exact .of_finish h ioBitWrite_keepsOutside.thenAdvance
  | push => exact .of_finish h push_keepsOutside.thenAdvance
  -- jumps, calls, returns, skips, branches
  | rjmp | jmp | ijmp => exact .of_finish h (goto_keepsOutside .refl)
  | rcall | call | icall => exact .of_finish h callTo_keepsOutside
  | ret => exact .of_finish h (.ofBind fun _ hp => goto_keepsOutside (popPC_sameOutside hp))
  | reti => exact .of_finish h interruptReturn_keepsOutside
  | cpse | sbrc | sbrs => exact .of_finish h (skipIf_keepsOutside .refl)
  | sbic | sbis =>
    exact .of_finish h (.ofBind fun _ hr => skipIf_keepsOutside (SameOutside.refl.memRead hr))
  | breq | brne | brcs | brcc | brlo | brsh | brmi | brpl | brhs | brhc | brts | brtc | brvs | brvc
  | brie | brid =>
    exact .of_finish h branchIf_keepsOutside
  | brge | brlt => exact .of_finish h branchSigned_keepsOutside

/-! ### The obligations -/

/-- Settles O57: the part of the frame of every instruction that speaks of the two memories. -/
theorem memoryFrame : Obligations.MemoryFrame :=
  fun _ _ _ h => ⟨(exec_sameOutside h).sram, (exec_sameOutside h).flash⟩

/-- Settles O58: the part of the frame of every instruction that speaks of the general registers. -/
theorem registerFrame : Obligations.RegisterFrame :=
  fun _ _ _ r h => (exec_sameOutside h).reg r

end Sys2Proof.Machine
end

section
/-! SUPPORT. What an instruction can do, said once for all 119: the states it passes through, each by an
update that the instruction is entitled to, and the write of `pc` and the cycle count that completes it
(spec/00_scope.md R10, spec/10_state.md R25). The frames of the flags and of the special registers, the
sequential advance and the invariant are inductions over these updates. -/

namespace Sys2Proof.Machine

/-! ### The results of an operation -/

/-- Every result of the operation, if it has one, meets `P`. -/
def Res.All (P : State → Prop) (x : Res State) : Prop := ∀ t, x = .ok t → P t

namespace Res.All

variable {P Q : State → Prop}

theorem ok {t : State} (h : P t) : Res.All P (.ok t) := by
  rintro _ ⟨⟩; exact h

theorem error (e : Refusal) : Res.All P (.error e) := by
  rintro _ ⟨⟩

theorem ite {p : Prop} [Decidable p] {x y : Res State} (hx : Res.All P x) (hy : Res.All P y) :
    Res.All P (if p then x else y) := by
  split <;> assumption

/-- A first part with any kind of result. -/
theorem ofBind {α : Type} {x : Res α} {f : α → Res State}
    (hf : ∀ a, x = .ok a → Res.All P (f a)) : Res.All P (x >>= f) := by
  intro t h
  obtain ⟨a, ha, hfa⟩ := Res.bind_ok_iff.mp h
  exact hf a ha t hfa

theorem bind {x : Res State} {f : State → Res State} (hx : Res.All Q x)
    (hf : ∀ t, Q t → Res.All P (f t)) : Res.All P (x >>= f) :=
  ofBind fun t ht => hf t (hx t ht)

end Res.All

/-! ### The updates an instruction is made of -/

/-- The instructions that move the stack pointer as their effect (R30..R32). -/
def movesSp : Instr → Bool
  | .push _ | .pop _ | .rcall _ | .call _ | .icall | .ret | .reti => true
  | _ => false

/-- The states through which instruction `i` can pass from `s` before it writes `pc`. An update that
only some instructions make asks for that of `i`; a read and a store are of an address `i` names. -/
inductive Passes (i : Instr) (s : State) : State → Prop where
  | start : Passes i s s
  | setReg {t : State} (r : Reg) (v : Byte) : Passes i s t → Passes i s (t.setReg r v)
  | drew {t : State} (n : Nat) : Passes i s t → Passes i s (t.drew n)
  | memRead {t u : State} {a : Nat} {v : Byte} :
      Passes i s t → a ∈ readAddresses i s → memRead a t = .ok (v, u) → Passes i s u
  | memWrite {t u : State} {a : Nat} {v : Byte} :
      Passes i s t → a ∈ storeAddresses i s → memWrite a v t = .ok u → Passes i s u
  | setSreg {t : State} (f : Sreg) :
      Passes i s t → writesFlags i = true → Passes i s (t.setSreg f)
  | setSp {t : State} (p : Word) :
      Passes i s t → movesSp i = true → Passes i s { t with sp := p }
  | inhibit {t : State} :
      Passes i s t → i = .sei ∨ i = .reti → Passes i s { t with inhibit := true }
  | sleep {t : State} : Passes i s t → i = .sleep → Passes i s { t with sleeping := true }

/-- `i` completes from `s` in `t`: after its updates it has written `pc`, past itself if it transfers no
control, and counted at least one cycle (R25, R420). -/
def Completes (i : Instr) (s t : State) : Prop :=
  ∃ (u : State) (p : BitVec 14) (c : Nat), Passes i s u ∧ 0 < c ∧
    (∀ n, sequentialWords i = some n → p.toNat = u.pc.toNat + n) ∧
    t = { u with pc := p, cycles := u.cycles + c }

variable {i : Instr} {s t : State}

/-- A completed instruction is a result of its operation. -/
theorem Completes.of_finish {x : Res State} (h : finish x = .next t)
    (hx : Res.All (Completes i s) x) : Completes i s t :=
  hx t (finish_next_iff.mp h)

theorem Passes.setPair (h : Passes i s t) (lo : Reg) (v : Word) : Passes i s (t.setPair lo v) :=
  (h.setReg lo (lowByte v)).setReg (lo + 1) (highByte v)

/-! ### The program counter -/

/-- The end of an instruction that transfers no control. -/
theorem Passes.advance {n c : Nat} (h : Passes i s t) (hi : sequentialWords i = some n := by rfl)
    (hc : 0 < c := by decide) : Res.All (Completes i s) (advance n c t) := by
  intro u hu
  obtain ⟨hnext, rfl⟩ := advance_ok_iff.mp hu
  refine ⟨t, _, c, h, hc, fun m hm => ?_, rfl⟩
  obtain rfl : n = m := Option.some.inj (hi.symm.trans hm)
  rw [BitVec.toNat_add, BitVec.toNat_ofNat]
  omega

/-- The end of a jump, a call, a return, a branch or a skip. -/
theorem Passes.goto {target : Int} {c : Nat} (h : Passes i s t)
    (hi : sequentialWords i = none := by rfl) (hc : 0 < c := by decide) :
    Res.All (Completes i s) (goto target c t) := by
  intro u hu
  obtain ⟨-, -, rfl⟩ := goto_ok_iff.mp hu
  exact ⟨t, _, c, h, hc, fun n hn => by simp [hi] at hn, rfl⟩

theorem Passes.branchIf {cond : Bool} {k : BitVec 7} (h : Passes i s t)
    (hi : sequentialWords i = none := by rfl) :
    Res.All (Completes i s) (branchIf cond k t) :=
  .ite (h.goto hi) (h.goto hi)

theorem Passes.branchSigned {cond : Bool} {k : BitVec 7} (h : Passes i s t)
    (hi : sequentialWords i = none := by rfl) :
    Res.All (Completes i s) (branchSigned cond k t) :=
  .ite (.error _) (h.branchIf hi)

theorem Passes.skipIf {cond : Bool} (h : Passes i s t)
    (hi : sequentialWords i = none := by rfl) : Res.All (Completes i s) (skipIf cond t) :=
  .ite (.ofBind fun _ _ => .ite (h.goto hi) (h.goto hi)) (h.goto hi)

/-! ### Arithmetic and logic -/

theorem Passes.advanceFlags {f : Sreg} {n c : Nat} (h : Passes i s t)
    (hf : writesFlags i = true := by rfl) (hi : sequentialWords i = some n := by rfl)
    (hc : 0 < c := by decide) : Res.All (Completes i s) (Machine.advance n c (t.setSreg f)) :=
  (h.setSreg f hf).advance hi hc

theorem Passes.aluEnd {d : Reg} {v : Byte} {f : Sreg} (h : Passes i s t)
    (hf : writesFlags i = true := by rfl) (hi : sequentialWords i = some 1 := by rfl) :
    Res.All (Completes i s) (aluEnd d v f t) :=
  (h.setReg d v).advanceFlags hf hi

/-! ### Loads and stores -/

theorem Passes.load {d : Reg} {a : Nat} (h : Passes i s t) (ha : a ∈ readAddresses i s) :
    Res.All (Passes i s) (load d a t) := by
  intro u hu
  obtain ⟨v, w, hw, rfl⟩ := load_ok_iff.mp hu
  exact (h.memRead ha hw).setReg d v

theorem loadInc_passes {p : Pointer} {d : Reg} (ha : (s.ptr p).toNat ∈ readAddresses i s) :
    Res.All (Passes i s) (loadInc p d s) :=
  .ite (.error _) <| (Passes.start.load ha).bind fun _ ht => .ok (ht.setPair _ _)

theorem loadDec_passes {p : Pointer} {d : Reg} (ha : (decAddress p s).toNat ∈ readAddresses i s) :
    Res.All (Passes i s) (loadDec p d s) :=
  .ite (.error _) <| (Passes.start.setPair _ _).load ha

theorem loadProg_passes {d : Reg} : Res.All (Passes i s) (loadProg d s) :=
  .ofBind fun v _ => .ok (Passes.start.setReg d v)

theorem loadProgInc_passes {d : Reg} : Res.All (Passes i s) (loadProgInc d s) :=
  .ite (.error _) <| loadProg_passes.bind fun _ ht => .ok (ht.setPair _ _)

theorem Passes.store {a : Nat} {v : Byte} (h : Passes i s t) (ha : a ∈ storeAddresses i s) :
    Res.All (Passes i s) (Machine.memWrite a v t) :=
  fun _ hu => h.memWrite ha hu

theorem storeInc_passes {p : Pointer} {r : Reg} (ha : (s.ptr p).toNat ∈ storeAddresses i s) :
    Res.All (Passes i s) (storeInc p r s) :=
  .ite (.error _) <| (Passes.start.store ha).bind fun _ ht => .ok (ht.setPair _ _)

theorem storeDec_passes {p : Pointer} {r : Reg} (ha : (decAddress p s).toNat ∈ storeAddresses i s) :
    Res.All (Passes i s) (storeDec p r s) :=
  .ite (.error _) <| (Passes.start.setPair _ _).store ha

/-- Both ways of writing a bit (R67): on TIFR1 a store alone, elsewhere a read and a store. -/
theorem ioBitWrite_passes {a : Nat} {b : BitNo} {v : Bool} (hr : a + 0x20 ∈ readAddresses i s)
    (hw : a + 0x20 ∈ storeAddresses i s) : Res.All (Passes i s) (ioBitWrite a b v s) :=
  .ite (Passes.start.store hw) <| .ofBind fun _ h => (Passes.start.memRead hr h).store hw

/-! ### The stack -/

theorem Passes.push {v : Byte} (h : Passes i s t) (hi : movesSp i = true)
    (ha : t.sp.toNat ∈ storeAddresses i s) : Res.All (Passes i s) (push v t) :=
  (h.store ha).bind fun _ hu => .ok (hu.setSp _ hi)

theorem Passes.pushBytes (hi : movesSp i = true) (n : Nat) (v : Word) {t : State} (h : Passes i s t)
    (ha : pushAddresses n v t ⊆ storeAddresses i s) :
    Res.All (Passes i s) (pushBytes n v t) := by
  induction n generalizing v t with
  | zero => exact .ok h
  | succ n ih =>
    refine .ofBind fun u hu => ?_
    rw [pushAddresses_succ hu] at ha
    obtain ⟨hsp, hrest⟩ := List.cons_subset.mp ha
    exact ih (v >>> 8) (h.push hi hsp u hu) hrest

theorem callTo_completes {target : Int} {words cycles : Nat}
    (ha : storeAddresses i s = pushPCAddresses (BitVec.ofNat 16 (s.pcNat + words)) s := by rfl)
    (hsp : movesSp i = true := by rfl) (hi : sequentialWords i = none := by rfl)
    (hc : 0 < cycles := by decide) :
    Res.All (Completes i s) (callTo target words cycles s) :=
  have pushed := Passes.start.pushBytes hsp Config.returnAddressBytes _ (ha ▸ List.Subset.refl _)
  pushed.bind fun _ ht => ht.goto hi hc

theorem Passes.pop {v : Byte} {u : State} (h : Passes i s t) (hi : movesSp i = true)
    (ha : (t.sp + 1).toNat ∈ readAddresses i s) (hp : pop t = .ok (v, u)) : Passes i s u :=
  (h.setSp (t.sp + 1) hi).memRead ha hp

/-- The two bytes of a return address are read one and two above SP (R32). -/
theorem popPC_passes {v : Word} (hi : movesSp i = true)
    (ha : readAddresses i s = [(s.sp + 1).toNat, (s.sp + 2).toNat])
    (hp : popPC s = .ok (v, t)) : Passes i s t := by
  simp only [popPC_eq, Res.bind_ok_iff, Prod.exists, Except.ok.injEq, Prod.mk.injEq] at hp
  obtain ⟨hb, u, hhi, lb, w, hlo, -, rfl⟩ := hp
  have hu : Passes i s u := Passes.start.pop hi (by simp [ha]) hhi
  obtain ⟨x, y, rfl⟩ := pop_frame hhi
  have hsp : s.sp + 1 + 1 = s.sp + 2 := by rw [BitVec.add_assoc]; rfl
  exact hu.pop hi (by simp only [hsp]; simp [ha]) hlo

/-! ### Every instruction -/

theorem sleep_completes {b : Config.SleepBehaviour} :
    Res.All (Completes .sleep s) (sleepStep b s) := by
  cases b with
  | wait => exact (Passes.start.sleep rfl).advance
  | nop => exact Passes.start.advance

theorem reti_completes : Res.All (Completes .reti s) (interruptReturn s) :=
  .ofBind fun (_, t) hp =>
    have popped : Passes .reti s t := popPC_passes rfl rfl hp
    ((popped.setSreg { t.sreg with i := true } rfl).inhibit (.inr rfl)).goto

/-- An instruction that completes has made its updates and has ended. -/
theorem exec_completes (h : exec i s = .next t) : Completes i s t := by
  -- The six meanings that begin with a `let` are unfolded here, so that `finish` stands at their head.
  cases i with dsimp only [exec, execCom, execInc, execDec, execNeg, execAdiw, execSbiw] at h
  -- a register or a pair, with or without flags
  | mov | ldi | swap | ser => exact .of_finish h (Passes.start.setReg _ _).advance
  | add | adc | sub | subi | sbc | sbci | and | andi | or | ori | eor | com | inc | dec | clr | lsl
  | lsr | rol | ror | asr =>
    exact .of_finish h Passes.start.aluEnd
  | neg => exact .of_finish h (Passes.start.drew 1).aluEnd
  | movw => exact .of_finish h (Passes.start.setPair _ _).advance
  | adiw | sbiw | mul | muls | mulsu => exact .of_finish h (Passes.start.setPair _ _).advanceFlags
  -- flags only, or nothing but `pc`
  | cp | cpc | cpi | sec | sez | sen | sev | ses | seh | setT | clc | clz | cln | clv | cls | clh
  | clt | cli =>
    exact .of_finish h Passes.start.advanceFlags
  | sei => exact .of_finish h ((Passes.start.setSreg _ rfl).inhibit (.inl rfl)).advance
  | nop | wdr => exact .of_finish h Passes.start.advance
  | sleep => exact .of_finish h sleep_completes
  | spm | brk => cases h
  -- loads
  | lds | ldX | ldY | ldZ | lddY | lddZ =>
    exact .of_finish h ((Passes.start.load (.head _)).bind fun _ ht => ht.advance)
  | ldXInc | ldYInc | ldZInc =>
    exact .of_finish h ((loadInc_passes (.head _)).bind fun _ ht => ht.advance)
  | ldXDec | ldYDec | ldZDec =>
    exact .of_finish h ((loadDec_passes (.head _)).bind fun _ ht => ht.advance)
  | lpm | lpmZ => exact .of_finish h (loadProg_passes.bind fun _ ht => ht.advance)
  | lpmZInc => exact .of_finish h (loadProgInc_passes.bind fun _ ht => ht.advance)
  | ioIn =>
    exact .of_finish h (.ofBind fun _ hr =>
      ((Passes.start.memRead (.head _) hr).setReg _ _).advance)
  | pop =>
    exact .of_finish h (.ofBind fun _ hp => ((Passes.start.pop rfl (.head _) hp).setReg _ _).advance)
  -- stores
  | sts | stX | stY | stZ | stdY | stdZ | ioOut =>
    exact .of_finish h ((Passes.start.store (.head _)).bind fun _ ht => ht.advance)
  | stXInc | stYInc | stZInc =>
    exact .of_finish h ((storeInc_passes (.head _)).bind fun _ ht => ht.advance)
  | stXDec | stYDec | stZDec =>
    exact .of_finish h ((storeDec_passes (.head _)).bind fun _ ht => ht.advance)
  | sbi | cbi =>
    exact .of_finish h ((ioBitWrite_passes (.head _) (.head _)).bind fun _ ht => ht.advance)
  | push => exact .of_finish h ((Passes.start.push rfl (.head _)).bind fun _ ht => ht.advance)
  -- jumps, calls, returns, skips, branches
  | rjmp | jmp | ijmp => exact .of_finish h Passes.start.goto
  | rcall | call | icall => exact .of_finish h callTo_completes
  | ret => exact .of_finish h (.ofBind fun _ hp => (popPC_passes rfl rfl hp).goto)
  | reti => exact .of_finish h reti_completes
  | cpse | sbrc | sbrs => exact .of_finish h Passes.start.skipIf
  | sbic | sbis =>
    exact .of_finish h (.ofBind fun _ hr => (Passes.start.memRead (.head _) hr).skipIf)
  | breq | brne | brcs | brcc | brlo | brsh | brmi | brpl | brhs | brhc | brts | brtc | brvs | brvc
  | brie | brid =>
    exact .of_finish h Passes.start.branchIf
  | brge | brlt => exact .of_finish h Passes.start.branchSigned

end Sys2Proof.Machine
end

section
/-! SUPPORT. The advance, the flags and the special registers of every instruction, and the
invariant of every step, each an induction over the updates an instruction is made of. -/

namespace Sys2Proof.Machine

variable {i : Instr} {s t u : State}

/-! ### What an access does to the fields of these statements -/

/-- A read loads TEMP1 only at TCNT1L, from the counter's high byte (R370). -/
theorem memRead_temp1 {a : Nat} {v : Byte} (h : memRead a s = .ok (v, t)) :
    t.temp1 = s.temp1 ∨ a = 0x84 ∧ t.temp1 = highByte s.tcnt1 := by
  simp only [memRead] at h
  split at h <;> (try split at h) <;> simp only [Except.ok.injEq, Prod.mk.injEq, reduceCtorEq] at h <;>
    obtain ⟨-, rfl⟩ := h
  case h_8 hp => exact .inr ⟨tcnt1l_of_place hp, rfl⟩
  all_goals exact .inl rfl

/-! ### The advance (R25, R420) -/

/-- No update moves `pc` or counts a cycle: both belong to the end of the instruction. -/
theorem Passes.keeps_pc_cycles (h : Passes i s t) : t.pc = s.pc ∧ t.cycles = s.cycles := by
  induction h with
  | start => exact ⟨rfl, rfl⟩
  | memRead _ _ hr ih => obtain ⟨x, y, rfl⟩ := memRead_frame hr; exact ih
  | memWrite _ _ hw ih =>
    obtain ⟨-, hpc, hcycles, -⟩ := memWrite_frame hw
    exact ⟨hpc.trans ih.1, hcycles.trans ih.2⟩
  | setReg _ _ _ ih | drew _ _ ih | setSreg _ _ _ ih | setSp _ _ _ ih | inhibit _ _ ih
  | sleep _ _ ih => exact ih

/-- Settles O56: the end of the instruction is the only write of `pc`. -/
theorem sequentialAdvance : Obligations.SequentialAdvance := by
  intro i s t h
  obtain ⟨u, p, c, hu, hc, hp, rfl⟩ := exec_completes h
  obtain ⟨hpc, hcycles⟩ := hu.keeps_pc_cycles
  exact ⟨by show s.cycles < u.cycles + c; omega, fun n hn => hpc ▸ hp n hn⟩

/-! ### The flags (R27, R29) -/

theorem Passes.keeps_sreg (h : Passes i s t) (hf : writesFlags i = false)
    (ha : 0x5F ∉ storeAddresses i s) : t.sreg = s.sreg := by
  induction h with
  | start => rfl
  | memRead _ _ hr ih => obtain ⟨x, y, rfl⟩ := memRead_frame hr; exact ih
  | memWrite _ hmem hw ih => exact (memWrite_sreg hw fun e => ha (e ▸ hmem)).trans ih
  | setSreg _ _ hi => rw [hf] at hi; cases hi
  | setReg _ _ _ ih | drew _ _ ih | setSp _ _ _ ih | inhibit _ _ ih | sleep _ _ ih => exact ih

/-- Settles O59. -/
theorem flagFrame : Obligations.FlagFrame := by
  intro i s t h hf ha
  obtain ⟨u, p, c, hu, -, -, rfl⟩ := exec_completes h
  exact hu.keeps_sreg hf ha

/-! ### The special registers and the hidden state (R36, R39, R40, R72, R370) -/

/-- What instruction `i` can change of the timer, of the special registers and of the hidden state if it
stores to no address below SRAM. -/
structure SpecialFrame (i : Instr) (s t : State) : Prop where
  tccr1b : t.tccr1b = s.tccr1b
  tcnt1 : t.tcnt1 = s.tcnt1
  ocr1a : t.ocr1a = s.ocr1a
  timsk1 : t.timsk1 = s.timsk1
  ocf1a : t.ocf1a = s.ocf1a
  tov1 : t.tov1 = s.tov1
  matchBlocked : t.matchBlocked = s.matchBlocked
  pending : t.pending = s.pending
  agenda : t.agenda = s.agenda
  temp1 : t.temp1 = s.temp1 ∨ 0x84 ∈ readAddresses i s ∧ t.temp1 = highByte s.tcnt1
  sp : t.sp = s.sp ∨ movesSp i = true
  inhibit : t.inhibit = s.inhibit ∨ i = .sei ∨ i = .reti
  sleeping : t.sleeping = s.sleeping ∨ i = .sleep

theorem SpecialFrame.refl : SpecialFrame i s s :=
  ⟨rfl, rfl, rfl, rfl, rfl, rfl, rfl, rfl, rfl, .inl rfl, .inl rfl, .inl rfl, .inl rfl⟩

/-- A read loads TEMP1 from a counter that is still that of the start. -/
theorem SpecialFrame.memRead {a : Nat} {v : Byte} (h : SpecialFrame i s t)
    (ha : a ∈ readAddresses i s) (hr : memRead a t = .ok (v, u)) : SpecialFrame i s u := by
  have loaded : u.temp1 = s.temp1 ∨ 0x84 ∈ readAddresses i s ∧ u.temp1 = highByte s.tcnt1 := by
    rcases memRead_temp1 hr with hkept | ⟨rfl, hload⟩
    · rw [hkept]; exact h.temp1
    · exact .inr ⟨ha, by rw [hload, h.tcnt1]⟩
  obtain ⟨x, y, rfl⟩ := memRead_frame hr
  exact { h with temp1 := loaded }

theorem Passes.specialFrame (h : Passes i s t) (ha : ∀ a ∈ storeAddresses i s, 0x100 ≤ a) :
    SpecialFrame i s t := by
  induction h with
  | start => exact .refl
  | memRead _ hmem hr ih => exact ih.memRead hmem hr
  | memWrite _ hmem hw ih => obtain rfl := memWrite_high (ha _ hmem) hw; exact { ih with }
  | setReg _ _ _ ih | drew _ _ ih | setSreg _ _ _ ih => exact { ih with }
  | setSp _ _ hi ih => exact { ih with sp := .inr hi }
  | inhibit _ hi ih => exact { ih with inhibit := .inr hi }
  | sleep _ hi ih => exact { ih with sleeping := .inr hi }

theorem movesSp_cases (h : movesSp i = true) :
    (∃ r, i = .push r) ∨ (∃ d, i = .pop d) ∨ (∃ k, i = .rcall k) ∨ (∃ k, i = .call k) ∨
      i = .icall ∨ i = .ret ∨ i = .reti := by
  cases i with
  | push r => exact .inl ⟨r, rfl⟩
  | pop d => exact .inr (.inl ⟨d, rfl⟩)
  | rcall k => exact .inr (.inr (.inl ⟨k, rfl⟩))
  | call k => exact .inr (.inr (.inr (.inl ⟨k, rfl⟩)))
  | icall => exact .inr (.inr (.inr (.inr (.inl rfl))))
  | ret => exact .inr (.inr (.inr (.inr (.inr (.inl rfl)))))
  | reti => exact .inr (.inr (.inr (.inr (.inr (.inr rfl)))))
  | _ => cases h

/-- Settles O60. -/
theorem specialRegisterFrame : Obligations.SpecialRegisterFrame := by
  intro i s t h ha
  obtain ⟨u, p, c, hu, -, -, rfl⟩ := exec_completes h
  have hf := hu.specialFrame ha
  exact ⟨hf.tccr1b, hf.tcnt1, hf.ocr1a, hf.timsk1, hf.ocf1a, hf.tov1, hf.matchBlocked, hf.pending,
    hf.agenda, hf.temp1, hf.sp.imp_right movesSp_cases, hf.inhibit, hf.sleeping⟩

/-! ### The invariant (R34, R38, R70, R360, R365) -/

theorem Passes.keeps_inv (h : Passes i s t) (hs : s.Inv) : t.Inv := by
  induction h with
  | start => exact hs
  | memRead _ _ hr ih => exact memRead_keeps_inv hr ih
  | memWrite _ _ hw ih => exact memWrite_keeps_inv hw ih
  | setReg _ _ _ ih | drew _ _ ih | setSreg _ _ _ ih | setSp _ _ _ ih | inhibit _ _ ih
  | sleep _ _ ih => exact ih.congr rfl rfl rfl rfl rfl

theorem exec_keeps_inv (h : exec i s = .next t) (hs : s.Inv) : t.Inv := by
  obtain ⟨u, p, c, hu, -, -, rfl⟩ := exec_completes h
  exact (hu.keeps_inv hs).congr rfl rfl rfl rfl rfl

theorem push_keeps_inv {v : Byte} (hs : s.Inv) : Res.All State.Inv (push v s) := by
  intro t h
  obtain ⟨u, hu, rfl⟩ := push_ok_iff.mp h
  exact (memWrite_keeps_inv hu hs).congr rfl rfl rfl rfl rfl

theorem pushPC_keeps_inv {v : Word} (hs : s.Inv) : Res.All State.Inv (pushPC v s) := by
  rw [pushPC_eq]
  exact (push_keeps_inv hs).bind fun _ ht => push_keeps_inv ht

theorem interruptEntry_keeps_inv {n : Nat} (h : interruptEntry n s = .ok t) (hs : s.Inv) : t.Inv := by
  obtain ⟨-, u, hu, rfl⟩ := interruptEntry_ok_iff.mp h
  exact (pushPC_keeps_inv hs u hu).congr rfl rfl rfl rfl rfl

theorem coreStep_keeps_inv (h : coreStep s = .next t) (hs : s.Inv) : t.Inv := by
  have after : (afterBoundary s).Inv := by
    obtain ⟨d, hd⟩ := afterBoundary_eq s
    rw [hd]
    exact hs.congr rfl rfl rfl rfl rfl
  rcases coreStep_cases h with ⟨n, -, hentry⟩ | ⟨-, -, rfl⟩ | ⟨-, -, i, -, hexec⟩
  · exact interruptEntry_keeps_inv hentry after
  · exact after
  · exact exec_keeps_inv hexec (after.congr rfl rfl rfl rfl rfl)

theorem tick_keeps_inv (hs : s.Inv) : (tick s).Inv := by
  obtain ⟨c, f, v, h⟩ := tick_eq s
  rw [h]
  exact hs.congr rfl rfl rfl rfl rfl

/-- A reset keeps program memory, keeps or empties SRAM, and clears the rest (R401). -/
theorem resetEvent_keeps_inv (c : ResetCause) (hs : s.Inv) : (resetEvent c s).Inv where
  sramForm := by
    simp only [resetEvent]
    split
    · exact hs.sramForm
    · exact .nil
  sramRange := by
    simp only [resetEvent]
    split
    · exact hs.sramRange
    · exact fun p hp => nomatch hp
  flashForm := hs.flashForm
  flashRange := hs.flashRange
  tccr1bReserved := by simp [resetEvent]
  timsk1Reserved := by simp [resetEvent]
  noPending := rfl

/-- Settles O10: each move a step can be keeps the invariant. -/
theorem stepKeepsInv : Obligations.StepKeepsInv := by
  intro s t hs h
  obtain ⟨a, d, ⟨u, rfl, hcore | rfl | rfl⟩ | ⟨c, -, rfl⟩⟩ := step_cases h
  · exact coreStep_keeps_inv hcore (hs.congr rfl rfl rfl rfl rfl)
  · exact tick_keeps_inv (hs.congr rfl rfl rfl rfl rfl)
  · exact hs.congr rfl rfl rfl rfl rfl
  · exact resetEvent_keeps_inv c (hs.congr rfl rfl rfl rfl rfl)

/-- Settles O11: after reset both memories are empty and the registers of the timer are 0. -/
theorem resetInv : Obligations.ResetInv where
  sramForm := .nil
  sramRange _ hp := nomatch hp
  flashForm := .nil
  flashRange _ hp := nomatch hp
  tccr1bReserved := rfl
  timsk1Reserved := rfl
  noPending := rfl

/-! ### Reset values, the status register, the stack -/

/-- Settles O12: each value is that of the definition of `State.reset` (R42). -/
theorem resetValues : Obligations.ResetValues :=
  ⟨rfl, rfl, rfl, fun _ => rfl, rfl, rfl, rfl, rfl, rfl, rfl, rfl, rfl, rfl, rfl⟩

/-- A byte read into the flags is read back (R26, R29). -/
theorem Sreg.toByte_ofByte : ∀ b : Byte, (Sreg.ofByte b).toByte = b := by decide

/-- Settles O24. -/
theorem sregLayout : Obligations.SregLayout := ⟨Sreg.toByte_ofByte, fun _ => rfl⟩

theorem push_stop {v : Byte} {e : Refusal} (h : memWrite s.sp.toNat v s = .error e) :
    push v s = .error e := by
  simp only [push, h, Res.error_bind]

/-- The SRAM bytes one and two above SP are the return address that is popped (R32). -/
theorem popPC_of_read {v : Word} {p : Word} (hsp : s.sp = p - 2) (h0 : isSram p.toNat = true)
    (h1 : isSram (p - 1).toNat = true) (hlo : s.sram.read p.toNat = some (lowByte v))
    (hhi : s.sram.read (p - 1).toNat = some (highByte v)) :
    popPC s = .ok (v, { s with sp := p }) := by
  have e1 : s.sp + 1 = p - 1 := by rw [hsp]; bv_omega
  have e2 : s.sp + 2 = p := by rw [hsp]; bv_omega
  rw [popPC_sram (hi := highByte v) (lo := lowByte v) (by rwa [e1]) (by rwa [e2]) (by rwa [e1])
    (by rwa [e2]), bytePair_bytes, e2]

/-- Settles O25: the two bytes of a return address lie at two addresses, so the second store keeps the
first. -/
theorem stackOperations : Obligations.StackOperations := by
  refine ⟨fun s v => ⟨fun t ht => push_ok_iff.mpr ⟨t, ht, rfl⟩, fun e he => push_stop he, rfl⟩,
    fun s v h0 h1 => ⟨_, pushPC_sram h0 h1, rfl, ?_⟩⟩
  have hlo : ((s.sram.write s.sp.toNat (lowByte v)).write (s.sp - 1).toNat (highByte v)).read
      s.sp.toNat = some (lowByte v) := by
    rw [Memory.read_write_other _ _ (by bv_omega), Memory.read_write_same]
  have hhi := (s.sram.write s.sp.toNat (lowByte v)).read_write_same (s.sp - 1).toNat (highByte v)
  exact ⟨hlo, hhi, popPC_of_read rfl h0 h1 hlo hhi⟩

end Sys2Proof.Machine
end

section
/-! SUPPORT. Sleep (spec/10_state.md R40, spec/60_exceptions.md R345, R372): what a step from a sleeping
state can do, and that in a fair run a core that waits for the timer is served. The timer keeps counting,
each count either sets the flag that is waited for or leaves fewer counts to it, and once the flag is set
the core stays able to step until it does. -/

namespace Sys2Proof.Machine

variable {s t u : State}

/-! ### One step from a sleeping state -/

/-- The first part of O8: a sleeping core waits, takes an interrupt, or is reset. -/
theorem step_of_sleeping (hs : s.sleeping = true) (h : step s = .next t) :
    (t.sleeping = true ∧ t.pc = s.pc ∧ t.regs = s.regs ∧ t.sram = s.sram ∧ t.sp = s.sp ∧
      t.sreg = s.sreg) ∨
    (∃ n u, u = { s with agenda := u.agenda, draws := u.draws } ∧ takenVector u = some n ∧
      interruptEntry n (afterBoundary u) = .ok t) ∨
    (∃ cause rest, s.agenda = .reset cause :: rest ∧
      t = resetEvent cause { s with agenda := rest }) := by
  obtain ⟨a, d, ⟨u, rfl, hcore | rfl | rfl⟩ | ⟨c, hc, rfl⟩⟩ := step_cases h
  · rcases coreStep_cases hcore with ⟨n, hn, hentry⟩ | ⟨-, -, rfl⟩ | ⟨-, hawake, -⟩
    · exact .inr (.inl ⟨n, _, rfl, hn, hentry⟩)
    · obtain ⟨d', hd⟩ := afterBoundary_eq { s with agenda := a, draws := d }
      rw [hd]
      exact .inl ⟨hs, rfl, rfl, rfl, rfl, rfl⟩
    · exact absurd (hs.symm.trans hawake) (by decide)
  · exact .inl ⟨hs, rfl, rfl, rfl, rfl, rfl⟩
  · exact .inl ⟨hs, rfl, rfl, rfl, rfl, rfl⟩
  · exact .inr (.inr ⟨c, a, hc, rfl⟩)

/-! ### A core that waits for the timer -/

/-- Asleep, with interrupts enabled, the timer on an internal rate, and no interrupt enabled whose
request is a free value. -/
structure Dozing (s : State) : Prop where
  sleeping : s.sleeping = true
  enabled : s.sreg.i = true
  inhibit : s.inhibit = false
  internal : (clockSource s.tccr1b).internal = true
  capture : s.timsk1[5] = false
  compareB : s.timsk1[2] = false

/-- What the waiting leaves alone; a request, once there, stays. -/
structure SameSleep (s t : State) : Prop where
  sleeping : t.sleeping = s.sleeping
  pc : t.pc = s.pc
  sreg : t.sreg = s.sreg
  inhibit : t.inhibit = s.inhibit
  tccr1b : t.tccr1b = s.tccr1b
  timsk1 : t.timsk1 = s.timsk1
  ocf1a : s.ocf1a = true → t.ocf1a = true
  tov1 : s.tov1 = true → t.tov1 = true

theorem SameSleep.refl : SameSleep s s := ⟨rfl, rfl, rfl, rfl, rfl, rfl, id, id⟩

theorem SameSleep.trans (h : SameSleep s t) (h' : SameSleep t u) : SameSleep s u where
  sleeping := h'.sleeping.trans h.sleeping
  pc := h'.pc.trans h.pc
  sreg := h'.sreg.trans h.sreg
  inhibit := h'.inhibit.trans h.inhibit
  tccr1b := h'.tccr1b.trans h.tccr1b
  timsk1 := h'.timsk1.trans h.timsk1
  ocf1a := h'.ocf1a ∘ h.ocf1a
  tov1 := h'.tov1 ∘ h.tov1

theorem SameSleep.tick (s : State) : SameSleep s (tick { s with agenda := [] }) where
  sleeping := rfl
  pc := rfl
  sreg := rfl
  inhibit := rfl
  tccr1b := rfl
  timsk1 := rfl
  ocf1a h := by simp [Machine.tick, h]
  tov1 h := by simp [Machine.tick, h]

theorem Dozing.congr (hs : Dozing s) (h : SameSleep s t) : Dozing t where
  sleeping := h.sleeping.trans hs.sleeping
  enabled := h.sreg ▸ hs.enabled
  inhibit := h.inhibit.trans hs.inhibit
  internal := h.tccr1b ▸ hs.internal
  capture := by simpa only [h.timsk1] using hs.capture
  compareB := by simpa only [h.timsk1] using hs.compareB

/-- A dozing core takes no interrupt but those of vectors 12 and 14 (R344, R369). -/
theorem Dozing.vector_of_taken (hs : Dozing s) {v : Nat} (h : takenVector s = some v) :
    (v = 12 ∧ s.timsk1[1] = true) ∨ (v = 14 ∧ s.timsk1[0] = true) := by
  have hv := List.find?_some (takenVector_iff.mp h).1
  obtain ⟨hen, -⟩ := Bool.and_eq_true_iff.mp hv
  unfold individualEnable at hen
  split at hen
  · rw [hs.capture] at hen; cases hen
  · exact .inl ⟨rfl, hen⟩
  · rw [hs.compareB] at hen; cases hen
  · exact .inr ⟨rfl, hen⟩
  · cases hen

/-- An interrupt of the timer is enabled and requested. -/
def timerRequest (s : State) : Prop :=
  (s.timsk1[1] = true ∧ s.ocf1a = true) ∨ (s.timsk1[0] = true ∧ s.tov1 = true)

theorem SameSleep.timerRequest (h : SameSleep s t) (hr : timerRequest s) : timerRequest t := by
  rcases hr with ⟨hen, hf⟩ | ⟨hen, hf⟩
  · exact .inl ⟨by simpa only [h.timsk1] using hen, h.ocf1a hf⟩
  · exact .inr ⟨by simpa only [h.timsk1] using hen, h.tov1 hf⟩

/-- With a request of the timer a dozing core has an interrupt to take. -/
theorem Dozing.taken_of_request (hs : Dozing s) (hr : timerRequest s) :
    ∃ v, takenVector s = some v := by
  have hp : (pendingVector s).isSome = true := by
    rw [pendingVector, List.find?_isSome]
    rcases hr with ⟨hen, hf⟩ | ⟨hen, hf⟩
    · exact ⟨12, by decide, by simp [individualEnable, requested, hen, hf]⟩
    · exact ⟨14, by decide, by simp [individualEnable, requested, hen, hf]⟩
  obtain ⟨v, hv⟩ := Option.isSome_iff_exists.mp hp
  exact ⟨v, takenVector_iff.mpr ⟨hv, hs.enabled, hs.inhibit⟩⟩

/-- A boundary of a dozing core uses no free value. -/
theorem Dozing.afterBoundary_eq (hs : Dozing s) : afterBoundary s = s := by
  simp [afterBoundary, usesRequests, hs.capture, hs.compareB]

/-- The timer runs on one clock: on an internal rate no edge of T1 counts (R361). -/
theorem ClockSource.ne_of_internal {c d : ClockSource} (hc : c.internal = true)
    (hd : d.internal = false) : c ≠ d := by
  rintro rfl
  rw [hd] at hc
  cases hc

/-- Everything one move can do to a dozing core: the entry of an interrupt, a count of the timer, or
nothing, where the core's move is one without an interrupt to take. -/
theorem Dozing.step_cases (hs : Dozing s) {m : Move} (hm : ∀ c, m ≠ .reset c)
    (h : step { s with agenda := [m] } = .next t) :
    (∃ v, takenVector s = some v ∧ interruptEntry v { s with agenda := [] } = .ok t) ∨
    (m = .prescaledClock ∧ t = tick { s with agenda := [] }) ∨
    (m ≠ .prescaledClock ∧ (m = .core → takenVector s = none) ∧ t = { s with agenda := [] }) := by
  have hs' : Dozing { s with agenda := [] } := { hs with }
  cases m with
  | core =>
    rcases coreStep_cases h with ⟨v, hv, hentry⟩ | ⟨hnone, -, rfl⟩ | ⟨-, hawake, -⟩
    · exact .inl ⟨v, hv, hs'.afterBoundary_eq ▸ hentry⟩
    · exact .inr (.inr ⟨by decide, fun _ => hnone, hs'.afterBoundary_eq⟩)
    · exact absurd (hs'.sleeping.symm.trans hawake) (by decide)
  | prescaledClock =>
    simp only [step, performMove, hs.internal, if_true, Host.Outcome.next.injEq] at h
    exact .inr (.inl ⟨rfl, h.symm⟩)
  | t1Falling =>
    have hc : clockSource s.tccr1b ≠ .t1Falling := ClockSource.ne_of_internal hs.internal rfl
    simp only [step, performMove, hc, if_false, Host.Outcome.next.injEq] at h
    exact .inr (.inr ⟨by decide, by simp, h.symm⟩)
  | t1Rising =>
    have hc : clockSource s.tccr1b ≠ .t1Rising := ClockSource.ne_of_internal hs.internal rfl
    simp only [step, performMove, hc, if_false, Host.Outcome.next.injEq] at h
    exact .inr (.inr ⟨by decide, by simp, h.symm⟩)
  | reset c => exact absurd rfl (hm c)

/-! ### The counts that are left -/

/-- The counts until the counter meets OCR1A; a compare that a write of TCNT1 may have blocked comes
one round later at worst (R372). -/
def compareLeft (s : State) : Nat :=
  (s.ocr1a - s.tcnt1).toNat + if s.matchBlocked then 0x10000 else 0

/-- The counts until the counter is at its largest value. -/
def overflowLeft (s : State) : Nat := (0xFFFF - s.tcnt1).toNat

theorem timerMatch_of_eq (hm : s.matchBlocked = false) (h : s.tcnt1 = s.ocr1a) :
    timerMatch s = true := by
  simp [timerMatch, hm, h]

theorem toNat_sub_succ_lt {x y : Word} (h : y ≠ x) : (x - (y + 1)).toNat < (x - y).toNat := by
  bv_omega

/-- A count that sets no OCF1A has no hit: it moves the counter on and lifts the block. -/
theorem tick_compareLeft (h : (tick s).ocf1a = false) : compareLeft (tick s) < compareLeft s := by
  have hhit : timerMatch s = false := by
    simp only [tick, Bool.or_eq_false_iff] at h
    exact h.2
  have hleft : compareLeft (tick s) = (s.ocr1a - (s.tcnt1 + 1)).toNat := by
    simp [compareLeft, tick, hhit]
  rw [hleft, compareLeft]
  cases hb : s.matchBlocked with
  | true =>
    have := (s.ocr1a - (s.tcnt1 + 1)).isLt
    simp only [if_true]
    omega
  | false =>
    have hne : s.tcnt1 ≠ s.ocr1a := fun e => by simp [timerMatch_of_eq hb e] at hhit
    simpa using toNat_sub_succ_lt hne

/-- In normal mode a count that sets no TOV1 moves the counter on. -/
theorem tick_overflowLeft (hctc : s.tccr1b[3] = false) (h : (tick s).tov1 = false) :
    overflowLeft (tick s) < overflowLeft s := by
  have hne : s.tcnt1 ≠ 0xFFFF := fun e => by simp [tick, State.ctcMode, hctc, e] at h
  have hleft : overflowLeft (tick s) = (0xFFFF - (s.tcnt1 + 1)).toNat := by
    simp [overflowLeft, tick, State.ctcMode, hctc]
  rw [hleft]
  exact toNat_sub_succ_lt hne

/-! ### A fair run -/

/-- At boundary `m` the core enters an interrupt. -/
def ServedAt (run : Nat → State) (m : Nat) : Prop :=
  ∃ v, takenVector (run m) = some v ∧ interruptEntry v { run m with agenda := [] } = .ok (run (m + 1))

/-- A fair run without a reset from boundary `n` on, where the core dozes. -/
structure FairDoze (schedule : Nat → Move) (run : Nat → State) (n : Nat) : Prop where
  fair : FairRun schedule run
  noReset : ∀ m, n ≤ m → ∀ c, schedule m ≠ .reset c
  dozing : Dozing (run n)

/-- The numbers of a sequence that does not rise cannot fall again and again. -/
theorem not_falls_forever {l : Nat → Nat} {n : Nat} (hle : ∀ m, n ≤ m → l (m + 1) ≤ l m)
    (hlt : ∀ m, n ≤ m → ∃ k, m ≤ k ∧ l (k + 1) < l k) : False := by
  have falls_below : ∀ b m, n ≤ m → ¬ l m < b := by
    intro b
    induction b with
    | zero => exact fun m _ => Nat.not_lt_zero _
    | succ b ih =>
      intro m hm hb
      obtain ⟨k, hk, hfall⟩ := hlt m hm
      have hmk : l k ≤ l m :=
        Nat.le_induction le_rfl (fun j hj ih => (hle j (hm.trans hj)).trans ih) k hk
      exact ih (k + 1) (by omega) (by omega)
  exact falls_below (l n + 1) n le_rfl (Nat.lt_succ_self _)

namespace FairDoze

variable {schedule : Nat → Move} {run : Nat → State} {n m : Nat}

theorem step_cases (h : FairDoze schedule run n) :
    ServedAt run n ∨
    (schedule n = .prescaledClock ∧ run (n + 1) = tick { run n with agenda := [] }) ∨
    (schedule n ≠ .prescaledClock ∧ (schedule n = .core → takenVector (run n) = none) ∧
      run (n + 1) = { run n with agenda := [] }) :=
  h.dozing.step_cases (h.noReset n le_rfl) (h.fair.steps n)

theorem sameSleep_succ (h : FairDoze schedule run n) (hn : ¬ ServedAt run n) :
    SameSleep (run n) (run (n + 1)) := by
  rcases h.step_cases with hserved | ⟨-, e⟩ | ⟨-, -, e⟩
  · exact absurd hserved hn
  · rw [e]; exact .tick _
  · rw [e]; exact { SameSleep.refl (s := run n) with }

/-- Until it is served, the core dozes on. -/
theorem later (h : FairDoze schedule run n) (hm : n ≤ m)
    (hno : ∀ j, n ≤ j → j < m → ¬ ServedAt run j) :
    FairDoze schedule run m ∧ SameSleep (run n) (run m) := by
  induction m, hm using Nat.le_induction with
  | base => exact ⟨h, .refl⟩
  | succ m hm ih =>
    obtain ⟨hd, hsame⟩ := ih fun j hj hjm => hno j hj (by omega)
    have hnext := hd.sameSleep_succ (hno m hm (Nat.lt_succ_self m))
    exact ⟨⟨h.fair, fun j hj => h.noReset j (by omega), hd.dozing.congr hnext⟩, hsame.trans hnext⟩

/-- While the core is never served the timer counts again and again, so that no number can fall at each
count and stay at the other moves. -/
theorem not_left_falls (h : FairDoze schedule run n) (hno : ∀ j, n ≤ j → ¬ ServedAt run j)
    (left : State → Nat) (hstay : ∀ s, left { s with agenda := [] } = left s)
    (hfall : ∀ k, n ≤ k → run (k + 1) = tick { run k with agenda := [] } →
      left (run (k + 1)) < left (run k)) : False := by
  have doze (m : Nat) (hm : n ≤ m) : FairDoze schedule run m :=
    (h.later hm fun j hj _ => hno j hj).1
  refine not_falls_forever (l := fun m => left (run m)) (n := n) (fun m hm => ?_) fun m hm => ?_
  · rcases (doze m hm).step_cases with hserved | ⟨-, e⟩ | ⟨-, -, e⟩
    · exact absurd hserved (hno m hm)
    · exact (hfall m hm e).le
    · rw [e, hstay]
  · obtain ⟨k, hk, hclock⟩ := h.fair.timerFair m fun j hj => (doze j (hm.trans hj)).dozing.internal
    refine ⟨k, hk, ?_⟩
    rcases (doze k (hm.trans hk)).step_cases with hserved | ⟨-, e⟩ | ⟨hother, -⟩
    · exact absurd hserved (hno k (hm.trans hk))
    · exact hfall k (hm.trans hk) e
    · exact absurd hclock hother

/-- The counter meets OCR1A in the end. -/
theorem exists_ocf1a (h : FairDoze schedule run n) (hno : ∀ j, n ≤ j → ¬ ServedAt run j) :
    ∃ k, n ≤ k ∧ (run k).ocf1a = true := by
  by_contra hnone
  refine h.not_left_falls hno compareLeft (fun _ => rfl) fun k hk e => ?_
  have hclear : (run (k + 1)).ocf1a = false :=
    Bool.eq_false_iff.mpr fun hf => hnone ⟨k + 1, by omega, hf⟩
  rw [e] at hclear ⊢
  exact tick_compareLeft hclear

/-- In normal mode the counter overflows in the end. -/
theorem exists_tov1 (h : FairDoze schedule run n) (hno : ∀ j, n ≤ j → ¬ ServedAt run j)
    (hctc : (run n).tccr1b[3] = false) : ∃ k, n ≤ k ∧ (run k).tov1 = true := by
  by_contra hnone
  refine h.not_left_falls hno overflowLeft (fun _ => rfl) fun k hk e => ?_
  have hclear : (run (k + 1)).tov1 = false :=
    Bool.eq_false_iff.mpr fun hf => hnone ⟨k + 1, by omega, hf⟩
  have hmode : (run k).tccr1b[3] = false := by
    have hsame := (h.later hk fun j hj _ => hno j hj).2
    simpa only [hsame.tccr1b] using hctc
  rw [e] at hclear ⊢
  exact tick_overflowLeft hmode hclear

/-- The request the core waits for comes. -/
theorem exists_request (h : FairDoze schedule run n) (hno : ∀ j, n ≤ j → ¬ ServedAt run j)
    (hwait : (run n).timsk1[1] = true ∨ (run n).timsk1[0] = true ∧ (run n).tccr1b[3] = false) :
    ∃ k, n ≤ k ∧ timerRequest (run k) := by
  have same (k : Nat) (hk : n ≤ k) := (h.later hk fun j hj _ => hno j hj).2
  rcases hwait with hen | ⟨hen, hctc⟩
  · obtain ⟨k, hk, hf⟩ := h.exists_ocf1a hno
    exact ⟨k, hk, .inl ⟨by simpa only [(same k hk).timsk1] using hen, hf⟩⟩
  · obtain ⟨k, hk, hf⟩ := h.exists_tov1 hno hctc
    exact ⟨k, hk, .inr ⟨by simpa only [(same k hk).timsk1] using hen, hf⟩⟩

/-- From the request on the core is able to step, so that it does, and that is the entry. -/
theorem exists_served (h : FairDoze schedule run n)
    (hwait : (run n).timsk1[1] = true ∨ (run n).timsk1[0] = true ∧ (run n).tccr1b[3] = false) :
    ∃ m, n ≤ m ∧ ServedAt run m := by
  by_contra hnone
  have hno (j : Nat) (hj : n ≤ j) : ¬ ServedAt run j := fun hs => hnone ⟨j, hj, hs⟩
  obtain ⟨k, hk, hreq⟩ := h.exists_request hno hwait
  have hk' : FairDoze schedule run k := (h.later hk fun j hj _ => hno j hj).1
  have taken (m : Nat) (hm : k ≤ m) : ∃ v, takenVector (run m) = some v := by
    obtain ⟨hdoze, hsame⟩ := hk'.later hm fun j hj _ => hno j (hk.trans hj)
    exact hdoze.dozing.taken_of_request (hsame.timerRequest hreq)
  obtain ⟨m, hm, hcore⟩ := h.fair.coreFair k fun m hm => by
    obtain ⟨v, hv⟩ := taken m hm
    simp [coreReady, hv]
  obtain ⟨v, hv⟩ := taken m hm
  have hm' : FairDoze schedule run m := (h.later (hk.trans hm) fun j hj _ => hno j hj).1
  rcases hm'.step_cases with hserved | ⟨hclock, -⟩ | ⟨-, hidle, -⟩
  · exact hno m (hk.trans hm) hserved
  · exact absurd (hcore.symm.trans hclock) (by decide)
  · exact absurd (hv.symm.trans (hidle hcore)) (by simp)

end FairDoze

/-- Settles O8: the second part is about the first boundary at which the core is served. -/
theorem sleepLeft : Obligations.SleepLeft := by
  refine ⟨fun s t => step_of_sleeping, ?_⟩
  intro schedule run n hfair hreset hsleep hi hinhibit hclock h5 h2 hwait
  have h : FairDoze schedule run n := ⟨hfair, hreset, ⟨hsleep, hi, hinhibit, hclock, h5, h2⟩⟩
  classical
  have hex := h.exists_served hwait
  obtain ⟨hm, v, hv, hentry⟩ := Nat.find_spec hex
  have same (j : Nat) (hj : n ≤ j) (hjm : j ≤ Nat.find hex) :=
    h.later hj fun k hk hkj hs => Nat.find_min hex (hkj.trans_le hjm) ⟨hk, hs⟩
  refine ⟨Nat.find hex, v, hm, fun j hj hjm => ?_, ?_, hentry⟩
  · obtain ⟨hdoze, hsame⟩ := same j hj hjm
    exact ⟨hdoze.dozing.sleeping, hsame.pc⟩
  · obtain ⟨hdoze, hsame⟩ := same _ hm le_rfl
    simpa only [hsame.timsk1] using hdoze.dozing.vector_of_taken hv

end Sys2Proof.Machine
end

section
/-! SUPPORT. The data space and program memory (spec/20_memory.md): what a byte access does at every
address, what a store leaves to be read, which loads and stores stop, and that no step changes program
memory. -/

namespace Sys2Proof.Machine

variable {s t : State}

/-! ### The two kinds of address without a byte (R73, R74) -/

/-- Between the general registers and SRAM only the ten registers of the map are described. -/
theorem described_of_gap {a : Nat} (h1 : 0x20 ≤ a) (h2 : a < 0x100)
    (h : a ∉ [0x36, 0x5D, 0x5E, 0x5F, 0x6F, 0x81, 0x84, 0x85, 0x88, 0x89]) :
    described a = false := by
  simp only [described, Bool.or_eq_false_iff, Bool.and_eq_false_iff, decide_eq_false_iff_not,
    List.contains_eq_mem]
  exact ⟨⟨by omega, h⟩, .inl (by omega)⟩

theorem described_of_beyond {a : Nat} (h : 0x8FF < a) : described a = false := by
  rcases place_cases a with ⟨-, -, hp⟩ | ⟨hd, -⟩ | ⟨hd, -⟩
  · exact absurd (place_nothing h) hp
  · exact hd
  · exact hd

theorem storable_of_not_described {a : Nat} (v : Byte) (h : described a = false) :
    storable a v = false := by
  simp only [storable, h, Bool.false_and]

theorem isSram_of_range {a : Nat} (h1 : 0x100 ≤ a) (h2 : a ≤ 0x8FF) : isSram a = true := by
  simp only [isSram, Bool.and_eq_true, decide_eq_true_eq]
  exact ⟨h1, h2⟩

/-! ### Reading a byte (R64) -/

theorem memRead_register (r : Reg) (s : State) : memRead r.val s = .ok (s.reg r, s) := by
  simp only [memRead, place_register]

/-- An SRAM byte that nothing has written reads as a free value (R43). -/
theorem memRead_unwritten {a : Nat} (h : isSram a = true) (hv : s.sram.read a = none) :
    memRead a s = .ok (s.nextByte, s.drew 1) := by
  simp only [memRead, place_sram h, hv]

theorem memRead_undescribed {a : Nat} (s : State) (h : described a = false) (ha : a < 0x100) :
    memRead a s = .error (.undescribedIO a) := by
  rw [memRead_stop s h, if_pos ha]

theorem memRead_beyond {a : Nat} (s : State) (h : 0x8FF < a) :
    memRead a s = .error (.beyondRamend a) := by
  rw [memRead_stop s (described_of_beyond h), if_neg (by omega)]

/-- Settles O20: below SRAM each described address is one row of the map, which `rfl` looks up. -/
theorem memReadTable : Obligations.MemReadTable := by
  intro s
  refine ⟨fun r => memRead_register r s, ⟨_, _, rfl⟩, rfl, rfl, rfl, rfl, rfl, rfl, rfl, rfl, rfl,
    ?written, ?unwritten, ?undescribed, ?beyond⟩
  case written => exact fun a v h1 h2 hv => memRead_sram (isSram_of_range h1 h2) hv
  case unwritten => exact fun a h1 h2 hv => ⟨_, memRead_unwritten (isSram_of_range h1 h2) hv⟩
  case undescribed => exact fun a h1 h2 h => memRead_undescribed s (described_of_gap h1 h2 h) h2
  case beyond => exact fun a h => memRead_beyond s h

/-! ### Writing a byte (R65) -/

theorem memWrite_register (r : Reg) (v : Byte) (s : State) :
    memWrite r.val v s = .ok (s.setReg r v) := by
  simp only [memWrite, place_register]

/-- A write of SREG that leaves I as it is or clears it decides nothing about the next boundary. -/
theorem writeSreg_of_not_enabling {v : Byte} (h : s.sreg.i = true ∨ v[7] = false) :
    writeSreg v s = s.setSreg (.ofByte v) := by
  have hcond : (!s.sreg.i && v[7]) = false := by rcases h with h | h <;> simp [h]
  simp only [writeSreg, hcond, Bool.false_eq_true, if_false]

/-- A write of SREG that sets I draws `inhibit` (R350). -/
theorem writeSreg_of_enabling {v : Byte} (h : s.sreg.i = false ∧ v[7] = true) :
    writeSreg v s = { (s.setSreg (.ofByte v)).drew 1 with inhibit := s.nextBit } := by
  simp only [writeSreg, h.1, h.2, Bool.not_false, Bool.and_self, if_true]

theorem memWrite_sreg_eq (v : Byte) (s : State) : memWrite 0x5F v s = .ok (writeSreg v s) := rfl

theorem memWrite_tccr1b {v : Byte} (s : State) (hv : v[4] = false) :
    memWrite 0x81 v s = .ok { s with tccr1b := v &&& 0xDF } := by
  have hp : place 0x81 = .tccr1b := rfl
  simp only [memWrite, hp, hv, Bool.false_eq_true, if_false]

theorem memWrite_undescribed {a : Nat} {v : Byte} (s : State) (h : storable a v = false)
    (ha : a < 0x100) : memWrite a v s = .error (.undescribedIO a) := by
  rw [memWrite_stop s h, if_pos ha]

theorem memWrite_beyond {a : Nat} (v : Byte) (s : State) (h : 0x8FF < a) :
    memWrite a v s = .error (.beyondRamend a) := by
  rw [memWrite_stop s (storable_of_not_described v (described_of_beyond h)), if_neg (by omega)]

/-- A byte with WGM13 = 1 is the one that a described register does not take. -/
theorem storable_tccr1b {v : Byte} (hv : v[4] = true) : storable 0x81 v = false := by
  simp [storable, hv]

/-- Settles O21: the rows that look at the byte are SREG and TCCR1B; the other described registers are
rows of the map, which `rfl` looks up. -/
theorem memWriteTable : Obligations.MemWriteTable := by
  intro s v
  refine ⟨fun r => memWrite_register r v s, rfl, rfl, rfl, ?sreg, ?enabling, rfl, ?wgm13, ?tccr1b, rfl,
    rfl, rfl, rfl, ?sram, ?undescribed, ?beyond⟩
  case sreg => exact fun h => by rw [memWrite_sreg_eq, writeSreg_of_not_enabling h]; rfl
  case enabling => exact fun h => ⟨_, by rw [memWrite_sreg_eq, writeSreg_of_enabling h]; rfl⟩
  case wgm13 => exact fun hv => memWrite_undescribed s (storable_tccr1b hv) (by decide)
  case tccr1b => exact fun hv => memWrite_tccr1b s hv
  case sram => exact fun a h1 h2 => memWrite_sram v s (isSram_of_range h1 h2)
  case undescribed =>
    exact fun a h1 h2 h =>
      memWrite_undescribed s (storable_of_not_described v (described_of_gap h1 h2 h)) h2
  case beyond => exact fun a h => memWrite_beyond v s h

/-! ### Reading what was stored (R64, R65, R80) -/

theorem memRead_of_memWrite {a : Nat} {v : Byte} (ha : isSram a = true)
    (h : memWrite a v s = .ok t) : memRead a t = .ok (v, t) := by
  have hread : t.sram.read a = some v := by
    rw [memWrite_sram_inv h, if_pos ha, Memory.read_write_same]
  exact memRead_sram ha hread

/-- Settles O22: a store agrees with the state before it outside its own address. -/
theorem storeReadBack : Obligations.StoreReadBack := by
  intro s t a v h
  have frame : SameOutside [a] [] s t := SameOutside.refl.memWrite (.head _) h
  refine ⟨fun b hb => frame.sram b (by simpa using hb), fun ha => memRead_of_memWrite ha h,
    fun r hr => frame.reg r (by simp) (by simpa using hr), fun r hr => ?_⟩
  rw [memWrite_reg h, if_pos hr]

/-! ### The loads and stores that stop (R73, R74, R86, R178) -/

/-- Where the first part of an instruction stops, the instruction does. -/
theorem finish_bind_stop {α : Type} {x : Res α} {f : α → Res State} {e : Refusal}
    (h : x = .error e) : finish (x >>= f) = .refused e := by
  rw [h, Res.error_bind, finish_error]

/-- The reason with which an access of address `a` stops, if it does: below SRAM the register is not
described, above it there is nothing (R73, R74). -/
abbrev accessStop (a : Nat) : Refusal := if a < 0x100 then .undescribedIO a else .beyondRamend a

theorem refused_accessStop {o : Outcome} {a : Nat} (h : o = .refused (accessStop a)) :
    (a < 0x100 → o = .refused (.undescribedIO a)) ∧ (0x100 ≤ a → o = .refused (.beyondRamend a)) :=
  ⟨fun ha => by rw [h, accessStop, if_pos ha], fun ha => by rw [h, accessStop, if_neg (by omega)]⟩

theorem storable_register (r : Reg) (v : Byte) : storable r.val v = true := by
  have hlow : r.val < 0x20 := r.isLt
  have hne : r.val ≠ 0x81 := by omega
  simp only [storable, described, hlow, decide_true, Bool.true_or, beq_eq_false_iff_ne.mpr hne,
    Bool.false_and, Bool.not_false, Bool.and_self]

/-- The registers of a pointer take every byte. -/
theorem Pointer.storable_of_covers {p : Pointer} {a : Nat} (v : Byte) (h : p.covers a = true) :
    storable a v = true := by
  simp only [Pointer.covers, Bool.or_eq_true, beq_iff_eq] at h
  have hnext : p.low.val + 1 = (p.low + 1).val := by cases p <;> rfl
  rcases h with rfl | rfl
  · exact storable_register p.low v
  · rw [hnext]
    exact storable_register (p.low + 1) v

/-- So an access that stops is not of them, and passes the check of R177 b. -/
theorem Pointer.covers_of_not_storable {p : Pointer} {a : Nat} {v : Byte}
    (h : storable a v = false) : p.covers a = false := by
  by_contra hc
  rw [Pointer.storable_of_covers v (Bool.eq_true_of_not_eq_false hc)] at h
  cases h

/-- Moving a pointer leaves the other registers alone. -/
theorem State.reg_setPtr_other {p : Pointer} {r : Reg} (s : State) (v : Word)
    (h : p.holds r = false) : (s.setPtr p v).reg r = s.reg r := by
  simp only [Pointer.holds, Bool.or_eq_false_iff, beq_eq_false_iff_ne] at h
  obtain ⟨hlow, hhigh⟩ := h
  rw [State.setPtr, State.setPair, State.reg_setReg_other _ _ hhigh, State.reg_setReg_other _ _ hlow]

section
variable {p : Pointer} {r d : Reg}

theorem loadInc_stop (s : State) (hp : p.holds d = false)
    (h : described (s.ptr p).toNat = false) :
    loadInc p d s = .error (accessStop (s.ptr p).toNat) := by
  have hc := Pointer.covers_of_not_storable (p := p) (storable_of_not_described 0 h)
  simp only [loadInc, hp, hc, Bool.or_self, Bool.false_eq_true, if_false, load_stop s h,
    Res.error_bind]

theorem loadDec_stop (s : State) (hp : p.holds d = false)
    (h : described (decAddress p s).toNat = false) :
    loadDec p d s = .error (accessStop (decAddress p s).toNat) := by
  have hc := Pointer.covers_of_not_storable (p := p) (storable_of_not_described 0 h)
  simp only [loadDec, hp, hc, Bool.or_self, Bool.false_eq_true, if_false, load_stop _ h]

theorem storeInc_stop (s : State) (hp : p.holds r = false)
    (h : storable (s.ptr p).toNat (s.reg r) = false) :
    storeInc p r s = .error (accessStop (s.ptr p).toNat) := by
  have hc := Pointer.covers_of_not_storable (p := p) h
  simp only [storeInc, hp, hc, Bool.or_self, Bool.false_eq_true, if_false, store,
    memWrite_stop s h, Res.error_bind]

/-- The register stored is read after the pointer has moved, and is no part of the pointer. -/
theorem storeDec_stop (s : State) (hp : p.holds r = false)
    (h : storable (decAddress p s).toNat (s.reg r) = false) :
    storeDec p r s = .error (accessStop (decAddress p s).toNat) := by
  have hc := Pointer.covers_of_not_storable (p := p) h
  simp only [storeDec, hp, hc, Bool.or_self, Bool.false_eq_true, if_false, store,
    State.reg_setPtr_other s _ hp, memWrite_stop _ h]

end

/-- Settles O32: the access is the first part of each of these instructions, and the check for an
overlap before it passes. -/
theorem accessStops : Obligations.AccessStops := by
  intro d k q s i p a
  refine ⟨fun hi hd => refused_accessStop ?_, fun hi hs => refused_accessStop ?_⟩
  · rcases hi with hplain | ⟨hp, hmoving⟩
    · simp only [List.mem_cons, Prod.mk.injEq, List.not_mem_nil, or_false] at hplain
      rcases hplain with ⟨rfl, rfl⟩ | ⟨rfl, rfl⟩ | ⟨rfl, rfl⟩ | ⟨rfl, rfl⟩ | ⟨rfl, rfl⟩ |
        ⟨rfl, rfl⟩ | ⟨rfl, rfl⟩
      on_goal 7 => exact finish_bind_stop (memRead_stop _ hd)
      all_goals exact finish_bind_stop (load_stop s hd)
    · simp only [List.mem_cons, Prod.mk.injEq, List.not_mem_nil, or_false] at hmoving
      rcases hmoving with ⟨rfl, rfl, rfl⟩ | ⟨rfl, rfl, rfl⟩ | ⟨rfl, rfl, rfl⟩ | ⟨rfl, rfl, rfl⟩ |
        ⟨rfl, rfl, rfl⟩ | ⟨rfl, rfl, rfl⟩
      iterate 3 exact finish_bind_stop (loadInc_stop s hp hd)
      all_goals exact finish_bind_stop (loadDec_stop s hp hd)
  · rcases hi with hplain | ⟨hp, hmoving⟩
    · simp only [List.mem_cons, Prod.mk.injEq, List.not_mem_nil, or_false] at hplain
      rcases hplain with ⟨rfl, rfl⟩ | ⟨rfl, rfl⟩ | ⟨rfl, rfl⟩ | ⟨rfl, rfl⟩ | ⟨rfl, rfl⟩ |
        ⟨rfl, rfl⟩ | ⟨rfl, rfl⟩
      on_goal 7 => exact finish_bind_stop (push_stop (memWrite_stop s hs))
      all_goals exact finish_bind_stop (memWrite_stop s hs)
    · simp only [List.mem_cons, Prod.mk.injEq, List.not_mem_nil, or_false] at hmoving
      rcases hmoving with ⟨rfl, rfl, rfl⟩ | ⟨rfl, rfl, rfl⟩ | ⟨rfl, rfl, rfl⟩ | ⟨rfl, rfl, rfl⟩ |
        ⟨rfl, rfl, rfl⟩ | ⟨rfl, rfl, rfl⟩
      iterate 3 exact finish_bind_stop (storeInc_stop s hp hs)
      all_goals exact finish_bind_stop (storeDec_stop s hp hs)

/-! ### Program memory (R83) -/

theorem interruptEntry_flash {n : Nat} (h : interruptEntry n s = .ok t) : t.flash = s.flash := by
  obtain ⟨-, u, hu, rfl⟩ := interruptEntry_ok_iff.mp h
  exact (pushBytes_keepsOutside (D := []) Config.returnAddressBytes _ s u hu).flash

theorem coreStep_flash (h : coreStep s = .next t) : t.flash = s.flash := by
  obtain ⟨d, hd⟩ := afterBoundary_eq s
  rcases coreStep_cases h with ⟨n, -, hentry⟩ | ⟨-, -, rfl⟩ | ⟨-, -, i, -, hexec⟩
  · rw [interruptEntry_flash hentry, hd]
  · rw [hd]
  · rw [(exec_sameOutside hexec).flash, hd]

/-- Settles O9: each move a step can be leaves program memory alone; a store goes to the data space. -/
theorem programConstant : Obligations.ProgramConstant := by
  intro s t h
  obtain ⟨a, d, ⟨u, rfl, hcore | rfl | rfl⟩ | ⟨c, -, rfl⟩⟩ := step_cases h
  · exact (coreStep_flash hcore).trans rfl
  · rfl
  · rfl
  · rfl

end Sys2Proof.Machine
end

section
/-! SUPPORT. The formats of the encoding tables (spec/30_encoding.md R104..R107): for each, its first word
carries the operands in its fields, and a word is made of its fields and the bits its rows fix. -/

namespace Sys2Proof

variable {α β : Type}

/-! ### Registers by their bits (R21, R104) -/

theorem bits_regOf (b : BitVec 5) : Reg.bits (regOf b) = b := rfl

theorem regOf_eq {b : BitVec 5} {d : Reg} (h : ∀ i < 5, b.getLsbD i = d.bits.getLsbD i) :
    regOf b = d :=
  congrArg regOf (BitVec.eq_of_getLsbD_eq h)

theorem toFin_eq {b : BitVec 3} {n : BitNo} (h : ∀ i < 3, b.getLsbD i = n.bits.getLsbD i) :
    b.toFin = n :=
  congrArg BitVec.toFin (BitVec.eq_of_getLsbD_eq h)

theorem bits_toFin (b : BitVec 3) : BitNo.bits b.toFin = b := rfl

theorem bits_of_isUpper : ∀ d : Reg, d.isUpper = true → d.bits[4] = true := by decide

theorem bits_of_isEven : ∀ d : Reg, d.isEven = true → d.bits[0] = false := by decide

theorem bits_of_isMulsu : ∀ d : Reg, d.isMulsu = true → d.bits[4] = true ∧ d.bits[3] = false := by
  decide

theorem bits_of_isUpperPair : ∀ d : Reg, d.isUpperPair = true →
    d.bits[4] = true ∧ d.bits[3] = true ∧ d.bits[0] = false := by decide

theorem isUpper_regOf : ∀ b : BitVec 4, (regOf (1#1 ++ b)).isUpper = true := by decide

theorem isEven_regOf : ∀ b : BitVec 4, (regOf (b ++ 0#1)).isEven = true := by decide

theorem isMulsu_regOf : ∀ b : BitVec 3, (regOf (0b10#2 ++ b)).isMulsu = true := by decide

theorem isUpperPair_regOf : ∀ b : BitVec 2, (regOf (0b11#2 ++ b ++ 0#1)).isUpperPair = true := by
  decide

/-! ### What a format is -/

/-- A format with one operand: the field reads back what was encoded, and a word encoded from its field
keeps the bits outside the mask and has the pattern under it. -/
structure Format₁ (mask pattern : Word) (enc : α → Word) (field : Word → α) : Prop where
  field_enc (a : α) : field (enc a) = a
  enc_field (w : Word) : enc (field w) = pattern ||| (w &&& ~~~mask)

/-- A format with two operands; `ok` says which operands it can name. -/
structure Format₂ (mask pattern : Word) (enc : α → β → Word) (fieldA : Word → α) (fieldB : Word → β)
    (ok : α → β → Bool) : Prop where
  fieldA_enc {a : α} {b : β} (h : ok a b = true) : fieldA (enc a b) = a
  fieldB_enc {a : α} {b : β} (h : ok a b = true) : fieldB (enc a b) = b
  enc_fields (w : Word) : enc (fieldA w) (fieldB w) = pattern ||| (w &&& ~~~mask)
  ok_fields (w : Word) : ok (fieldA w) (fieldB w) = true

/-- Replacing the bits of a word under a mask by what they are. -/
theorem or_and_not_of_masked {m p w : Word} (h : w &&& m = p) : p ||| (w &&& ~~~m) = w := by
  rw [← h, ← BitVec.and_or_distrib_left, BitVec.or_not_self, BitVec.and_allOnes]

theorem masked_of_or_and_not {m p x w : Word} (h : x = p ||| (w &&& ~~~m)) (hp : p &&& m = p) :
    x &&& m = p := by
  rw [h, BitVec.and_or_distrib_right, hp, BitVec.and_assoc, BitVec.not_and_self]
  simp

section
variable {m p : Word}

theorem Format₁.enc_field_of_masked {enc : α → Word} {field : Word → α} (f : Format₁ m p enc field)
    {w : Word} (h : w &&& m = p) : enc (field w) = w :=
  (f.enc_field w).trans (or_and_not_of_masked h)

theorem Format₁.enc_masked {enc : α → Word} {field : Word → α} (f : Format₁ m p enc field)
    (hp : p &&& m = p) (a : α) : enc a &&& m = p :=
  masked_of_or_and_not (by rw [← f.enc_field, f.field_enc]) hp

variable {enc : α → β → Word} {fieldA : Word → α} {fieldB : Word → β} {ok : α → β → Bool}

theorem Format₂.enc_fields_of_masked (f : Format₂ m p enc fieldA fieldB ok) {w : Word}
    (h : w &&& m = p) : enc (fieldA w) (fieldB w) = w :=
  (f.enc_fields w).trans (or_and_not_of_masked h)

theorem Format₂.enc_masked (f : Format₂ m p enc fieldA fieldB ok) (hp : p &&& m = p) {a : α} {b : β}
    (h : ok a b = true) : enc a b &&& m = p :=
  masked_of_or_and_not (by rw [← f.enc_fields, f.fieldA_enc h, f.fieldB_enc h]) hp

end

/-! ### The first word of format Abs22 (R107) -/

/-- The first word of JMP and CALL, from the upper six bits of the target. -/
def encAbsHigh (o : BitVec 1) (k : BitVec 6) : Word :=
  0b1001010#7 ++ k.extractLsb' 1 5 ++ 0b11#2 ++ o ++ k.extractLsb' 0 1

/-- The upper six bits of the target. -/
def fieldAbsHigh (w : Word) : BitVec 6 := w.extractLsb' 4 5 ++ w.extractLsb' 0 1

theorem fieldAbs_eq (w w2 : Word) : fieldAbs w w2 = fieldAbsHigh w ++ w2 := rfl

theorem encAbs22_append (o : BitVec 1) (k : BitVec 6) (w2 : Word) :
    encAbs22 o (k ++ w2) = [encAbsHigh o k, w2] := by
  have hhigh : (k ++ w2).extractLsb' 17 5 = k.extractLsb' 1 5 :=
    BitVec.extractLsb'_append_eq_of_le (by decide)
  have hbit : (k ++ w2).extractLsb' 16 1 = k.extractLsb' 0 1 :=
    BitVec.extractLsb'_append_eq_of_le (by decide)
  rw [encAbs22, encAbsHigh, hhigh, hbit, BitVec.extractLsb'_append_eq_right]

/-! ### The formats, bit by bit -/

namespace Format

open BitVec

/-- Formats Rd and LdSt. -/
theorem rd (op : BitVec 7) (mode : BitVec 4) : Format₁ 0xFE0F (op ++ 0#5 ++ mode)
    (encRd op · mode) fieldD := by
  refine ⟨fun _ => regOf_eq ?_, fun _ => eq_of_getLsbD_eq ?_⟩
  all_goals
    intro i hi
    simp only [encRd, fieldD, bits_regOf, getLsbD_append, getLsbD_extractLsb', getLsbD_or, getLsbD_and]
    interval_cases i <;> simp

/-- Format Br. -/
theorem br (c : BitVec 1) (s : BitVec 3) : Format₁ 0xFC07 (0b11110#5 ++ c ++ 0#7 ++ s)
    (encBr c · s) fieldRel7 := by
  refine ⟨fun _ => eq_of_getLsbD_eq ?_, fun _ => eq_of_getLsbD_eq ?_⟩
  all_goals
    intro i hi
    simp only [encBr, fieldRel7, getLsbD_append, getLsbD_extractLsb', getLsbD_or, getLsbD_and]
    interval_cases i <;> simp

/-- Format Rel12. -/
theorem rel12 (o : BitVec 1) : Format₁ 0xF000 (0b110#3 ++ o ++ 0#12) (encRel12 o) fieldRel12 := by
  refine ⟨fun _ => eq_of_getLsbD_eq ?_, fun _ => eq_of_getLsbD_eq ?_⟩
  all_goals
    intro i hi
    simp only [encRel12, fieldRel12, getLsbD_append, getLsbD_extractLsb', getLsbD_or, getLsbD_and]
    interval_cases i <;> simp

/-- The first word of format Abs22. -/
theorem absHigh (o : BitVec 1) : Format₁ 0xFE0E (0b1001010#7 ++ 0#5 ++ 0b11#2 ++ o ++ 0#1)
    (encAbsHigh o) fieldAbsHigh := by
  refine ⟨fun _ => eq_of_getLsbD_eq ?_, fun _ => eq_of_getLsbD_eq ?_⟩
  all_goals
    intro i hi
    simp only [encAbsHigh, fieldAbsHigh, getLsbD_append, getLsbD_extractLsb', getLsbD_or, getLsbD_and]
    interval_cases i <;> simp

/-- Format RdRr. -/
theorem rdRr (op : BitVec 6) : Format₂ 0xFC00 (op ++ 0#10)
    (encRdRr op) fieldD fieldR fun _ _ => true := by
  refine ⟨fun _ => regOf_eq ?_, fun _ => regOf_eq ?_, fun _ => eq_of_getLsbD_eq ?_, fun _ => rfl⟩
  all_goals
    intro i hi
    simp only [encRdRr, fieldD, fieldR, bits_regOf, getLsbD_append, getLsbD_extractLsb',
      getLsbD_or, getLsbD_and]
    interval_cases i <;> simp

/-- Format RdK. -/
theorem rdK (op : BitVec 4) : Format₂ 0xF000 (op ++ 0#12)
    (encRdK op) fieldUpper fieldK fun d _ => d.isUpper := by
  refine ⟨fun h => regOf_eq ?_, fun h => eq_of_getLsbD_eq ?_,
    fun _ => eq_of_getLsbD_eq ?_, fun _ => isUpper_regOf _⟩
  all_goals
    intro i hi
    simp only [encRdK, fieldUpper, fieldK, bits_regOf, getLsbD_append, getLsbD_extractLsb',
      getLsbD_or, getLsbD_and]
    interval_cases i <;> simp [bits_of_isUpper, *]

/-- Format LDD. -/
theorem ldd (store y : BitVec 1) : Format₂ 0xD208 (0b10#2 ++ 0#4 ++ store ++ 0#5 ++ y ++ 0#3)
    (encLdd store y) fieldD fieldQ fun _ _ => true := by
  refine ⟨fun _ => regOf_eq ?_, fun _ => eq_of_getLsbD_eq ?_,
    fun _ => eq_of_getLsbD_eq ?_, fun _ => rfl⟩
  all_goals
    intro i hi
    simp only [encLdd, fieldD, fieldQ, bits_regOf, getLsbD_append, getLsbD_extractLsb',
      getLsbD_or, getLsbD_and]
    interval_cases i <;> simp

/-- Format IO. -/
theorem io (s : BitVec 1) : Format₂ 0xF800 (0b1011#4 ++ s ++ 0#11)
    (encIO s) fieldD fieldA6 fun _ _ => true := by
  refine ⟨fun _ => regOf_eq ?_, fun _ => eq_of_getLsbD_eq ?_,
    fun _ => eq_of_getLsbD_eq ?_, fun _ => rfl⟩
  all_goals
    intro i hi
    simp only [encIO, fieldD, fieldA6, bits_regOf, getLsbD_append, getLsbD_extractLsb',
      getLsbD_or, getLsbD_and]
    interval_cases i <;> simp

/-- Format IOBit. -/
theorem ioBit (op : BitVec 2) : Format₂ 0xFF00 (0b100110#6 ++ op ++ 0#8)
    (encIOBit op) fieldA5 fieldB fun _ _ => true := by
  refine ⟨fun _ => eq_of_getLsbD_eq ?_, fun _ => toFin_eq ?_,
    fun _ => eq_of_getLsbD_eq ?_, fun _ => rfl⟩
  all_goals
    intro i hi
    simp only [encIOBit, fieldA5, fieldB, bits_toFin, getLsbD_append, getLsbD_extractLsb',
      getLsbD_or, getLsbD_and]
    interval_cases i <;> simp

/-- Format RBit. -/
theorem rBit (s : BitVec 1) : Format₂ 0xFE08 (0b111111#6 ++ s ++ 0#9)
    (encRBit s) fieldD fieldB fun _ _ => true := by
  refine ⟨fun _ => regOf_eq ?_, fun _ => toFin_eq ?_, fun _ => eq_of_getLsbD_eq ?_, fun _ => rfl⟩
  all_goals
    intro i hi
    simp only [encRBit, fieldD, fieldB, bits_regOf, bits_toFin, getLsbD_append, getLsbD_extractLsb',
      getLsbD_or, getLsbD_and]
    interval_cases i <;> simp

/-- Format IW. -/
theorem iw (o : BitVec 1) : Format₂ 0xFF00 (0b1001011#7 ++ o ++ 0#8)
    (encIW o) fieldIW fieldK6 fun d _ => d.isUpperPair := by
  refine ⟨fun h => regOf_eq ?_, fun h => eq_of_getLsbD_eq ?_,
    fun _ => eq_of_getLsbD_eq ?_, fun _ => isUpperPair_regOf _⟩
  all_goals
    intro i hi
    simp only [encIW, fieldIW, fieldK6, bits_regOf, getLsbD_append, getLsbD_extractLsb',
      getLsbD_or, getLsbD_and]
    interval_cases i <;> simp [bits_of_isUpperPair, *]

/-- Format MOVW. -/
theorem movw : Format₂ 0xFF00 0x0100
    encMovw fieldPairD fieldPairR fun d r => d.isEven && r.isEven := by
  refine ⟨fun h => regOf_eq ?_, fun h => regOf_eq ?_,
    fun _ => eq_of_getLsbD_eq ?_, fun _ => Bool.and_eq_true_iff.mpr ⟨isEven_regOf _, isEven_regOf _⟩⟩
  all_goals
    intro i hi
    simp only [encMovw, fieldPairD, fieldPairR, bits_regOf, getLsbD_append, getLsbD_extractLsb',
      getLsbD_or, getLsbD_and]
    interval_cases i <;> simp_all [bits_of_isEven]

/-- Format MULS. -/
theorem muls : Format₂ 0xFF00 0x0200
    encMuls fieldUpper fieldUpperR fun d r => d.isUpper && r.isUpper := by
  refine ⟨fun h => regOf_eq ?_, fun h => regOf_eq ?_,
    fun _ => eq_of_getLsbD_eq ?_, fun _ => Bool.and_eq_true_iff.mpr ⟨isUpper_regOf _, isUpper_regOf _⟩⟩
  all_goals
    intro i hi
    simp only [encMuls, fieldUpper, fieldUpperR, bits_regOf, getLsbD_append, getLsbD_extractLsb',
      getLsbD_or, getLsbD_and]
    interval_cases i <;> simp_all [bits_of_isUpper]

/-- Format MULSU. -/
theorem mulsu : Format₂ 0xFF88 0x0300
    encMulsu fieldMulsuD fieldMulsuR fun d r => d.isMulsu && r.isMulsu := by
  refine ⟨fun h => regOf_eq ?_, fun h => regOf_eq ?_,
    fun _ => eq_of_getLsbD_eq ?_, fun _ => Bool.and_eq_true_iff.mpr ⟨isMulsu_regOf _, isMulsu_regOf _⟩⟩
  all_goals
    intro i hi
    simp only [encMulsu, fieldMulsuD, fieldMulsuR, bits_regOf, getLsbD_append, getLsbD_extractLsb',
      getLsbD_or, getLsbD_and]
    interval_cases i <;> simp_all [bits_of_isMulsu]

end Format

end Sys2Proof
end

section
/-! SUPPORT. The rows of the opcode table against the encoder (spec/30_encoding.md R103, R118, R119): a row
builds a well-formed instruction with the words it read, and an instruction's words are read back by one of
the rows. -/

namespace Sys2Proof

variable {α β : Type} {m p : Word}

/-! ### The row of a word -/

/-- A row before another one is disjoint from it; only LD and ST stand before the rows of LDD and STD, which
match their words too (R119). -/
theorem rows_before : ∀ x ∈ Config.opcodeTable.zipIdx, ∀ q ∈ Config.opcodeTable.take x.2,
    q.disjoint x.1 = true ∨ x.1.mask = 0xD208 ∧ q.mask = 0xFE0F ∧ q.pattern = x.1.pattern := by
  decide +kernel

theorem pattern_and_mask : ∀ r ∈ Config.opcodeTable, r.pattern &&& r.mask = r.pattern := by
  decide +kernel

/-- The row at place `n` is taken for the words it accepts, a row of LDD or STD where the word is not one
of LD or ST. -/
theorem findRow_of_place {n : Nat} {r : Row} {w : Word} (hn : Config.opcodeTable[n]? = some r)
    (hw : w &&& r.mask = r.pattern) (hldd : r.mask = 0xD208 → w &&& 0xFE0F ≠ r.pattern) :
    findRow w = some r := by
  refine findRow_eq n hn (beq_iff_eq.mpr hw) fun q hq => ?_
  rcases rows_before (r, n) (List.mem_zipIdx_iff_getElem?.mpr hn) q hq with hd | ⟨hm, hqm, hqp⟩
  · exact Row.not_accepts hd (beq_iff_eq.mpr hw)
  · rw [Row.accepts, hqm, hqp]
    exact beq_eq_false_iff_ne.mpr (hldd hm)

theorem isTwoWord_of_row {w : Word} {r : Row} (h : findRow w = some r) :
    isTwoWord w = r.twoWords := by
  rw [isTwoWord, h]

/-! ### From an instruction to its words -/

/-- The first word of the instruction finds the row that gives it back, in the decoder's spelling. -/
inductive Instr.ReadsBack (i : Instr) : Prop
  | one {w m p : Word} {make : Word → Instr} (henc : encode i = [w])
      (hrow : findRow w = some ⟨m, p, .one make⟩) (hmake : make w = i.canonical)
  | two {w w2 m p : Word} {make : Word → Word → Instr} (henc : encode i = [w, w2])
      (hrow : findRow w = some ⟨m, p, .two make⟩) (hmake : make w w2 = i.canonical)

theorem Instr.ReadsBack.decodeWords_encode {i : Instr} (h : i.ReadsBack) :
    decodeWords (encode i) = .ok i.canonical := by
  cases h with
  | one henc hrow hmake =>
    rw [henc, ← hmake, decodeWords, isTwoWord_of_row hrow]
    exact decode_of_row 0 hrow
  | two henc hrow hmake =>
    rw [henc, ← hmake]
    exact decode_of_row _ hrow

/-- A one-word instruction says so in its word. -/
theorem Instr.ReadsBack.isTwoWord_of_one {i : Instr} (h : i.ReadsBack) {w : Word} (hi : encode i = [w]) :
    isTwoWord w = false := by
  cases h with
  | one henc hrow =>
    cases henc.symm.trans hi
    exact isTwoWord_of_row hrow
  | two henc => cases henc.symm.trans hi

/-- A two-word instruction says so in its first word. -/
theorem Instr.ReadsBack.isTwoWord_of_two {i : Instr} (h : i.ReadsBack) {w w2 : Word}
    (hi : encode i = [w, w2]) : isTwoWord w = true := by
  cases h with
  | one henc => cases henc.symm.trans hi
  | two henc hrow =>
    cases henc.symm.trans hi
    exact isTwoWord_of_row hrow

/-- An instruction without operands is its row's pattern. -/
theorem readsBack_fixed {i : Instr} (n : Nat) (henc : encode i = [p] := by rfl)
    (hn : Config.opcodeTable[n]? = some ⟨0xFFFF, p, .one fun _ => i⟩ := by rfl)
    (hcan : i.canonical = i := by rfl) : i.ReadsBack :=
  .one henc (findRow_of_place hn BitVec.and_allOnes fun h => absurd h (by simp)) hcan.symm

section
variable {enc : α → Word} {field : Word → α} {i : Instr} {a : α}

theorem Format₁.findRow_enc (f : Format₁ m p enc field) {n : Nat} {build : Build}
    (hn : Config.opcodeTable[n]? = some ⟨m, p, build⟩) (hm : m ≠ 0xD208) (a : α) :
    findRow (enc a) = some ⟨m, p, build⟩ :=
  findRow_of_place hn (f.enc_masked (pattern_and_mask _ (List.mem_of_getElem? hn)) a)
    fun h => absurd h hm

theorem Format₁.readsBack (f : Format₁ m p enc field) (n : Nat) {make : α → Instr}
    (henc : encode i = [enc a] := by rfl)
    (hn : Config.opcodeTable[n]? = some ⟨m, p, .one fun w => make (field w)⟩ := by rfl)
    (hcan : i.canonical = make a := by rfl) (hm : m ≠ 0xD208 := by decide) : i.ReadsBack :=
  .one henc (f.findRow_enc hn hm a) (by rw [f.field_enc, hcan])

theorem Format₁.readsBack_two (f : Format₁ m p enc field) (n : Nat) {w2 : Word}
    {make : α → Word → Instr} (henc : encode i = [enc a, w2] := by rfl)
    (hn : Config.opcodeTable[n]? = some ⟨m, p, .two fun w w2 => make (field w) w2⟩ := by rfl)
    (hcan : i.canonical = make a w2 := by rfl) (hm : m ≠ 0xD208 := by decide) : i.ReadsBack :=
  .two henc (f.findRow_enc hn hm a) (by rw [f.field_enc, hcan])

end

section
variable {enc : α → β → Word} {fieldA : Word → α} {fieldB : Word → β} {ok : α → β → Bool}
  {i : Instr} {a : α} {b : β} {make : α → β → Instr}

theorem Format₂.readsBack_of_ne (f : Format₂ m p enc fieldA fieldB ok) (n : Nat)
    (henc : encode i = [enc a b])
    (hn : Config.opcodeTable[n]? = some ⟨m, p, .one fun w => make (fieldA w) (fieldB w)⟩)
    (hcan : i.canonical = make a b) (hok : ok a b = true)
    (hldd : m = 0xD208 → enc a b &&& 0xFE0F ≠ p) : i.ReadsBack :=
  .one henc
    (findRow_of_place hn (f.enc_masked (pattern_and_mask _ (List.mem_of_getElem? hn)) hok) hldd)
    (by rw [f.fieldA_enc hok, f.fieldB_enc hok, hcan])

theorem Format₂.readsBack (f : Format₂ m p enc fieldA fieldB ok) (n : Nat) (hok : ok a b = true)
    (henc : encode i = [enc a b] := by rfl)
    (hn : Config.opcodeTable[n]? = some ⟨m, p, .one fun w => make (fieldA w) (fieldB w)⟩ := by rfl)
    (hcan : i.canonical = make a b := by rfl) (hm : m ≠ 0xD208 := by decide) : i.ReadsBack :=
  f.readsBack_of_ne n henc hn hcan hok fun h => absurd h hm

end

/-- The mask of LD and ST covers the bits of `q`. -/
theorem fieldQ_and (w : Word) : fieldQ (w &&& 0xFE0F) = fieldQ w := by
  refine BitVec.eq_of_getLsbD_eq fun i hi => ?_
  simp only [fieldQ, BitVec.getLsbD_append, BitVec.getLsbD_extractLsb', BitVec.getLsbD_and]
  interval_cases i <;> simp

/-- A displacement form with q ≠ 0 has no word of LD or ST. -/
theorem encLdd_not_plain {store y : BitVec 1} {d : Reg} {q : BitVec 6} (hq : q ≠ 0) :
    encLdd store y d q &&& 0xFE0F ≠ 0b10#2 ++ 0#4 ++ store ++ 0#5 ++ y ++ 0#3 := by
  have hzero : ∀ store y : BitVec 1,
      fieldQ (0b10#2 ++ 0#4 ++ store ++ 0#5 ++ y ++ 0#3) = 0 := by decide
  intro h
  have hfield := (Format.ldd store y).fieldB_enc (a := d) (b := q) rfl
  rw [← fieldQ_and, h, hzero] at hfield
  exact hq hfield.symm

/-- A displacement form is read back by its own row, and with q = 0 by the row of LD or ST. -/
theorem readsBack_disp {store y : BitVec 1} {op : BitVec 7} {mode : BitVec 4} {d : Reg} {q : BitVec 6}
    {make : Reg → BitVec 6 → Instr} {plain : Reg → Instr} (n0 n : Nat)
    (hsame : Laws.SameWords.Statement (make d q))
    (hcan : (make d q).canonical = if q = 0 then plain d else make d q)
    (henc : encode (make d q) = [encLdd store y d q])
    (henc0 : encode (plain d) = [encRd op d mode])
    (hn0 : Config.opcodeTable[n0]? = some ⟨0xFE0F, op ++ 0#5 ++ mode, .one fun w => plain (fieldD w)⟩)
    (hn : Config.opcodeTable[n]? = some ⟨0xD208, 0b10#2 ++ 0#4 ++ store ++ 0#5 ++ y ++ 0#3,
      .one fun w => make (fieldD w) (fieldQ w)⟩)
    (hwf : (make d q).wellFormed = true) : (make d q).ReadsBack := by
  by_cases hq : q = 0
  · rw [if_pos hq] at hcan
    refine (Format.rd op mode).readsBack n0 ?_ hn0 hcan
    rw [← henc0, ← hcan, (hsame hwf).2]
  · rw [if_neg hq] at hcan
    exact (Format.ldd store y).readsBack_of_ne n henc hn hcan rfl fun _ => encLdd_not_plain hq

/-- The two words of JMP and CALL are read back by their rows. -/
theorem readsBack_jump {o : BitVec 1} {k : BitVec 22} {make : BitVec 22 → Instr} (n : Nat)
    (henc : encode (make k) = encAbs22 o k)
    (hn : Config.opcodeTable[n]? = some ⟨0xFE0E, 0b1001010#7 ++ 0#5 ++ 0b11#2 ++ o ++ 0#1,
      .two fun w w2 => make (fieldAbs w w2)⟩)
    (hcan : (make k).canonical = make k) : (make k).ReadsBack := by
  have hk : (k.extractLsb' 16 6 ++ k.extractLsb' 0 16 : BitVec 22) = k :=
    BitVec.extractLsb'_append_extractLsb' (w := 6) (len := 16)
  refine (Format.absHigh o).readsBack_two (make := fun hi w2 => make (hi ++ w2)) n ?_ hn
    (hcan.trans (congrArg make hk.symm))
  rw [henc, ← encAbs22_append, hk]

section
open Format Laws

/-- Every well-formed instruction is read back; the numbers are the places of the rows in the table. -/
theorem readsBack_of_wellFormed (i : Instr) (h : i.wellFormed = true) : i.ReadsBack := by
  cases i with
  | mov d r => exact (rdRr _).readsBack 14 rfl
  | movw d r => exact movw.readsBack 1 h
  | ldi d k => exact (rdK _).readsBack 94 h
  | lds d k => exact (rd _ _).readsBack_two 28
  | ldX d => exact (rd _ _).readsBack 35
  | ldXInc d => exact (rd _ _).readsBack 36
  | ldXDec d => exact (rd _ _).readsBack 37
  | ldY d => exact (rd _ _).readsBack 20
  | ldYInc d => exact (rd _ _).readsBack 33
  | ldYDec d => exact (rd _ _).readsBack 34
  | ldZ d => exact (rd _ _).readsBack 21
  | ldZInc d => exact (rd _ _).readsBack 29
  | ldZDec d => exact (rd _ _).readsBack 30
  | lddY d q =>
    exact readsBack_disp 20 24 (SameWords.lddY d q) rfl rfl rfl
      rfl rfl h
  | lddZ d q =>
    exact readsBack_disp 21 25 (SameWords.lddZ d q) rfl rfl rfl
      rfl rfl h
  | sts k r => exact (rd _ _).readsBack_two (make := fun r k => .sts k r) 39
  | stX d => exact (rd _ _).readsBack 44
  | stXInc d => exact (rd _ _).readsBack 45
  | stXDec d => exact (rd _ _).readsBack 46
  | stY d => exact (rd _ _).readsBack 22
  | stYInc d => exact (rd _ _).readsBack 42
  | stYDec d => exact (rd _ _).readsBack 43
  | stZ d => exact (rd _ _).readsBack 23
  | stZInc d => exact (rd _ _).readsBack 40
  | stZDec d => exact (rd _ _).readsBack 41
  | stdY q r =>
    exact readsBack_disp (make := fun r q => .stdY q r) 22 26 (SameWords.stdY q r) rfl rfl rfl
      rfl rfl h
  | stdZ q r =>
    exact readsBack_disp (make := fun r q => .stdZ q r) 23 27 (SameWords.stdZ q r) rfl rfl rfl
      rfl rfl h
  | lpm => exact readsBack_fixed 79
  | lpmZ d => exact (rd _ _).readsBack 31
  | lpmZInc d => exact (rd _ _).readsBack 32
  | spm => exact readsBack_fixed 80
  | ioIn d a => exact (io _).readsBack 90 rfl
  | ioOut a r => exact (io _).readsBack (make := fun r a => .ioOut a r) 91 rfl
  | push d => exact (rd _ _).readsBack 47
  | pop d => exact (rd _ _).readsBack 38
  | swap d => exact (rd _ _).readsBack 50
  | sbi a b => exact (ioBit _).readsBack 87 rfl
  | cbi a b => exact (ioBit _).readsBack 85 rfl
  | sec => exact readsBack_fixed 56
  | sez => exact readsBack_fixed 57
  | sen => exact readsBack_fixed 58
  | sev => exact readsBack_fixed 59
  | ses => exact readsBack_fixed 60
  | seh => exact readsBack_fixed 61
  | setT => exact readsBack_fixed 62
  | sei => exact readsBack_fixed 63
  | clc => exact readsBack_fixed 64
  | clz => exact readsBack_fixed 65
  | cln => exact readsBack_fixed 66
  | clv => exact readsBack_fixed 67
  | cls => exact readsBack_fixed 68
  | clh => exact readsBack_fixed 69
  | clt => exact readsBack_fixed 70
  | cli => exact readsBack_fixed 71
  | nop => exact readsBack_fixed 0
  | brk => exact readsBack_fixed 77
  | wdr => exact readsBack_fixed 78
  | sleep => exact readsBack_fixed 76
  | add d r => exact (rdRr _).readsBack 6 rfl
  | adc d r => exact (rdRr _).readsBack 10 rfl
  | adiw d k => exact (iw _).readsBack 83 h
  | sub d r => exact (rdRr _).readsBack 9 rfl
  | subi d k => exact (rdK _).readsBack 17 h
  | sbc d r => exact (rdRr _).readsBack 5 rfl
  | sbci d k => exact (rdK _).readsBack 16 h
  | sbiw d k => exact (iw _).readsBack 84 h
  | and d r => exact (rdRr _).readsBack 11 rfl
  | andi d k => exact (rdK _).readsBack 19 h
  | or d r => exact (rdRr _).readsBack 13 rfl
  | ori d k => exact (rdK _).readsBack 18 h
  | eor d r => exact (rdRr _).readsBack 12 rfl
  | com d => exact (rd _ _).readsBack 48
  | neg d => exact (rd _ _).readsBack 49
  | inc d => exact (rd _ _).readsBack 51
  | dec d => exact (rd _ _).readsBack 55
  | clr d => exact (rdRr _).readsBack 12 rfl
  | ser d => exact (rdK _).readsBack 94 h
  | cp d r => exact (rdRr _).readsBack 8 rfl
  | cpc d r => exact (rdRr _).readsBack 4 rfl
  | cpi d k => exact (rdK _).readsBack 15 h
  | mul d r => exact (rdRr _).readsBack 89 rfl
  | muls d r => exact muls.readsBack 2 h
  | mulsu d r => exact mulsu.readsBack 3 h
  | lsl d => exact (rdRr _).readsBack 6 rfl
  | lsr d => exact (rd _ _).readsBack 53
  | rol d => exact (rdRr _).readsBack 10 rfl
  | ror d => exact (rd _ _).readsBack 54
  | asr d => exact (rd _ _).readsBack 52
  | rjmp k => exact (rel12 _).readsBack 92
  | jmp k => exact readsBack_jump 81 rfl rfl rfl
  | ijmp => exact readsBack_fixed 72
  | rcall k => exact (rel12 _).readsBack 93
  | call k => exact readsBack_jump 82 rfl rfl rfl
  | icall => exact readsBack_fixed 73
  | ret => exact readsBack_fixed 74
  | reti => exact readsBack_fixed 75
  | cpse d r => exact (rdRr _).readsBack 7 rfl
  | sbrc r b => exact (rBit _).readsBack 111 rfl
  | sbrs r b => exact (rBit _).readsBack 112 rfl
  | sbic a b => exact (ioBit _).readsBack 86 rfl
  | sbis a b => exact (ioBit _).readsBack 88 rfl
  | breq k => exact (br _ _).readsBack 96
  | brne k => exact (br _ _).readsBack 104
  | brcs k => exact (br _ _).readsBack 95
  | brcc k => exact (br _ _).readsBack 103
  | brlo k => exact (br _ _).readsBack 95
  | brsh k => exact (br _ _).readsBack 103
  | brmi k => exact (br _ _).readsBack 97
  | brpl k => exact (br _ _).readsBack 105
  | brhs k => exact (br _ _).readsBack 100
  | brhc k => exact (br _ _).readsBack 108
  | brts k => exact (br _ _).readsBack 101
  | brtc k => exact (br _ _).readsBack 109
  | brvs k => exact (br _ _).readsBack 98
  | brvc k => exact (br _ _).readsBack 106
  | brie k => exact (br _ _).readsBack 102
  | brid k => exact (br _ _).readsBack 110
  | brge k => exact (br _ _).readsBack 107
  | brlt k => exact (br _ _).readsBack 99

end

/-- Settles O1: the words find the row that gives the instruction back. -/
theorem decodeEncode : Obligations.DecodeEncode :=
  fun i hwf => (readsBack_of_wellFormed i hwf).decodeWords_encode

theorem Instr.ReadsBack.one_word {i : Instr} (h : i.ReadsBack) {w : Word} (hi : encode i = [w]) :
    ∃ w rest, encode i = w :: rest ∧ isTwoWord w = false ∧ rest = [] :=
  ⟨w, [], hi, h.isTwoWord_of_one hi, rfl⟩

theorem Instr.ReadsBack.two_words {i : Instr} (h : i.ReadsBack) {w w2 : Word}
    (hi : encode i = [w, w2]) :
    ∃ w rest, encode i = w :: rest ∧ isTwoWord w = true ∧ rest.length = 1 :=
  ⟨w, [w2], hi, h.isTwoWord_of_two hi, rfl⟩

/-- Settles O4, from the row that reads the words back. -/
theorem instructionLength : Obligations.InstructionLength := by
  intro i hwf
  have h := readsBack_of_wellFormed i hwf
  cases i
  case lds | sts | jmp | call => exact h.two_words rfl
  all_goals exact h.one_word rfl

/-! ### From the words to an instruction -/

/-- What the row builds from a word it accepts is well-formed and has the words read. -/
def Row.Sound (r : Row) : Prop :=
  ∀ w w2 : Word, w &&& r.mask = r.pattern → (r.instr w w2).wellFormed = true ∧
    encode (r.instr w w2) = if r.twoWords then [w, w2] else [w]

theorem sound_fixed {i : Instr} (henc : encode i = [p] := by rfl)
    (hwf : i.wellFormed = true := by rfl) : Row.Sound ⟨0xFFFF, p, .one fun _ => i⟩ := by
  intro w _ hw
  refine ⟨hwf, henc.trans ?_⟩
  rw [← BitVec.and_allOnes (x := w)]
  exact congrArg (fun x => [x]) hw.symm

section
variable {p' : Word} {enc : α → Word} {field : Word → α}

theorem Format₁.sound (f : Format₁ m p enc field) {make : α → Instr}
    (henc : ∀ a, encode (make a) = [enc a] := by exact fun _ => rfl)
    (hwf : ∀ a, (make a).wellFormed = true := by exact fun _ => rfl) (hp : p' = p := by rfl) :
    Row.Sound ⟨m, p', .one fun w => make (field w)⟩ :=
  fun _ _ hw => ⟨hwf _, (henc _).trans (congrArg (fun x => [x]) (f.enc_field_of_masked (hw.trans hp)))⟩

theorem Format₁.sound_two (f : Format₁ m p enc field) {make : α → Word → Instr}
    (henc : ∀ a w2, encode (make a w2) = [enc a, w2] := by exact fun _ _ => rfl)
    (hwf : ∀ a w2, (make a w2).wellFormed = true := by exact fun _ _ => rfl) (hp : p' = p := by rfl) :
    Row.Sound ⟨m, p', .two fun w w2 => make (field w) w2⟩ :=
  fun _ w2 hw => ⟨hwf _ _,
    (henc _ _).trans (congrArg (fun x => [x, w2]) (f.enc_field_of_masked (hw.trans hp)))⟩

end

theorem Format₂.sound {p' : Word} {enc : α → β → Word} {fieldA : Word → α} {fieldB : Word → β}
    {ok : α → β → Bool} (f : Format₂ m p enc fieldA fieldB ok) {make : α → β → Instr}
    (henc : ∀ a b, encode (make a b) = [enc a b] := by exact fun _ _ => rfl)
    (hwf : ∀ a b, (make a b).wellFormed = ok a b := by exact fun _ _ => rfl) (hp : p' = p := by rfl) :
    Row.Sound ⟨m, p', .one fun w => make (fieldA w) (fieldB w)⟩ :=
  fun _ _ hw => ⟨(hwf _ _).trans (f.ok_fields _),
    (henc _ _).trans (congrArg (fun x => [x]) (f.enc_fields_of_masked (hw.trans hp)))⟩

theorem sound_jump {p' : Word} {o : BitVec 1} {make : BitVec 22 → Instr}
    (henc : ∀ k, encode (make k) = encAbs22 o k) (hwf : ∀ k, (make k).wellFormed = true)
    (hp : p' = 0b1001010#7 ++ 0#5 ++ 0b11#2 ++ o ++ 0#1) :
    Row.Sound ⟨0xFE0E, p', .two fun w w2 => make (fieldAbs w w2)⟩ :=
  (Format.absHigh o).sound_two (make := fun k w2 => make (k ++ w2))
    (fun k w2 => (henc _).trans (encAbs22_append o k w2)) (fun _ _ => hwf _) hp

section
open Format

/-- The rows in the order of the table, with their formats. -/
theorem opcodeTable_sound : ∀ r ∈ Config.opcodeTable, r.Sound := by
  unfold Config.opcodeTable
  simp only [rows0, rows1, rows2, rows3, rows4, rows5, rows6, rows7, rows8, rows9Load, rows9Store,
    rows9Misc, rows9Word, rows9Bit, rows9Mul, rowsB, rowsC, rowsD, rowsE, rowsF, List.cons_append,
    List.nil_append, List.mem_cons, List.not_mem_nil, or_false, forall_eq_or_imp, forall_eq]
  and_intros
  · exact sound_fixed
  · exact movw.sound
  · exact muls.sound
  · exact mulsu.sound
  iterate 11 exact (rdRr _).sound
  iterate 5 exact (rdK _).sound
  iterate 4 exact (rd _ _).sound
  iterate 2 exact (ldd _ _).sound
  · exact (ldd _ _).sound (make := fun r q => .stdY q r)
  · exact (ldd _ _).sound (make := fun r q => .stdZ q r)
  · exact (rd _ _).sound_two
  iterate 10 exact (rd _ _).sound
  · exact (rd _ _).sound_two (make := fun r k => .sts k r)
  iterate 16 exact (rd _ _).sound
  iterate 25 exact sound_fixed
  iterate 2 exact sound_jump (fun _ => rfl) (fun _ => rfl) rfl
  iterate 2 exact (iw _).sound
  iterate 4 exact (ioBit _).sound
  · exact (rdRr _).sound
  · exact (io _).sound
  · exact (io _).sound (make := fun r a => .ioOut a r)
  iterate 2 exact (rel12 _).sound
  · exact (rdK _).sound
  iterate 16 exact (br _ _).sound
  iterate 2 exact (rBit _).sound

end

/-- Words read and cut to the instruction's length decode as they did. -/
theorem decodeWords_of_isTwoWord (w w2 : Word) :
    decodeWords (if isTwoWord w then [w, w2] else [w]) = decode w w2 := by
  cases h : findRow w with
  | none => simp [decodeWords, isTwoWord, decode, h]
  | some r =>
    obtain ⟨m, p, build⟩ := r
    cases build <;> simp [decodeWords, isTwoWord, decode, h, Row.twoWords, Row.instr]

theorem exists_row_of_decode {w w2 : Word} {i : Instr} (h : decode w w2 = .ok i) :
    ∃ r, findRow w = some r ∧ r.instr w w2 = i := by
  cases hrow : findRow w with
  | none => simp only [decode, hrow, reduceCtorEq] at h
  | some r => exact ⟨r, rfl, Except.ok.inj ((decode_of_row w2 hrow).symm.trans h)⟩

/-- Settles O2: every row is sound, and the spelling is canonical because decoding the instruction's own
words gives the canonical one (O1). -/
theorem decodeSound : Obligations.DecodeSound := by
  intro w w2 i h
  obtain ⟨r, hrow, rfl⟩ := exists_row_of_decode h
  obtain ⟨hmem, hacc⟩ := findRow_mem hrow
  obtain ⟨hwf, henc⟩ := opcodeTable_sound r hmem w w2 (beq_iff_eq.mp hacc)
  rw [← isTwoWord_of_row hrow] at henc
  have hback := decodeEncode _ hwf
  rw [henc, decodeWords_of_isTwoWord, h] at hback
  exact ⟨hwf, (Except.ok.inj hback).symm, henc⟩

end Sys2Proof
end

section
/-! SUPPORT. The words that no row of the table accepts (spec/30_encoding.md R120, R121): the rows and the
ten classes cover all words between them, found by splitting the words bit by bit, and a row meets a
class only at NOP, IJMP and ICALL. -/

namespace Sys2Proof

/-! ### Covering all words -/

/-- The row accepts every word that has `p` under the mask `m`. -/
def Row.acceptsAll (r : Row) (m p : Word) : Bool := r.mask &&& m == r.mask && p &&& r.mask == r.pattern

theorem Row.accepts_of_acceptsAll {r : Row} {m w : Word} (h : r.acceptsAll m (w &&& m) = true) :
    r.accepts w = true := by
  simp only [acceptsAll, Bool.and_eq_true, beq_iff_eq] at h
  obtain ⟨hm, hp⟩ := h
  rw [BitVec.and_assoc, BitVec.and_comm m, hm] at hp
  exact beq_iff_eq.mpr hp

/-- The rows accept all words with `p` under `m`: one of them does, or they accept both halves, with the
first of the bits clear and set, and so on. Rows that no word of a half matches are dropped. -/
def covered : List Nat → List Row → Word → Word → Bool
  | [], rows, m, p => rows.any (·.acceptsAll m p)
  | n :: ns, rows, m, p => rows.any (·.acceptsAll m p) ||
    [p, p ||| BitVec.twoPow 16 n].all fun q =>
      covered ns (rows.filter fun r => (r.pattern ^^^ q) &&& r.mask &&& (m ||| BitVec.twoPow 16 n) == 0)
        (m ||| BitVec.twoPow 16 n) q

/-- One more bit of a word is clear or set. -/
theorem and_or_twoPow (w m : Word) (n : Nat) :
    w &&& (m ||| BitVec.twoPow 16 n) ∈ [w &&& m, w &&& m ||| BitVec.twoPow 16 n] := by
  rw [BitVec.and_or_distrib_left, BitVec.and_twoPow]
  split <;> simp

theorem exists_accepts_of_covered {ns : List Nat} {rows : List Row} {m w : Word}
    (h : covered ns rows m (w &&& m) = true) : ∃ r ∈ rows, r.accepts w = true := by
  have hany {rows : List Row} {m : Word} (h : rows.any (·.acceptsAll m (w &&& m)) = true) :
      ∃ r ∈ rows, r.accepts w = true := by
    obtain ⟨r, hr, hall⟩ := List.any_eq_true.mp h
    exact ⟨r, hr, Row.accepts_of_acceptsAll hall⟩
  induction ns generalizing rows m with
  | nil => exact hany h
  | cons n ns ih =>
    rw [covered, Bool.or_eq_true, List.all_eq_true] at h
    rcases h with h | h
    · exact hany h
    · obtain ⟨r, hr, hw⟩ := ih (h _ (and_or_twoPow w m n))
      exact ⟨r, List.mem_of_mem_filter hr, hw⟩

/-! ### The classes of R121 -/

/-- A class of words no instruction has, in the shape of a row; what it builds is never asked for. -/
def unlistedRow (mask pattern : Word) : Row := ⟨mask, pattern, .one fun _ => .nop⟩

/-- The words with `p` under the mask `m` and one of the values `xs` under the mask `n`. -/
def unlistedValues (m p n : Word) (xs : List Word) : List Row :=
  xs.map fun x => unlistedRow (m ||| n) (p ||| x)

/-- The classes of R121, in its order: the words of NOP, IJMP and ICALL lie in the first and the seventh. -/
def unlistedRows : List Row :=
  [unlistedRow 0xFF00 0x0000] ++
  (unlistedValues 0xFF00 0x0300 0x88 [0x08, 0x80, 0x88] ++
  (unlistedValues 0xFE00 0x9000 0xF [0x3, 0x6, 0x7, 0x8, 0xB] ++
  (unlistedValues 0xFE00 0x9200 0xF [0x3, 0x4, 0x5, 0x6, 0x7, 0x8, 0xB] ++
  ([unlistedRow 0xFE0F 0x9404] ++
  (unlistedValues 0xFF0F 0x9508 0xF0 [0x20, 0x30, 0x40, 0x50, 0x60, 0x70, 0xB0, 0xD0, 0xF0] ++
  [unlistedRow 0xFE0F 0x9409, unlistedRow 0xFE0F 0x940B, unlistedRow 0xFC08 0xF800,
    unlistedRow 0xF808 0xF808])))))

theorem or_and_cancel (m n : Word) : (m ||| n) &&& m = m := by
  refine BitVec.eq_of_getLsbD_eq fun i _ => ?_
  rw [BitVec.getLsbD_and, BitVec.getLsbD_or]
  cases m.getLsbD i <;> simp

theorem exists_unlistedValues_iff {m n p w : Word} {xs : List Word} (hp : p &&& m = p ∧ p &&& n = 0)
    (hx : (xs.all fun x => x &&& m == 0 && x &&& n == x) = true) :
    (∃ c ∈ unlistedValues m p n xs, c.accepts w = true) ↔ w &&& m = p ∧ w &&& n ∈ xs := by
  obtain ⟨hpm, hpn⟩ := hp
  simp only [List.all_eq_true, Bool.and_eq_true, beq_iff_eq] at hx
  simp only [unlistedValues, unlistedRow, List.mem_map, exists_exists_and_eq_and, Row.accepts,
    beq_iff_eq]
  constructor
  · rintro ⟨x, hmem, h⟩
    obtain ⟨hxm, hxn⟩ := hx x hmem
    have hm : w &&& m = p := by
      rw [← or_and_cancel m n, ← BitVec.and_assoc, h, BitVec.and_or_distrib_right, hpm, hxm]
      exact BitVec.or_zero
    have hn : w &&& n = x := by
      rw [← or_and_cancel n m, BitVec.or_comm, ← BitVec.and_assoc, h, BitVec.and_or_distrib_right, hpn,
        hxn]
      exact BitVec.zero_or
    exact ⟨hm, hn ▸ hmem⟩
  · rintro ⟨hm, hn⟩
    exact ⟨_, hn, by rw [BitVec.and_or_distrib_left, hm]⟩

/-- One of the bits 3 and 7 is set (class 2). -/
theorem and_0x88_mem_iff (w : Word) : w &&& 0x88 ∈ [0x08, 0x80, 0x88] ↔ w &&& 0x88 ≠ 0 := by
  have hbits : (0x88 : Word) = .twoPow 16 3 ||| .twoPow 16 7 := rfl
  rw [hbits, BitVec.and_or_distrib_left, BitVec.and_twoPow, BitVec.and_twoPow]
  split <;> split <;> decide

/-- The classes as R121 writes them, the first and the seventh without their exceptions. -/
theorem exists_unlistedRows_iff (w : Word) : (∃ c ∈ unlistedRows, c.accepts w = true) ↔
    w &&& 0xFF00 = 0x0000 ∨
    (w &&& 0xFF00 = 0x0300 ∧ w &&& 0x0088 ≠ 0) ∨
    (w &&& 0xFE00 = 0x9000 ∧ w &&& 0xF ∈ [0x3, 0x6, 0x7, 0x8, 0xB]) ∨
    (w &&& 0xFE00 = 0x9200 ∧ w &&& 0xF ∈ [0x3, 0x4, 0x5, 0x6, 0x7, 0x8, 0xB]) ∨
    w &&& 0xFE0F = 0x9404 ∨
    (w &&& 0xFF0F = 0x9508 ∧ w &&& 0xF0 ∈ [0x20, 0x30, 0x40, 0x50, 0x60, 0x70, 0xB0, 0xD0, 0xF0]) ∨
    w &&& 0xFE0F = 0x9409 ∨
    w &&& 0xFE0F = 0x940B ∨
    w &&& 0xFC08 = 0xF800 ∨
    w &&& 0xF808 = 0xF808 := by
  simp only [unlistedRows, List.mem_append, or_and_right, exists_or]
  rw [exists_unlistedValues_iff (by decide) (by decide), exists_unlistedValues_iff (by decide) (by decide),
    exists_unlistedValues_iff (by decide) (by decide), exists_unlistedValues_iff (by decide) (by decide),
    and_0x88_mem_iff]
  simp only [unlistedRow, Row.accepts, List.mem_cons, List.not_mem_nil, or_false, exists_eq_left,
    exists_eq_or_imp, beq_iff_eq]

/-! ### The words that are no instruction -/

/-- NOP, IJMP and ICALL. -/
def listedInside : List Word := [0x0000, 0x9409, 0x9509]

/-- The bits of a word, those of an operation code before those of a register. -/
def splitOrder : List Nat := [15, 14, 13, 12, 11, 10, 9, 3, 2, 1, 0, 8, 7, 6, 5, 4]

theorem table_covers : covered splitOrder (Config.opcodeTable ++ unlistedRows) 0 0 = true := by
  decide +kernel

theorem unlisted_disjoint : ∀ c ∈ unlistedRows, ∀ r ∈ Config.opcodeTable,
    r.disjoint c = true ∨ r.mask = 0xFFFF ∧ r.pattern ∈ listedInside := by
  decide +kernel

theorem isSome_findRow_of_listedInside : ∀ w ∈ listedInside, (findRow w).isSome = true :=
  List.all_eq_true.mp (by decide +kernel)

theorem findRow_eq_none_iff {w : Word} :
    findRow w = none ↔ (∃ c ∈ unlistedRows, c.accepts w = true) ∧ w ∉ listedInside := by
  constructor
  · intro h
    obtain ⟨r, hr, hw⟩ := exists_accepts_of_covered (m := 0) (w := w)
      ((congrArg (covered splitOrder _ 0) BitVec.and_zero).trans table_covers)
    have hclass : r ∈ unlistedRows :=
      (List.mem_append.mp hr).resolve_left fun hr => List.find?_eq_none.mp h r hr hw
    refine ⟨⟨r, hclass, hw⟩, fun hin => ?_⟩
    have hsome := isSome_findRow_of_listedInside w hin
    rw [h] at hsome
    cases hsome
  · rintro ⟨⟨c, hc, hw⟩, hin⟩
    refine List.find?_eq_none.mpr fun r hr hrw => ?_
    rcases unlisted_disjoint c hc r hr with hd | ⟨hm, hp⟩
    · rw [Row.not_accepts hd hw] at hrw
      cases hrw
    · rw [Row.accepts, hm, beq_iff_eq] at hrw
      rw [← hrw] at hp
      exact hin (BitVec.and_allOnes (x := w) ▸ hp)

theorem decode_eq_unlisted_iff {w w2 : Word} :
    decode w w2 = .error (.unlistedEncoding w) ↔ findRow w = none := by
  cases h : findRow w with
  | none => simp only [decode, h]
  | some r => simp only [decode_of_row w2 h, reduceCtorEq]

/-- Settles O5: the table and the classes of R121 cover all words, and they meet in three words only. -/
theorem unlistedClasses : Obligations.UnlistedClasses := by
  intro w w2
  rw [decode_eq_unlisted_iff, findRow_eq_none_iff, exists_unlistedRows_iff]
  constructor
  · rintro ⟨hclass, hin⟩
    have h0 : w ≠ 0 := by rintro rfl; exact hin (by decide)
    have hijmp : w ≠ 0x9409 := by rintro rfl; exact hin (by decide)
    have hicall : w ≠ 0x9509 := by rintro rfl; exact hin (by decide)
    exact hclass.imp (⟨·, h0⟩) (.imp_right (.imp_right (.imp_right (.imp_right (.imp_right
      (.imp_left (⟨·, hijmp, hicall⟩)))))))
  · intro hclass
    refine ⟨hclass.imp And.left (.imp_right (.imp_right (.imp_right (.imp_right (.imp_right
      (.imp_left And.left)))))), fun hin => ?_⟩
    simp only [listedInside, List.mem_cons, List.not_mem_nil, or_false] at hin
    rcases hin with rfl | rfl | rfl
    all_goals exact absurd hclass (by decide)

/-! ### Sample words -/

/-- Settles O3, by running the decoder on the twelve words. -/
theorem decodeSamples : Obligations.DecodeSamples := by
  unfold Obligations.DecodeSamples
  decide

end Sys2Proof
end

section
/-! SUPPORT. The two spellings of one word (spec/30_encoding.md R119): the additions and logic operations
that LSL, ROL, CLR and SER are, and the displacement 0 of LDD and STD. -/

namespace Sys2Proof.Machine

/-- A byte added to itself with a carry is shifted left, the carry coming in (R257). -/
theorem addResult_self : ∀ (a : Byte) (c : Bool), addResult a a c = (a <<< 1) ||| carryByte c := by
  decide

/-- The flags of `a + a` are those of a left shift of `a` (R226, R255). -/
theorem addFlags_self (f : Sreg) (a : Byte) (c : Bool) :
    addFlags f a a c = shlFlags f a (addResult a a c) := by
  simp only [addFlags, shlFlags, Sreg.mk.injEq, true_and]
  cases a[7] <;> cases a[3] <;> simp

theorem addReg_self (d : Reg) (c : Bool) (s : State) :
    addReg d (s.reg d) c s = shlReg d ((s.reg d <<< 1) ||| carryByte c) s := by
  rw [addReg, shlReg, addFlags_self, addResult_self]

theorem execAdd_self (d : Reg) (s : State) : execAdd d d s = execLsl d s := by
  have hzero : carryByte false = 0#8 := rfl
  rw [execAdd, execLsl, addReg_self, hzero, BitVec.or_zero]

theorem execAdc_self (d : Reg) (s : State) : execAdc d d s = execRol d s := by
  rw [execAdc, execRol, addReg_self]

theorem execEor_self (d : Reg) (s : State) : execEor d d s = execClr d s := by
  simp only [execEor, execClr, BitVec.xor_self, BitVec.ofNat_eq_ofNat]

/-- A displacement form has the meaning of its canonical spelling once its form with q = 0 has: the
address `P + 0` is the pointer (R153, R165). -/
theorem exec_ite_zero {plain : Instr} {disp : BitVec 6 → Instr} {s : State} (q : BitVec 6)
    (h : exec plain s = exec (disp 0) s) :
    exec (if q = 0 then plain else disp q) s = exec (disp q) s := by
  split
  next hq => rw [h, hq]
  next => rfl

/-- Settles O6, by the cases of `Instr.canonical`. -/
theorem aliasMeaning : Obligations.AliasMeaning := by
  intro i s
  cases i
  case lsl d => exact execAdd_self d s
  case rol d => exact execAdc_self d s
  case clr d => exact execEor_self d s
  case ser d => rfl
  case brlo k => rfl
  case brsh k => rfl
  case lddY d q => exact exec_ite_zero (disp := .lddY d) q rfl
  case lddZ d q => exact exec_ite_zero (disp := .lddZ d) q rfl
  case stdY q r => exact exec_ite_zero (disp := (.stdY · r)) q rfl
  case stdZ q r => exact exec_ite_zero (disp := (.stdZ · r)) q rfl
  all_goals rfl

end Sys2Proof.Machine
end

section
/-! SUPPORT. Data transfer (spec/40_data_transfer.md): register moves, the loads and stores of every
addressing form, LPM, I/O and the stack. In each the access is the first part of the instruction and
the sequential end the second, so each result is that of the access with `pc` and the cycle count moved
on. -/

namespace Sys2Proof.Machine

variable {s t : State}

/-! ### The sequential end (R25) -/

theorem finish_advance {n : Nat} (c : Nat) (h : s.hasNext n) :
    finish (advance n c s) =
      .next { s with pc := s.pc + BitVec.ofNat 14 n, cycles := s.cycles + c } := by
  rw [advance_ok c h, finish_ok]

/-- Where the first part of an instruction has a result, the instruction ends past itself. -/
theorem finish_thenAdvance {x : Res State} {n : Nat} (c : Nat) (hx : x = .ok t) (h : t.hasNext n) :
    finish (x >>= fun u => advance n c u) =
      .next { t with pc := t.pc + BitVec.ofNat 14 n, cycles := t.cycles + c } := by
  rw [hx, Res.ok_bind, finish_advance c h]

/-- The same from the state the instruction began in, where the first part left `pc` and the cycle count
alone. -/
theorem finish_thenAdvance_from {x : Res State} {n : Nat} (c : Nat) (hx : x = .ok t)
    (hpc : t.pc = s.pc) (hcycles : t.cycles = s.cycles) (h : s.hasNext n) :
    finish (x >>= fun u => advance n c u) =
      .next { t with pc := s.pc + BitVec.ofNat 14 n, cycles := s.cycles + c } := by
  rw [← hpc, ← hcycles]
  exact finish_thenAdvance c hx (by rwa [State.hasNext, hpc])

/-! ### Register moves (R140..R142, R190, R248) -/

/-- A register pair copied as a word is copied byte by byte (R22, R141). -/
theorem State.setPair_pair (s : State) (d r : Reg) :
    s.setPair d (s.pair r) = (s.setReg d (s.reg r)).setReg (d + 1) (s.reg (r + 1)) := by
  rw [State.setPair, State.pair, lowByte_bytePair, highByte_bytePair]

/-- The two halves of a byte exchanged are the byte rotated by four (R190). -/
theorem swapNibbles_eq_rotateLeft :
    ∀ b : Byte, b.extractLsb' 0 4 ++ b.extractLsb' 4 4 = b.rotateLeft 4 := by
  intro b
  apply BitVec.eq_of_getLsbD_eq
  intro i hi
  simp only [BitVec.getLsbD_append, BitVec.getLsbD_extractLsb', BitVec.getLsbD_rotateLeft]
  by_cases h4 : i < 4
  · simp [h4]
  · have hhigh : i - 4 < 4 := by omega
    simp [h4, hhigh, hi]

theorem exec_mov (d r : Reg) (s : State) :
    exec (.mov d r) s = finish (advance 1 1 (s.setReg d (s.reg r))) := rfl

theorem exec_movw (d r : Reg) (s : State) :
    exec (.movw d r) s =
      finish (advance 1 1 ((s.setReg d (s.reg r)).setReg (d + 1) (s.reg (r + 1)))) := by
  rw [← State.setPair_pair]
  rfl

theorem exec_ldi (d : Reg) (k : Byte) (s : State) :
    exec (.ldi d k) s = finish (advance 1 1 (s.setReg d k)) := rfl

theorem exec_ser (d : Reg) (s : State) :
    exec (.ser d) s = finish (advance 1 1 (s.setReg d 0xFF)) := rfl

theorem exec_swap (d : Reg) (s : State) :
    exec (.swap d) s = finish (advance 1 1 (s.setReg d ((s.reg d).rotateLeft 4))) := by
  rw [← swapNibbles_eq_rotateLeft]
  rfl

/-- Settles O26: each of the five writes its registers and ends. -/
theorem registerMoves : Obligations.RegisterMoves := by
  intro d r k s h
  refine ⟨?mov, fun _ _ => ?movw, ?ldi, ?ser, ?swap⟩
  case mov => exact (exec_mov d r s).trans (finish_advance 1 h)
  case movw => exact (exec_movw d r s).trans (finish_advance 1 h)
  case ldi => exact (exec_ldi d k s).trans (finish_advance 1 h)
  case ser => exact (exec_ser d s).trans (finish_advance 1 h)
  case swap => exact (exec_swap d s).trans (finish_advance 1 h)

/-! ### The overlap of a moving pointer with its operand (R177) -/

variable {p : Pointer} {d r : Reg}

theorem Pointer.ne_of_not_covers {a : Nat} (h : p.covers a = false) :
    a ≠ p.low.val ∧ a ≠ (p.low + 1).val := by
  have hnext : (p.low + 1).val = p.low.val + 1 := by cases p <;> rfl
  simpa only [Pointer.covers, Bool.or_eq_false_iff, beq_eq_false_iff_ne, hnext] using h

/-- The check of R177 in the words of the rule. -/
theorem Pointer.overlap_of {a : Nat}
    (h : d = p.low ∨ d = p.low + 1 ∨ a = p.low.val ∨ a = p.low.val + 1) :
    (p.holds d || p.covers a) = true := by
  simpa only [Pointer.holds, Pointer.covers, Bool.or_eq_true, beq_iff_eq, or_assoc] using h

theorem loadInc_overlap (h : (p.holds d || p.covers (s.ptr p).toNat) = true) :
    loadInc p d s = .error .pointerOverlap := if_pos h

theorem loadDec_overlap (h : (p.holds d || p.covers (decAddress p s).toNat) = true) :
    loadDec p d s = .error .pointerOverlap := if_pos h

theorem storeInc_overlap (h : (p.holds r || p.covers (s.ptr p).toNat) = true) :
    storeInc p r s = .error .pointerOverlap := if_pos h

theorem storeDec_overlap (h : (p.holds r || p.covers (decAddress p s).toNat) = true) :
    storeDec p r s = .error .pointerOverlap := if_pos h

theorem loadProgInc_overlap (h : Pointer.z.holds d = true) :
    loadProgInc d s = .error .pointerOverlap := if_pos h

/-- Settles O31: the check is the first thing each of these operations does. -/
theorem pointerOverlapStops : Obligations.PointerOverlapStops := by
  refine ⟨fun d s i p hi h => ?inc, fun d s i p hi h => ?dec, fun d s h => ?lpm⟩
  case inc =>
    have hov := Pointer.overlap_of h
    simp only [List.mem_cons, Prod.mk.injEq, List.not_mem_nil, or_false] at hi
    rcases hi with ⟨rfl, rfl⟩ | ⟨rfl, rfl⟩ | ⟨rfl, rfl⟩ | ⟨rfl, rfl⟩ | ⟨rfl, rfl⟩ | ⟨rfl, rfl⟩
    iterate 3 exact finish_bind_stop (loadInc_overlap hov)
    all_goals exact finish_bind_stop (storeInc_overlap hov)
  case dec =>
    have hov := Pointer.overlap_of h
    simp only [List.mem_cons, Prod.mk.injEq, List.not_mem_nil, or_false] at hi
    rcases hi with ⟨rfl, rfl⟩ | ⟨rfl, rfl⟩ | ⟨rfl, rfl⟩ | ⟨rfl, rfl⟩ | ⟨rfl, rfl⟩ | ⟨rfl, rfl⟩
    iterate 3 exact finish_bind_stop (loadDec_overlap hov)
    all_goals exact finish_bind_stop (storeDec_overlap hov)
  case lpm =>
    have hz : Pointer.z.holds d = true := by rcases h with rfl | rfl <;> rfl
    exact finish_bind_stop (loadProgInc_overlap hz)

/-! ### Loads (R143..R154) -/

/-- A load from a described address, then the sequential end. -/
theorem load_thenAdvance {a n : Nat} (c : Nat) (d : Reg) (s : State) (ha : described a = true)
    (h : s.hasNext n) :
    ∃ v t, memRead a s = .ok (v, t) ∧
      finish (load d a s >>= fun u => advance n c u) = .next { t with
        regs := s.regs.set d v, pc := s.pc + BitVec.ofNat 14 n, cycles := s.cycles + c } := by
  obtain ⟨v, x, y, hread, hload⟩ := load_ok (d := d) s ha
  exact ⟨v, _, hread, finish_thenAdvance c hload h⟩

/-- Settles O27: the six instructions are one load, each with an address of its own. -/
theorem loadResult : Obligations.LoadResult := by
  intro d k q s i a n hi ha h
  simp only [List.mem_cons, Prod.mk.injEq, List.not_mem_nil, or_false] at hi
  rcases hi with ⟨rfl, rfl, rfl⟩ | ⟨rfl, rfl, rfl⟩ | ⟨rfl, rfl, rfl⟩ | ⟨rfl, rfl, rfl⟩ |
    ⟨rfl, rfl, rfl⟩ | ⟨rfl, rfl, rfl⟩
  all_goals exact load_thenAdvance 2 d s ha h

/-- The byte at the old pointer; then the pointer moves (R145). -/
theorem loadInc_ok (s : State) (hd : p.holds d = false) (hc : p.covers (s.ptr p).toNat = false)
    (ha : described (s.ptr p).toNat = true) :
    ∃ v x y, memRead (s.ptr p).toNat s = .ok (v, { s with temp1 := x, draws := y }) ∧
      loadInc p d s =
        .ok (({ s with temp1 := x, draws := y }.setReg d v).setPtr p (s.ptr p + 1)) := by
  obtain ⟨v, x, y, hread, hload⟩ := load_ok (d := d) s ha
  refine ⟨v, x, y, hread, ?_⟩
  simp only [loadInc, hd, hc, Bool.or_self, Bool.false_eq_true, if_false, hload, Res.ok_bind]

/-- A move of a pointer and a read of an address that is not of its registers do not disturb each
other. -/
theorem memRead_setPtr {a : Nat} {v : Byte} (w : Word) (hc : p.covers a = false)
    (h : memRead a s = .ok (v, t)) : memRead a (s.setPtr p w) = .ok (v, t.setPtr p w) := by
  obtain ⟨hlow, hhigh⟩ := Pointer.ne_of_not_covers hc
  exact memRead_setReg hhigh (memRead_setReg hlow h)

/-- The pointer moves; then the byte at the new pointer, the same as before the move (R146). -/
theorem loadDec_ok (s : State) (hd : p.holds d = false)
    (hc : p.covers (decAddress p s).toNat = false)
    (ha : described (decAddress p s).toNat = true) :
    ∃ v x y, memRead (decAddress p s).toNat s = .ok (v, { s with temp1 := x, draws := y }) ∧
      loadDec p d s =
        .ok (({ s with temp1 := x, draws := y }.setPtr p (decAddress p s)).setReg d v) := by
  obtain ⟨v, x, y, hread, -⟩ := load_ok (d := d) s ha
  refine ⟨v, x, y, hread, ?_⟩
  simp only [loadDec, hd, hc, Bool.or_self, Bool.false_eq_true, if_false]
  exact load_ok_iff.mpr ⟨v, _, memRead_setPtr _ hc hread, rfl⟩

/-- Settles O28. -/
theorem loadStepResult : Obligations.LoadStepResult := by
  refine ⟨fun d s i p hi hd hc ha h => ?inc, fun d s i p hi hd hc ha h => ?dec⟩
  case inc =>
    obtain ⟨v, x, y, hread, hload⟩ := loadInc_ok s hd hc ha
    refine ⟨v, _, hread, ?_⟩
    simp only [List.mem_cons, Prod.mk.injEq, List.not_mem_nil, or_false] at hi
    rcases hi with ⟨rfl, rfl⟩ | ⟨rfl, rfl⟩ | ⟨rfl, rfl⟩
    all_goals exact finish_thenAdvance 2 hload h
  case dec =>
    obtain ⟨v, x, y, hread, hload⟩ := loadDec_ok s hd hc ha
    refine ⟨v, _, hread, ?_⟩
    simp only [List.mem_cons, Prod.mk.injEq, List.not_mem_nil, or_false] at hi
    rcases hi with ⟨rfl, rfl⟩ | ⟨rfl, rfl⟩ | ⟨rfl, rfl⟩
    all_goals exact finish_thenAdvance 2 hload h

/-! ### Stores (R155..R166) -/

theorem memWrite_sram_other {a b : Nat} {v : Byte} (h : memWrite a v s = .ok t) (hb : b ≠ a) :
    t.sram.read b = s.sram.read b :=
  (SameOutside.refl.memWrite (A := [a]) (D := []) (.head _) h).sram b (by simpa using hb)

/-- After a store, the sequential end. -/
theorem memWrite_thenAdvance {a n : Nat} {v : Byte} (c : Nat) (h : memWrite a v s = .ok t)
    (hn : s.hasNext n) :
    finish (memWrite a v s >>= fun u => advance n c u) =
      .next { t with pc := s.pc + BitVec.ofNat 14 n, cycles := s.cycles + c } := by
  obtain ⟨-, hpc, hcycles, -⟩ := memWrite_frame h
  exact finish_thenAdvance_from c h hpc hcycles hn

/-- Settles O29: the six instructions are one store, each with an address of its own. -/
theorem storeResult : Obligations.StoreResult := by
  intro r k q s i a n hi hs h
  obtain ⟨t, ht⟩ := memWrite_ok s hs
  refine ⟨t, ht, ?exec, fun ha => ?sram, fun b hb => memWrite_sram_other ht hb⟩
  case exec =>
    simp only [List.mem_cons, Prod.mk.injEq, List.not_mem_nil, or_false] at hi
    rcases hi with ⟨rfl, rfl, rfl⟩ | ⟨rfl, rfl, rfl⟩ | ⟨rfl, rfl, rfl⟩ | ⟨rfl, rfl, rfl⟩ |
      ⟨rfl, rfl, rfl⟩ | ⟨rfl, rfl, rfl⟩
    all_goals exact memWrite_thenAdvance 2 ht h
  case sram => exact Except.ok.inj (ht.symm.trans (memWrite_sram _ s ha))

/-- The byte at the old pointer; then the pointer moves (R157). -/
theorem storeInc_eq (hr : p.holds r = false) (hc : p.covers (s.ptr p).toNat = false)
    (h : memWrite (s.ptr p).toNat (s.reg r) s = .ok t) :
    storeInc p r s = .ok (t.setPtr p (s.ptr p + 1)) := by
  simp only [storeInc, hr, hc, Bool.or_self, Bool.false_eq_true, if_false, store, h, Res.ok_bind]

/-- The pointer moves; then the byte at the new pointer, from a register that has not moved (R158). -/
theorem storeDec_eq (hr : p.holds r = false) (hc : p.covers (decAddress p s).toNat = false) :
    storeDec p r s =
      memWrite (decAddress p s).toNat (s.reg r) (s.setPtr p (decAddress p s)) := by
  simp only [storeDec, hr, hc, Bool.or_self, Bool.false_eq_true, if_false, store,
    State.reg_setPtr_other s _ hr]

/-- Settles O30. -/
theorem storeStepResult : Obligations.StoreStepResult := by
  refine ⟨fun r s i p hi hr hc hs h => ?inc, fun r s i p hi hr hc hs h => ?dec⟩
  case inc =>
    obtain ⟨t, ht⟩ := memWrite_ok s hs
    refine ⟨t, ht, ?_, fun b hb => memWrite_sram_other ht hb⟩
    obtain ⟨-, hpc, hcycles, -⟩ := memWrite_frame ht
    simp only [List.mem_cons, Prod.mk.injEq, List.not_mem_nil, or_false] at hi
    rcases hi with ⟨rfl, rfl⟩ | ⟨rfl, rfl⟩ | ⟨rfl, rfl⟩
    all_goals exact finish_thenAdvance_from 2 (storeInc_eq hr hc ht) hpc hcycles h
  case dec =>
    obtain ⟨t, ht⟩ := memWrite_ok (s.setPtr p (decAddress p s)) hs
    refine ⟨t, ht, ?_, fun b hb => (memWrite_sram_other ht hb).trans (by rw [State.setPtr_sram])⟩
    have hstore : storeDec p r s = .ok t := (storeDec_eq hr hc).trans ht
    obtain ⟨-, hpc, hcycles, -⟩ := memWrite_frame ht
    simp only [List.mem_cons, Prod.mk.injEq, List.not_mem_nil, or_false] at hi
    rcases hi with ⟨rfl, rfl⟩ | ⟨rfl, rfl⟩ | ⟨rfl, rfl⟩
    all_goals exact finish_thenAdvance_from 2 hstore hpc hcycles h

/-! ### Program memory (R68, R69, R167..R170) -/

theorem progWord_undefined {w : Nat}
    (h : s.flash.read (2 * w) = none ∨ s.flash.read (2 * w + 1) = none) :
    progWord w s = .error (.fetchOfUndefinedWord w) := by
  rcases h with h | h <;> simp [progWord, h]

/-- Bit 0 of Z is its remainder by 2 (R69). -/
theorem getElem_zero_eq_mod_two (z : Word) : z[0] = decide (z.toNat % 2 = 1) := by
  rw [BitVec.getElem_eq_testBit_toNat, Nat.testBit_zero]

theorem loadProg_ok {w : Word} (d : Reg) (hz : (s.ptr .z).toNat < 0x8000)
    (hw : progWord ((s.ptr .z).toNat / 2) s = .ok w) :
    loadProg d s = .ok (s.setReg d
      (if (s.ptr .z).toNat % 2 = 1 then w.extractLsb' 8 8 else w.extractLsb' 0 8)) := by
  simp only [loadProg, progByte_ok hz hw, Res.ok_bind, getElem_zero_eq_mod_two, decide_eq_true_eq]

theorem loadProg_out (d : Reg) (hz : 0x8000 ≤ (s.ptr .z).toNat) :
    loadProg d s = .error (.progAddressOutOfRange (s.ptr .z).toNat) := by
  simp only [loadProg, progByte_out hz, Res.error_bind]

theorem loadProg_undefined (d : Reg) (hz : (s.ptr .z).toNat < 0x8000)
    (h : s.flash.read (2 * ((s.ptr .z).toNat / 2)) = none ∨
      s.flash.read (2 * ((s.ptr .z).toNat / 2) + 1) = none) :
    loadProg d s = .error (.fetchOfUndefinedWord ((s.ptr .z).toNat / 2)) := by
  simp only [loadProg, progByte, if_pos hz, progWord_undefined h, Except.map, Res.error_bind]

/-- Clear of Z, the stepping form is the plain one and a move of Z (R169). -/
theorem loadProgInc_eq (h30 : d ≠ 30) (h31 : d ≠ 31) :
    loadProgInc d s = loadProg d s >>= fun t => .ok (t.setPtr .z (s.ptr .z + 1)) := by
  have hz : Pointer.z.holds d = false := by
    simp only [Pointer.holds, Bool.or_eq_false_iff, beq_eq_false_iff_ne]
    exact ⟨h30, h31⟩
  simp only [loadProgInc, hz, Bool.false_eq_true, if_false]

/-- Where the load from program memory stops, the three forms do. -/
theorem exec_lpm_stop {i : Instr} {e : Refusal} (h : ∀ d, loadProg d s = .error e)
    (hi : i = .lpm ∨ i = .lpmZ d ∨ (i = .lpmZInc d ∧ d ≠ 30 ∧ d ≠ 31)) :
    exec i s = .refused e := by
  rcases hi with rfl | rfl | ⟨rfl, h30, h31⟩
  · exact finish_bind_stop (h 0)
  · exact finish_bind_stop (h d)
  · have hinc : loadProgInc d s = .error e := by rw [loadProgInc_eq h30 h31, h d, Res.error_bind]
    exact finish_bind_stop hinc

/-- Settles O33. -/
theorem lpmResult : Obligations.LpmResult := by
  intro d s w h
  refine ⟨fun hz hw => ⟨?lpm, ?lpmZ, fun h30 h31 => ?lpmZInc⟩, fun i hi => ⟨fun hz => ?out,
    fun hz hnone => ?undefined⟩⟩
  case lpm => exact finish_thenAdvance 3 (loadProg_ok 0 hz hw) h
  case lpmZ => exact finish_thenAdvance 3 (loadProg_ok d hz hw) h
  case lpmZInc =>
    have hinc := loadProgInc_eq (s := s) h30 h31
    rw [loadProg_ok d hz hw, Res.ok_bind] at hinc
    exact finish_thenAdvance 3 hinc h
  case out => exact exec_lpm_stop (fun d => loadProg_out d hz) hi
  case undefined => exact exec_lpm_stop (fun d => loadProg_undefined d hz hnone) hi

/-- Settles O34: neither arm looks at the state. -/
theorem spmBreakStop : Obligations.SpmBreakStop := fun _ => ⟨rfl, rfl⟩

/-! ### I/O (R171, R172) -/

theorem load_bind {a : Nat} (f : State → Res State) :
    (load d a s >>= f) = memRead a s >>= fun q => f (q.2.setReg d q.1) := by
  rw [load]
  cases memRead a s <;> rfl

/-- IN is a load from the data space (R35, R171). -/
theorem exec_ioIn (d : Reg) (a : BitVec 6) (s : State) :
    exec (.ioIn d a) s = finish (load d (a.toNat + 0x20) s >>= fun t => advance 1 1 t) := by
  rw [load_bind]
  rfl

/-- OUT reaches no address that takes only some bytes (R65). -/
theorem storable_io {a : BitVec 6} (v : Byte) (h : described (a.toNat + 0x20) = true) :
    storable (a.toNat + 0x20) v = true := by
  have hne : a.toNat + 0x20 ≠ 0x81 := by omega
  simp only [storable, h, beq_eq_false_iff_ne.mpr hne, Bool.false_and, Bool.not_false, Bool.and_self]

/-- Settles O35. -/
theorem inOutResult : Obligations.InOutResult := by
  intro d a s h
  refine ⟨fun ha => ?input, fun ha => ?output, fun ha => ?stop⟩
  case input =>
    rw [exec_ioIn]
    exact load_thenAdvance 1 d s ha h
  case output =>
    obtain ⟨t, ht⟩ := memWrite_ok s (storable_io s.regs[d] ha)
    exact ⟨t, ht, memWrite_thenAdvance 1 ht h⟩
  case stop =>
    have hd : described (a.toNat + 0x20) = false := (described_io a).trans (decide_eq_false ha)
    have hlow : a.toNat + 0x20 < 0x100 := by omega
    exact ⟨finish_bind_stop (memRead_undescribed s hd hlow),
      finish_bind_stop (memWrite_undescribed s (storable_of_not_described _ hd) hlow)⟩

/-! ### The stack (R173, R174) -/

/-- POP is a load from the address above SP, after SP has moved there (R31, R174). -/
theorem exec_pop (d : Reg) (s : State) :
    exec (.pop d) s =
      finish (load d (s.sp + 1).toNat { s with sp := s.sp + 1 } >>= fun t => advance 1 2 t) := by
  rw [load_bind]
  rfl

theorem exec_push {v : Byte} (hv : s.reg r = v) (h : memWrite s.sp.toNat v s = .ok t)
    (hn : s.hasNext 1) :
    exec (.push r) s =
      .next { t with sp := t.sp - 1, pc := s.pc + 1, cycles := s.cycles + 2 } := by
  subst hv
  obtain ⟨-, hpc, hcycles, -⟩ := memWrite_frame h
  exact finish_thenAdvance_from 2 (push_ok_iff.mpr ⟨t, h, rfl⟩) hpc hcycles hn

theorem exec_pop_sram {v : Byte} (d : Reg) (ha : isSram (s.sp + 1).toNat = true)
    (hv : s.sram.read (s.sp + 1).toNat = some v) (hn : s.hasNext 1) :
    exec (.pop d) s = .next { s with
      sp := s.sp + 1, regs := s.regs.set d v, pc := s.pc + 1, cycles := s.cycles + 2 } := by
  have hread : memRead (s.sp + 1).toNat { s with sp := s.sp + 1 } = .ok (v, _) := memRead_sram ha hv
  rw [exec_pop]
  exact finish_thenAdvance 2 (load_ok_iff.mpr ⟨v, _, hread, rfl⟩) hn

/-- Settles O36: the byte that PUSH leaves at SP is the one that POP reads. -/
theorem pushPopResult : Obligations.PushPopResult := by
  intro d r s h
  refine ⟨fun hs => ?push, fun ha => ?pop, fun ha h2 => ?pushPop⟩
  case push =>
    obtain ⟨t, ht⟩ := memWrite_ok s hs
    exact ⟨t, ht, exec_push rfl ht h, fun b hb => memWrite_sram_other ht hb⟩
  case pop =>
    rw [exec_pop]
    exact load_thenAdvance 2 d { s with sp := s.sp + 1 } ha h
  case pushPop =>
    refine ⟨_, exec_push rfl (memWrite_sram s.regs[r] s ha) h, ?_⟩
    have hsp : s.sp - 1 + 1 = s.sp := BitVec.sub_add_cancel s.sp 1
    have hpc : s.pc + 1 + 1 = s.pc + 2 := by rw [BitVec.add_assoc]; rfl
    have hnext : (s.pc + 1).toNat + 1 < 16384 := by bv_omega
    have hread : (s.sram.write s.sp.toNat s.regs[r]).read (s.sp - 1 + 1).toNat = some s.regs[r] := by
      rw [hsp, Memory.read_write_same]
    rw [exec_pop_sram d (by rwa [hsp]) hread hnext]
    simp only [hsp, hpc]

end Sys2Proof.Machine
end

section
/-! SUPPORT. Bit manipulation (spec/41_bit_manipulation.md): SBI and CBI on the one described register of
their range, and the sixteen instructions that write one flag of SREG. -/

namespace Sys2Proof.Machine

/-! ### SBI and CBI (R67, R191, R192) -/

/-- The bit that SBI writes is the only 1 of the byte, so no other flag is cleared. -/
theorem ioBitWrite_tifr1_set (b : BitNo) (s : State) :
    ioBitWrite 0x16 b true s = .ok { s with ocf1a := s.ocf1a && b != 1, tov1 := s.tov1 && b != 0 } :=
  ioBitWrite_tifr1 b true s

/-- CBI writes the byte 0, which clears no flag. -/
theorem ioBitWrite_tifr1_clear (b : BitNo) (s : State) : ioBitWrite 0x16 b false s = .ok s := by
  simp only [ioBitWrite_tifr1, Bool.false_and, Bool.not_false, Bool.and_true]

theorem exec_sbi (a : BitVec 5) (b : BitNo) (s : State) :
    exec (.sbi a b) s = finish (ioBitWrite a.toNat b true s >>= fun t => advance 1 2 t) := rfl

theorem exec_cbi (a : BitVec 5) (b : BitNo) (s : State) :
    exec (.cbi a b) s = finish (ioBitWrite a.toNat b false s >>= fun t => advance 1 2 t) := rfl

/-- Settles O37: the bit write is the first part of both instructions. -/
theorem sbiCbiResult : Obligations.SbiCbiResult := by
  intro a b s
  refine ⟨fun h => ⟨?sbi, ?cbi⟩, fun ha => ?stop⟩
  case sbi => exact (exec_sbi 0x16 b s).trans (finish_thenAdvance 2 (ioBitWrite_tifr1_set b s) h)
  case cbi => exact (exec_cbi 0x16 b s).trans (finish_thenAdvance 2 (ioBitWrite_tifr1_clear b s) h)
  case stop =>
    have hne : a.toNat ≠ 0x16 := fun e => ha (BitVec.eq_of_toNat_eq e)
    have hstop (v : Bool) := ioBitWrite_stop b v s a.isLt hne
    exact ⟨finish_bind_stop (hstop true), finish_bind_stop (hstop false)⟩

/-! ### The flags of SREG (R193..R208, R210) -/

/-- The fifteen instructions that only write a flag, each with SREG after it where `f` is SREG before it. -/
def flagWrites (f : Sreg) : List (Instr × Sreg) := [
  (.sec, { f with c := true }), (.sez, { f with z := true }), (.sen, { f with n := true }),
  (.sev, { f with v := true }), (.ses, { f with s := true }), (.seh, { f with h := true }),
  (.setT, { f with t := true }), (.clc, { f with c := false }), (.clz, { f with z := false }),
  (.cln, { f with n := false }), (.clv, { f with v := false }), (.cls, { f with s := false }),
  (.clh, { f with h := false }), (.clt, { f with t := false }), (.cli, { f with i := false })]

theorem exec_flagWrite (s : State) :
    ∀ w ∈ flagWrites s.sreg, exec w.1 s = finish (advance 1 1 (s.setSreg w.2)) := by
  simp only [flagWrites, List.forall_mem_cons]
  exact ⟨rfl, rfl, rfl, rfl, rfl, rfl, rfl, rfl, rfl, rfl, rfl, rfl, rfl, rfl, rfl,
    List.forall_mem_nil _⟩

/-- SEI writes its flag and holds off interrupts (R200, R350). -/
theorem exec_sei (s : State) :
    exec .sei s =
      finish (advance 1 1 { s.setSreg { s.sreg with i := true } with inhibit := true }) := rfl

/-- The sixteen instructions, each with the number of its flag in SREG and whether it clears it. -/
def flagNumbers : List (Instr × BitVec 3 × BitVec 1) := [
  (.sec, 0, 0), (.sez, 1, 0), (.sen, 2, 0), (.sev, 3, 0), (.ses, 4, 0), (.seh, 5, 0), (.setT, 6, 0),
  (.sei, 7, 0), (.clc, 0, 1), (.clz, 1, 1), (.cln, 2, 1), (.clv, 3, 1), (.cls, 4, 1), (.clh, 5, 1),
  (.clt, 6, 1), (.cli, 7, 1)]

/-- The two fields of the format as the bits 6:4 and 7 of the word. -/
theorem encSreg_eq_add : ∀ (c : BitVec 1) (n : BitVec 3),
    encSreg c n = 0x9408#16 + BitVec.ofNat 16 (16 * n.toNat + 128 * c.toNat) := by
  decide

theorem encode_flagNumber : ∀ x ∈ flagNumbers, encode x.1 = [encSreg x.2.2 x.2.1] := by
  simp only [flagNumbers, List.forall_mem_cons]
  exact ⟨rfl, rfl, rfl, rfl, rfl, rfl, rfl, rfl, rfl, rfl, rfl, rfl, rfl, rfl, rfl, rfl,
    List.forall_mem_nil _⟩

/-- Settles O38: each form is SREG replaced and the sequential end, in the one format of R210. -/
theorem flagBits : Obligations.FlagBits := by
  refine ⟨fun s h => ⟨fun i f hif => ?write, ?sei⟩, fun i n c hinc => ?word⟩
  case write => exact (exec_flagWrite s (i, f) hif).trans (finish_advance 1 h)
  case sei => exact (exec_sei s).trans (finish_advance 1 h)
  case word =>
    obtain ⟨x, hx, hxe⟩ : ∃ x ∈ flagNumbers, (x.1, x.2.1.toNat, x.2.2.toNat) = (i, n, c) :=
      List.mem_map.mp hinc
    cases hxe
    rw [encode_flagNumber x hx, encSreg_eq_add]

end Sys2Proof.Machine
end

section
/-! SUPPORT. System control (spec/42_system_control.md): NOP, WDR and SLEEP. BREAK, which stops in every
state, is `spmBreakStop`. -/

namespace Sys2Proof.Machine

/-- R220: nothing but the sequential end. -/
theorem exec_nop (s : State) : exec .nop s = finish (advance 1 1 s) := rfl

/-- R222: the watchdog is no part of the state, so only the sequential end is left (decision D20). -/
theorem exec_wdr (s : State) : exec .wdr s = finish (advance 1 1 s) := rfl

/-- R223 where `sleepBehaviour` is `wait`: the core falls asleep, then the sequential end. -/
theorem exec_sleep (s : State) :
    exec .sleep s = finish (advance 1 1 { s with sleeping := true }) := rfl

/-- Settles O39: each is the sequential end, SLEEP from the state already asleep, whose `pc` is the same
and so has a next word where `s` has one. -/
theorem systemResult : Obligations.SystemResult := by
  intro s h
  have hasleep : State.hasNext { s with sleeping := true } 1 := h
  refine ⟨?nop, ?wdr, ?sleep⟩
  case nop => exact (exec_nop s).trans (finish_advance 1 h)
  case wdr => exact (exec_wdr s).trans (finish_advance 1 h)
  case sleep => exact (exec_sleep s).trans (finish_advance 1 hasleep)

end Sys2Proof.Machine
end

section
/-! SUPPORT. Arithmetic and logic (spec/43_arithmetic_logic.md): the results and the bit formulas of the
flags read as arithmetic on the numbers the bytes stand for, then each instruction from the operation it
is a form of. The half carry, the carry and the overflow are proved once, for the addition; the flags of
a subtraction are those of the addition of the complement. -/

namespace Sys2Proof.Machine

variable {s : State}

/-! ### Bits and zero tests as numbers -/

theorem byte_bit7_eq_msb (a : Byte) : a[7] = a.msb := (BitVec.msb_eq_getLsbD_last a).symm

theorem word_bit15_eq_msb (a : Word) : a[15] = a.msb := (BitVec.msb_eq_getLsbD_last a).symm

theorem byte_bit7_eq_decide (a : Byte) : a[7] = decide (128 ≤ a.toNat) :=
  (byte_bit7_eq_msb a).trans (BitVec.msb_eq_decide a)

theorem word_bit15_eq_decide (a : Word) : a[15] = decide (32768 ≤ a.toNat) :=
  (word_bit15_eq_msb a).trans (BitVec.msb_eq_decide a)

theorem beq_eq_decide_toNat {w : Nat} (a b : BitVec w) : (a == b) = decide (a.toNat = b.toNat) := by
  rw [beq_eq_decide, decide_eq_decide, BitVec.toNat_inj]

theorem beq_zero_eq_decide_toNat {w : Nat} (a : BitVec w) : (a == 0) = decide (a.toNat = 0) :=
  beq_eq_decide_toNat a 0

/-! ### Addition (R226) -/

theorem addResult_eq_ofNat (a b : Byte) (cin : Bool) :
    addResult a b cin = BitVec.ofNat 8 (a.toNat + b.toNat + cin.toNat) := by
  apply BitVec.eq_of_toNat_eq
  simp [addResult, carryByte]

theorem addResult_eq_ofInt (a b : Byte) (cin : Bool) :
    addResult a b cin = BitVec.ofInt 8 (a.toInt + b.toInt + cin.toNat) := by
  rw [BitVec.ofInt_add, BitVec.ofInt_add, BitVec.ofInt_toInt, BitVec.ofInt_toInt]
  cases cin <;> rfl

/-- The carry formula of R226, at any bit: the sum's bit is the exclusive or of the two bits and the carry
into it, so two of `a`, `b` and the complement of the sum are 1 just when two of `a`, `b` and that carry
are. -/
theorem carryFormula_eq_carry (a b : Byte) (cin : Bool) (i : Nat) (h : i < 8) :
    ((a[i] && b[i]) || (b[i] && !(addResult a b cin)[i]) || (!(addResult a b cin)[i] && a[i])) =
      decide (2 ^ (i + 1) ≤ a.toNat % 2 ^ (i + 1) + b.toNat % 2 ^ (i + 1) + cin.toNat) := by
  have hsum : (addResult a b cin)[i] = (a[i] ^^ (b[i] ^^ BitVec.carry i a b cin)) :=
    BitVec.getLsbD_add_add_bool h a b cin
  have hcarry := BitVec.carry_succ i a b cin
  rw [BitVec.getLsbD_eq_getElem h, BitVec.getLsbD_eq_getElem h] at hcarry
  calc _ = a[i].atLeastTwo b[i] (BitVec.carry i a b cin) := by
        rw [hsum]; cases a[i] <;> cases b[i] <;> simp [Bool.atLeastTwo]
    _ = _ := hcarry.symm

theorem addCarry_eq (a b : Byte) (cin : Bool) :
    ((a[7] && b[7]) || (b[7] && !(addResult a b cin)[7]) || (!(addResult a b cin)[7] && a[7])) =
      decide (256 ≤ a.toNat + b.toNat + cin.toNat) := by
  have h := carryFormula_eq_carry a b cin 7 (by decide)
  rwa [Nat.mod_eq_of_lt a.isLt, Nat.mod_eq_of_lt b.isLt] at h

theorem addHalfCarry_eq (a b : Byte) (cin : Bool) :
    ((a[3] && b[3]) || (b[3] && !(addResult a b cin)[3]) || (!(addResult a b cin)[3] && a[3])) =
      decide (16 ≤ a.toNat % 16 + b.toNat % 16 + cin.toNat) :=
  carryFormula_eq_carry a b cin 3 (by decide)

/-- The overflow formula of R226: the sign of the result differs from that of both operands just when
their signed sum is out of range. -/
theorem addOverflow_eq (a b : Byte) (cin : Bool) :
    ((a[7] && b[7] && !(addResult a b cin)[7]) || (!a[7] && !b[7] && (addResult a b cin)[7])) =
      decide (a.toInt + b.toInt + cin.toNat < -128 ∨ 127 < a.toInt + b.toInt + cin.toNat) := by
  have hsum : (addResult a b cin).toInt = (a.toInt + b.toInt + cin.toNat).bmod 256 := by
    rw [addResult_eq_ofInt, BitVec.toInt_ofInt]
  have ha := BitVec.toInt_lt (x := a)
  have ha' := BitVec.le_toInt a
  have hb := BitVec.toInt_lt (x := b)
  have hb' := BitVec.le_toInt b
  have hc := Bool.toNat_le cin
  rw [Int.bmod_def] at hsum
  rw [Bool.eq_iff_iff]
  simp only [byte_bit7_eq_msb, BitVec.msb_eq_toInt, Bool.or_eq_true, Bool.and_eq_true,
    Bool.not_eq_true', decide_eq_true_eq, decide_eq_false_iff_not]
  omega

theorem addFlags_eq (f : Sreg) (a b : Byte) (cin : Bool) :
    let sum := a.toNat + b.toNat + cin.toNat
    let signed := a.toInt + b.toInt + cin.toNat
    let v := decide (signed < -128 ∨ 127 < signed)
    let n := decide (128 ≤ sum % 256)
    addFlags f a b cin = { f with
      c := decide (256 ≤ sum)
      h := decide (16 ≤ a.toNat % 16 + b.toNat % 16 + cin.toNat)
      v := v
      n := n
      z := decide (sum % 256 = 0)
      s := n ^^ v } := by
  have hr : (addResult a b cin).toNat = (a.toNat + b.toNat + cin.toNat) % 256 := by
    rw [addResult_eq_ofNat, BitVec.toNat_ofNat]
  simp only [addFlags, addCarry_eq, addHalfCarry_eq, addOverflow_eq]
  simp only [byte_bit7_eq_decide, beq_zero_eq_decide_toNat, hr]

/-! ### Subtraction (R227) -/

/-- `a - b - cin` is the sum of `a`, the complement of `b` and the complement of the borrow. -/
theorem subResult_eq_addResult_not (a b : Byte) (cin : Bool) :
    subResult a b cin = addResult a (~~~b) (!cin) := by
  apply BitVec.eq_of_toNat_eq
  have hb := b.isLt
  cases cin <;> simp [subResult, addResult, carryByte] <;> omega

theorem subResult_eq_ofInt (a b : Byte) (cin : Bool) :
    subResult a b cin = BitVec.ofInt 8 ((a.toNat : Int) - b.toNat - cin.toNat) := by
  apply BitVec.eq_of_toNat_eq
  have ha := a.isLt
  have hb := b.isLt
  cases cin <;> simp [subResult, carryByte, BitVec.toNat_sub, BitVec.toNat_ofInt] <;> omega

/-- The flags of a subtraction are those of the addition of the complement, the two borrows being the
complements of its carries. -/
theorem subFlags_eq_addFlags_not (f : Sreg) (a b : Byte) (cin keepZ : Bool) :
    subFlags f a b cin keepZ =
      let g := addFlags f a (~~~b) (!cin)
      { g with c := !g.c, h := !g.h, z := g.z && (!keepZ || f.z) } := by
  simp only [subFlags, addFlags, subResult_eq_addResult_not, BitVec.getElem_not, Sreg.mk.injEq,
    true_and, and_true, Bool.not_not]
  cases a[7] <;> cases b[7] <;> cases a[3] <;> cases b[3] <;> simp

theorem toInt_complement (b : Byte) : (~~~b).toInt = -b.toInt - 1 := by
  have hb := b.isLt
  simp only [BitVec.toInt_eq_toNat_cond, BitVec.toNat_not]
  omega

/-- Adding the complement modulo `m` carries just when the subtraction does not borrow. -/
theorem not_carry_eq_borrow {m y : Nat} (x : Nat) (cin : Bool) (hy : y < m) :
    (!decide (m ≤ x + (m - 1 - y) + (!cin).toNat)) = decide (x < y + cin.toNat) := by
  rw [← decide_not, decide_eq_decide]
  cases cin <;> simp <;> omega

theorem subFlags_eq (f : Sreg) (a b : Byte) (cin keepZ : Bool) :
    let result : Byte := BitVec.ofInt 8 ((a.toNat : Int) - b.toNat - cin.toNat)
    let signed := a.toInt - b.toInt - cin.toNat
    let v := decide (signed < -128 ∨ 127 < signed)
    let n := result.msb
    subFlags f a b cin keepZ = { f with
      c := decide (a.toNat < b.toNat + cin.toNat)
      h := decide (a.toNat % 16 < b.toNat % 16 + cin.toNat)
      v := v
      n := n
      z := decide (result = 0 ∧ (keepZ = true → f.z = true))
      s := n ^^ v } := by
  have hsigned : a.toInt + (~~~b).toInt + (!cin).toNat = a.toInt - b.toInt - cin.toNat := by
    rw [toInt_complement]; cases cin <;> simp <;> omega
  have hb : b.toNat < 256 := b.isLt
  have hc : (!decide (256 ≤ a.toNat + (~~~b).toNat + (!cin).toNat)) =
      decide (a.toNat < b.toNat + cin.toNat) := by
    rw [BitVec.toNat_not]
    exact not_carry_eq_borrow a.toNat cin hb
  have hh : (!decide (16 ≤ a.toNat % 16 + (~~~b).toNat % 16 + (!cin).toNat)) =
      decide (a.toNat % 16 < b.toNat % 16 + cin.toNat) := by
    rw [BitVec.toNat_not, show (2 ^ 8 - 1 - b.toNat) % 16 = 16 - 1 - b.toNat % 16 by omega]
    exact not_carry_eq_borrow (a.toNat % 16) cin (Nat.mod_lt _ (by decide))
  have hz (r : Byte) : (r == 0 && (!keepZ || f.z)) =
      decide (r = 0 ∧ (keepZ = true → f.z = true)) := by
    cases keepZ <;> simp [beq_eq_decide, Bool.decide_and]
  simp only [subFlags_eq_addFlags_not, addFlags, addCarry_eq, addHalfCarry_eq, addOverflow_eq,
    hsigned, hc, hh, hz]
  simp only [← subResult_eq_addResult_not, subResult_eq_ofInt, byte_bit7_eq_msb]

/-! ### The other flag computations of a byte -/

theorem logicFlags_eq (f : Sreg) (r : Byte) :
    logicFlags f r = { f with
      v := false, n := decide (128 ≤ r.toNat), z := decide (r.toNat = 0)
      s := decide (128 ≤ r.toNat) } := by
  simp only [logicFlags, byte_bit7_eq_decide, beq_zero_eq_decide_toNat, Bool.xor_false]

theorem zero_sub_eq_ofNat (a : Byte) : 0 - a = BitVec.ofNat 8 (256 - a.toNat) := by
  apply BitVec.eq_of_toNat_eq
  simp

theorem negFlags_eq (f : Sreg) (a : Byte) (h : Bool) :
    let n := decide (0 < a.toNat ∧ a.toNat ≤ 128)
    let v := decide (a.toNat = 128)
    negFlags f (0 - a) h = { f with
      c := decide (a.toNat ≠ 0), z := decide (a.toNat = 0), n := n, v := v, s := n ^^ v, h := h } := by
  have ha := a.isLt
  have hr : (0 - a).toNat = (256 - a.toNat) % 256 := by rw [zero_sub_eq_ofNat, BitVec.toNat_ofNat]
  have hn : (0 - a)[7] = decide (0 < a.toNat ∧ a.toNat ≤ 128) := by
    rw [byte_bit7_eq_decide, hr, decide_eq_decide]; omega
  have hv : (0 - a == 0x80) = decide (a.toNat = 128) := by
    rw [beq_eq_decide_toNat, hr, decide_eq_decide]
    change (256 - a.toNat) % 256 = 128 ↔ a.toNat = 128
    omega
  have hz : (0 - a == 0) = decide (a.toNat = 0) := by
    rw [beq_zero_eq_decide_toNat, hr, decide_eq_decide]; omega
  simp only [negFlags, bne, hn, hv, hz, ← decide_not]

theorem incFlags_eq (f : Sreg) (a : Byte) :
    let up := (a.toNat + 1) % 256
    incFlags f (BitVec.ofNat 8 up) = { f with
      n := decide (128 ≤ up), z := decide (up = 0), v := decide (a.toNat = 127)
      s := decide (128 ≤ up) ^^ decide (a.toNat = 127) } := by
  have hr : (BitVec.ofNat 8 ((a.toNat + 1) % 256)).toNat = (a.toNat + 1) % 256 := by simp
  have hv : (BitVec.ofNat 8 ((a.toNat + 1) % 256) == 0x80) = decide (a.toNat = 127) := by
    have ha := a.isLt
    rw [beq_eq_decide_toNat, hr, decide_eq_decide]
    change (a.toNat + 1) % 256 = 128 ↔ a.toNat = 127
    omega
  simp only [incFlags, hv, byte_bit7_eq_decide, beq_zero_eq_decide_toNat, hr]

theorem decFlags_eq (f : Sreg) (a : Byte) :
    let down := (a.toNat + 255) % 256
    decFlags f (BitVec.ofNat 8 down) = { f with
      n := decide (128 ≤ down), z := decide (down = 0), v := decide (a.toNat = 128)
      s := decide (128 ≤ down) ^^ decide (a.toNat = 128) } := by
  have hr : (BitVec.ofNat 8 ((a.toNat + 255) % 256)).toNat = (a.toNat + 255) % 256 := by simp
  have hv : (BitVec.ofNat 8 ((a.toNat + 255) % 256) == 0x7F) = decide (a.toNat = 128) := by
    have ha := a.isLt
    rw [beq_eq_decide_toNat, hr, decide_eq_decide]
    change (a.toNat + 255) % 256 = 127 ↔ a.toNat = 128
    omega
  simp only [decFlags, hv, byte_bit7_eq_decide, beq_zero_eq_decide_toNat, hr]

/-! ### Right shifts (R229) -/

/-- A byte shifted right with `top` coming in at bit 7. -/
def shiftIn (top : Bool) (a : Byte) : Byte := (carryByte top <<< 7) ||| (a >>> 1)

theorem shiftIn_false (a : Byte) : shiftIn false a = a >>> 1 := BitVec.zero_or

theorem shiftIn_bit7 (top : Bool) (a : Byte) : (shiftIn top a)[7] = top := by
  cases top <;> simp [shiftIn, carryByte]

/-- The two parts have no bit in common, so their union is their sum. -/
theorem shiftIn_eq_ofNat (top : Bool) (a : Byte) :
    shiftIn top a = BitVec.ofNat 8 (a.toNat / 2 + 128 * top.toNat) := by
  have ha := a.isLt
  have htop : (carryByte top <<< 7).toNat = 2 ^ 7 * top.toNat := by cases top <;> rfl
  have hor : 2 ^ 7 * top.toNat + a.toNat / 2 = 2 ^ 7 * top.toNat ||| a.toNat / 2 :=
    Nat.two_pow_add_eq_or_of_lt (by omega) _
  have hc := Bool.toNat_le top
  apply BitVec.eq_of_toNat_eq
  rw [shiftIn, BitVec.toNat_or, htop, BitVec.toNat_ushiftRight, Nat.shiftRight_one, ← hor,
    BitVec.toNat_ofNat]
  omega

theorem shrFlags_shiftIn (f : Sreg) (a : Byte) (top : Bool) :
    let c := decide (a.toNat % 2 = 1)
    shrFlags f a (shiftIn top a) = { f with
      c := c, n := top, z := decide (shiftIn top a = 0), v := top ^^ c, s := top ^^ (top ^^ c) } := by
  have hc : a[0] = decide (a.toNat % 2 = 1) := by
    rw [BitVec.getElem_eq_testBit_toNat, Nat.testBit_zero]
  simp only [shrFlags, shiftIn_bit7, hc, beq_eq_decide]

/-! ### Words (R232, R237) -/

theorem add_immediate_eq_ofNat (a : Word) (k : BitVec 6) :
    a + k.setWidth 16 = BitVec.ofNat 16 (a.toNat + k.toNat) := by
  apply BitVec.eq_of_toNat_eq
  simp

theorem sub_immediate_eq_ofInt (a : Word) (k : BitVec 6) :
    a - k.setWidth 16 = BitVec.ofInt 16 ((a.toNat : Int) - k.toNat) := by
  apply BitVec.eq_of_toNat_eq
  have ha := a.isLt
  have hk := k.isLt
  simp only [BitVec.toNat_sub, BitVec.toNat_ofInt, BitVec.toNat_setWidth]
  omega

theorem bit15_and_not_bit15 (a b : Word) :
    (a[15] && !b[15]) = decide (32768 ≤ a.toNat ∧ ¬ 32768 ≤ b.toNat) := by
  rw [word_bit15_eq_decide, word_bit15_eq_decide, ← decide_not, ← Bool.decide_and]

theorem adiwFlags_eq (f : Sreg) (a : Word) (k : BitVec 6) :
    let up : Word := BitVec.ofNat 16 (a.toNat + k.toNat)
    let v := decide (32767 < a.toInt + k.toNat)
    adiwFlags f a up = { f with
      c := decide (65536 ≤ a.toNat + k.toNat), v := v, n := up.msb, z := decide (up = 0)
      s := up.msb ^^ v } := by
  have ha := a.isLt
  have hk := k.isLt
  have hv : (!a[15] && (BitVec.ofNat 16 (a.toNat + k.toNat))[15]) =
      decide (32767 < a.toInt + k.toNat) := by
    rw [Bool.and_comm, bit15_and_not_bit15, decide_eq_decide,
      BitVec.toInt_eq_toNat_cond, BitVec.toNat_ofNat]
    omega
  have hc : (!(BitVec.ofNat 16 (a.toNat + k.toNat))[15] && a[15]) =
      decide (65536 ≤ a.toNat + k.toNat) := by
    rw [Bool.and_comm, bit15_and_not_bit15, decide_eq_decide, BitVec.toNat_ofNat]
    omega
  simp only [adiwFlags, hv, hc, beq_eq_decide]
  simp only [word_bit15_eq_msb]

theorem sbiwFlags_eq (f : Sreg) (a : Word) (k : BitVec 6) :
    let down : Word := BitVec.ofInt 16 ((a.toNat : Int) - k.toNat)
    let v := decide (a.toInt - k.toNat < -32768)
    sbiwFlags f a down = { f with
      c := decide (a.toNat < k.toNat), v := v, n := down.msb, z := decide (down = 0)
      s := down.msb ^^ v } := by
  have ha := a.isLt
  have hk := k.isLt
  have hv : (a[15] && !(BitVec.ofInt 16 ((a.toNat : Int) - k.toNat))[15]) =
      decide (a.toInt - k.toNat < -32768) := by
    rw [bit15_and_not_bit15, decide_eq_decide, BitVec.toInt_eq_toNat_cond, BitVec.toNat_ofInt]
    omega
  have hc : ((BitVec.ofInt 16 ((a.toNat : Int) - k.toNat))[15] && !a[15]) =
      decide (a.toNat < k.toNat) := by
    rw [bit15_and_not_bit15, decide_eq_decide, BitVec.toNat_ofInt]
    omega
  simp only [sbiwFlags, hv, hc, beq_eq_decide]
  simp only [word_bit15_eq_msb]

/-! ### Products (R252..R254) -/

theorem lowByte_ofInt (p : Int) : lowByte (BitVec.ofInt 16 p) = BitVec.ofInt 8 p := by
  apply BitVec.eq_of_toNat_eq
  rw [BitVec.extractLsb'_toNat, BitVec.toNat_ofInt, BitVec.toNat_ofInt, Nat.shiftRight_zero]
  omega

theorem highByte_ofInt (p : Int) : highByte (BitVec.ofInt 16 p) = BitVec.ofInt 8 (p / 256) := by
  apply BitVec.eq_of_toNat_eq
  rw [BitVec.extractLsb'_toNat, BitVec.toNat_ofInt, BitVec.toNat_ofInt, Nat.shiftRight_eq_div_pow]
  omega

theorem mulFlags_ofInt (f : Sreg) {p : Int} (hp : |p| < 65536) :
    mulFlags f (BitVec.ofInt 16 p) =
      { f with c := decide (32768 ≤ p % 65536), z := decide (p = 0) } := by
  obtain ⟨hlow, hhigh⟩ := abs_lt.mp hp
  have hc : (BitVec.ofInt 16 p)[15] = decide (32768 ≤ p % 65536) := by
    rw [word_bit15_eq_decide, decide_eq_decide, BitVec.toNat_ofInt]
    omega
  have hz : (BitVec.ofInt 16 p == 0) = decide (p = 0) := by
    rw [beq_zero_eq_decide_toNat, decide_eq_decide, BitVec.toNat_ofInt]
    omega
  rw [mulFlags, hc, hz]

theorem abs_mul_lt {x y : Int} (hx : |x| ≤ 255) (hy : |y| ≤ 255) : |x * y| < 65536 := by
  have h := mul_le_mul hx hy (abs_nonneg y) (by decide)
  rw [abs_mul]
  omega

theorem abs_toNat_le (a : Byte) : |(a.toNat : Int)| ≤ 255 := by
  have h := a.isLt
  rw [abs_le]; omega

theorem abs_toInt_le (a : Byte) : |a.toInt| ≤ 255 := by
  have h := BitVec.toInt_lt (x := a)
  have h' := BitVec.le_toInt a
  rw [abs_le]; omega

/-! ### The ends of the instructions (R25) -/

theorem finish_aluEnd (d : Reg) (v : Byte) (f : Sreg) (h : s.hasNext 1) :
    finish (aluEnd d v f s) = .next { s with
      regs := s.regs.set d v, sreg := f, pc := s.pc + 1, cycles := s.cycles + 1 } :=
  finish_advance (s := (s.setReg d v).setSreg f) 1 h

theorem finish_pairEnd (d : Reg) (v : Word) (f : Sreg) (c : Nat) (h : s.hasNext 1) :
    finish (advance 1 c ((s.setPair d v).setSreg f)) = .next { s with
      regs := (s.regs.set d (lowByte v)).set (d + 1 : Reg) (highByte v), sreg := f
      pc := s.pc + 1, cycles := s.cycles + c } :=
  finish_advance (s := (s.setPair d v).setSreg f) c h

/-! ### The instructions -/

/-- The forms of the addition, each with its second operand and its carry in. -/
def addForms (d r : Reg) (s : State) : List (Instr × Byte × Bool) := [
  (.add d r, s.regs[r], false), (.adc d r, s.regs[r], s.sreg.c), (.lsl d, s.regs[d], false),
  (.rol d, s.regs[d], s.sreg.c)]

/-- LSL and ROL are ADD and ADC of a register to itself (R119). -/
theorem exec_addForm (d r : Reg) (s : State) :
    ∀ w ∈ addForms d r s, exec w.1 s = finish (addReg d w.2.1 w.2.2 s) := by
  simp only [addForms, List.forall_mem_cons]
  exact ⟨rfl, rfl, (execAdd_self d s).symm, (execAdc_self d s).symm, List.forall_mem_nil _⟩

/-- Settles O40: the four are one addition. (`addResult` by itself is the sum of the model.) -/
theorem Arithmetic.addResult : Obligations.AddResult := by
  intro d r s i b cin hi h a sum signed v n
  rw [exec_addForm d r s (i, b, cin) hi, addReg, finish_aluEnd _ _ _ h, addResult_eq_ofNat,
    addFlags_eq]
  rfl

/-- The forms of the subtraction that write the difference, each with its second operand, its borrow in and
whether it keeps a cleared Z. -/
def subForms (d r : Reg) (k : Byte) (s : State) : List (Instr × Byte × Bool × Bool) := [
  (.sub d r, s.regs[r], false, false), (.subi d k, k, false, false),
  (.sbc d r, s.regs[r], s.sreg.c, true), (.sbci d k, k, s.sreg.c, true)]

theorem exec_subForm (d r : Reg) (k : Byte) (s : State) :
    ∀ w ∈ subForms d r k s, exec w.1 s = finish (subReg d w.2.1 w.2.2.1 w.2.2.2 s) := by
  simp only [subForms, List.forall_mem_cons]
  exact ⟨rfl, rfl, rfl, rfl, List.forall_mem_nil _⟩

/-- Settles O41: the four are one subtraction. (`subResult` by itself is the difference of the model.) -/
theorem Arithmetic.subResult : Obligations.SubResult := by
  intro d r k s i b cin keepZ hi h a result signed v n
  rw [exec_subForm d r k s (i, b, cin, keepZ) hi, subReg, finish_aluEnd _ _ _ h, subResult_eq_ofInt,
    subFlags_eq]
  rfl

/-- The comparisons, as `subForms`. -/
def compareForms (d r : Reg) (k : Byte) (s : State) : List (Instr × Byte × Bool × Bool) := [
  (.cp d r, s.regs[r], false, false), (.cpi d k, k, false, false),
  (.cpc d r, s.regs[r], s.sreg.c, true)]

theorem exec_compareForm (d r : Reg) (k : Byte) (s : State) :
    ∀ w ∈ compareForms d r k s, exec w.1 s = finish (compareReg d w.2.1 w.2.2.1 w.2.2.2 s) := by
  simp only [compareForms, List.forall_mem_cons]
  exact ⟨rfl, rfl, rfl, List.forall_mem_nil _⟩

theorem finish_compareReg (d : Reg) (b : Byte) (cin keepZ : Bool) (h : s.hasNext 1) :
    finish (compareReg d b cin keepZ s) = .next { s with
      sreg := subFlags s.sreg s.regs[d] b cin keepZ, pc := s.pc + 1, cycles := s.cycles + 1 } :=
  finish_advance (s := s.setSreg (subFlags s.sreg (s.reg d) b cin keepZ)) 1 h

/-- Settles O42: the flags are those of `subResult`, and no register is written. -/
theorem compareResult : Obligations.CompareResult := by
  intro d r k s i b cin keepZ hi h a result signed v n
  rw [exec_compareForm d r k s (i, b, cin, keepZ) hi, finish_compareReg d b cin keepZ h, subFlags_eq]

/-- The logic instructions and COM, each with its result and the carry it leaves. -/
def logicForms (d r : Reg) (k : Byte) (s : State) : List (Instr × Byte × Bool) := [
  (.and d r, s.regs[d] &&& s.regs[r], s.sreg.c), (.andi d k, s.regs[d] &&& k, s.sreg.c),
  (.or d r, s.regs[d] ||| s.regs[r], s.sreg.c), (.ori d k, s.regs[d] ||| k, s.sreg.c),
  (.eor d r, s.regs[d] ^^^ s.regs[r], s.sreg.c), (.clr d, 0, s.sreg.c), (.com d, ~~~s.regs[d], true)]

/-- R243 writes the complement as `0xFF - a`. -/
theorem exec_com (d : Reg) (s : State) :
    exec (.com d) s =
      finish (aluEnd d (~~~s.regs[d]) { logicFlags s.sreg (~~~s.regs[d]) with c := true } s) := by
  rw [← BitVec.allOnes_sub_eq_not]
  rfl

theorem exec_logicForm (d r : Reg) (k : Byte) (s : State) :
    ∀ w ∈ logicForms d r k s,
      exec w.1 s = finish (aluEnd d w.2.1 { logicFlags s.sreg w.2.1 with c := w.2.2 } s) := by
  simp only [logicForms, List.forall_mem_cons]
  exact ⟨rfl, rfl, rfl, rfl, rfl, rfl, exec_com d s, List.forall_mem_nil _⟩

/-- Settles O44. -/
theorem logicResult : Obligations.LogicResult := by
  intro d r k s i v c hi h
  rw [exec_logicForm d r k s (i, v, c) hi, finish_aluEnd _ _ _ h, logicFlags_eq]

theorem exec_neg (d : Reg) (s : State) :
    exec (.neg d) s =
      finish (aluEnd d (0 - s.regs[d]) (negFlags s.sreg (0 - s.regs[d]) s.nextBit) (s.drew 1)) := rfl

/-- Settles O45: H is the value drawn. -/
theorem negResult : Obligations.NegResult := by
  intro d s h a n v
  have hdrew : (s.drew 1).hasNext 1 := h
  refine ⟨s.nextBit, ?_⟩
  rw [exec_neg, finish_aluEnd _ _ _ hdrew, negFlags_eq, zero_sub_eq_ofNat]
  rfl

theorem exec_inc (d : Reg) (s : State) :
    exec (.inc d) s = finish (aluEnd d (s.regs[d] + 1) (incFlags s.sreg (s.regs[d] + 1)) s) := rfl

theorem exec_dec (d : Reg) (s : State) :
    exec (.dec d) s = finish (aluEnd d (s.regs[d] - 1) (decFlags s.sreg (s.regs[d] - 1)) s) := rfl

/-- Settles O46. -/
theorem incDecResult : Obligations.IncDecResult := by
  intro d s h up down
  have hup : s.regs[d] + 1 = BitVec.ofNat 8 up := by
    apply BitVec.eq_of_toNat_eq; simp [up]
  have hdown : s.regs[d] - 1 = BitVec.ofNat 8 down := by
    apply BitVec.eq_of_toNat_eq; simp [down, BitVec.toNat_sub, Nat.add_comm]
  constructor
  case left => rw [exec_inc, finish_aluEnd _ _ _ h, hup, incFlags_eq]
  case right => rw [exec_dec, finish_aluEnd _ _ _ h, hdown, decFlags_eq]

theorem exec_adiw (d : Reg) (k : BitVec 6) (s : State) :
    exec (.adiw d k) s = finish (advance 1 2 ((s.setPair d (s.pair d + k.setWidth 16)).setSreg
      (adiwFlags s.sreg (s.pair d) (s.pair d + k.setWidth 16)))) := rfl

theorem exec_sbiw (d : Reg) (k : BitVec 6) (s : State) :
    exec (.sbiw d k) s = finish (advance 1 2 ((s.setPair d (s.pair d - k.setWidth 16)).setSreg
      (sbiwFlags s.sreg (s.pair d) (s.pair d - k.setWidth 16)))) := rfl

/-- Settles O47. -/
theorem wordResult : Obligations.WordResult := by
  intro d k s _ h a up down vUp vDown
  constructor
  case left =>
    rw [exec_adiw, finish_pairEnd _ _ _ _ h, add_immediate_eq_ofNat, adiwFlags_eq]
    rfl
  case right =>
    rw [exec_sbiw, finish_pairEnd _ _ _ _ h, sub_immediate_eq_ofInt, sbiwFlags_eq]
    rfl

/-- The multiplications, each with its product. -/
def mulForms (d r : Reg) (s : State) : List (Instr × Int) := [
  (.mul d r, (s.regs[d].toNat : Int) * s.regs[r].toNat),
  (.muls d r, s.regs[d].toInt * s.regs[r].toInt), (.mulsu d r, s.regs[d].toInt * s.regs[r].toNat)]

theorem exec_mul (d r : Reg) (s : State) :
    exec (.mul d r) s =
      finish (mulPair (BitVec.ofInt 16 ((s.regs[d].toNat : Int) * s.regs[r].toNat)) s) := by
  rw [← Int.natCast_mul, BitVec.ofInt_natCast]
  rfl

theorem exec_mulForm (d r : Reg) (s : State) :
    ∀ w ∈ mulForms d r s, exec w.1 s = finish (mulPair (BitVec.ofInt 16 w.2) s) := by
  simp only [mulForms, List.forall_mem_cons]
  exact ⟨exec_mul d r s, rfl, rfl, List.forall_mem_nil _⟩

/-- No product of two bytes is a multiple of 65536 other than 0. -/
theorem mulForm_lt (d r : Reg) (s : State) : ∀ w ∈ mulForms d r s, |w.2| < 65536 := by
  simp only [mulForms, List.forall_mem_cons]
  exact ⟨abs_mul_lt (abs_toNat_le _) (abs_toNat_le _), abs_mul_lt (abs_toInt_le _) (abs_toInt_le _),
    abs_mul_lt (abs_toInt_le _) (abs_toNat_le _), List.forall_mem_nil _⟩

/-- Settles O48. -/
theorem mulResult : Obligations.MulResult := by
  intro d r s i p hi h
  rw [exec_mulForm d r s (i, p) hi, mulPair, finish_pairEnd _ _ _ _ h,
    mulFlags_ofInt _ (mulForm_lt d r s (i, p) hi), lowByte_ofInt, highByte_ofInt]
  rfl

/-- The right shifts, each with the bit that comes in. -/
def shiftForms (d : Reg) (s : State) : List (Instr × Bool) := [
  (.lsr d, false), (.ror d, s.sreg.c), (.asr d, s.regs[d].msb)]

theorem exec_lsr (d : Reg) (s : State) :
    exec (.lsr d) s = finish (shrReg d (shiftIn false (s.reg d)) s) := by
  rw [shiftIn_false]
  rfl

theorem exec_asr (d : Reg) (s : State) :
    exec (.asr d) s = finish (shrReg d (shiftIn (s.reg d).msb (s.reg d)) s) := by
  rw [← byte_bit7_eq_msb]
  rfl

theorem exec_shiftForm (d : Reg) (s : State) :
    ∀ w ∈ shiftForms d s, exec w.1 s = finish (shrReg d (shiftIn w.2 (s.reg d)) s) := by
  simp only [shiftForms, List.forall_mem_cons]
  exact ⟨exec_lsr d s, rfl, exec_asr d s, List.forall_mem_nil _⟩

/-- Settles O49: the three are one shift. -/
theorem shiftResult : Obligations.ShiftResult := by
  intro d s i top hi h r c
  have hr : shiftIn top (s.reg d) = r := shiftIn_eq_ofNat top (s.reg d)
  rw [exec_shiftForm d s (i, top) hi, shrReg, finish_aluEnd _ _ _ h, shrFlags_shiftIn, ← hr]
  rfl

end Sys2Proof.Machine
end

section
/-! SUPPORT. Jumps, calls, returns and skips (spec/44_jump.md). Each is one of three operations: the write
of `pc` with its range check, that write after a push or a pop of a return address, and `SkipNext`. What
these can do is said once; each instruction is then a row of its form. -/

namespace Sys2Proof.Machine

variable {s t : State}

/-! ### The write of `pc` (R25) -/

/-- A jump: to its target where program memory has it, else a stop. -/
theorem finish_goto (target : Int) (c : Nat) (s : State) :
    (0 ≤ target → target < 16384 → finish (goto target c s) =
      .next { s with pc := BitVec.ofInt 14 target, cycles := s.cycles + c }) ∧
    ((target < 0 ∨ 16384 ≤ target) → finish (goto target c s) = .refused (.pcOutOfRange target)) :=
  ⟨fun h0 h1 => by rw [goto_ok s c h0 h1, finish_ok], fun h => by rw [goto_out s c h, finish_error]⟩

theorem finish_advance_out {n : Nat} (c : Nat) (h : ¬ s.hasNext n) :
    finish (advance n c s) = .refused (.pcOutOfRange (s.pc.toNat + n : Nat)) := by
  rw [advance_out c h, finish_error]

/-- A one-word instruction without a next one is the last word of program memory. -/
theorem State.pc_add_one_of_last (h : ¬ s.hasNext 1) : s.pc.toNat + 1 = 16384 := by
  have hpc : s.pc.toNat < 16384 := s.pc.isLt
  omega

/-! ### Jumps (R280..R282) -/

/-- The three jumps, each with its target and its cycles. -/
def jumpForms (k : BitVec 12) (j : BitVec 22) (s : State) : List (Instr × Int × Nat) := [
  (.rjmp k, (s.pc.toNat : Int) + 1 + k.toInt, 2), (.jmp j, (j.toNat : Int), 3),
  (.ijmp, ((s.ptr .z).toNat : Int), 2)]

theorem exec_jumpForm (k : BitVec 12) (j : BitVec 22) (s : State) :
    ∀ w ∈ jumpForms k j s, exec w.1 s = finish (goto w.2.1 w.2.2 s) := by
  simp only [jumpForms, List.forall_mem_cons]
  exact ⟨rfl, rfl, rfl, List.forall_mem_nil _⟩

/-- Settles O50: the three are one write of `pc`. -/
theorem jumpResult : Obligations.JumpResult := by
  intro k j s i target c hi
  rw [exec_jumpForm k j s (i, target, c) hi]
  exact finish_goto target c s

/-! ### Calls (R283..R285) -/

/-- The byte of a return address that is pushed first (R32). -/
theorem lowByte_ofNat (n : Nat) : lowByte (BitVec.ofNat 16 n) = BitVec.ofNat 8 n := by
  rw [← BitVec.ofInt_natCast, lowByte_ofInt, BitVec.ofInt_natCast]

/-- The byte of a return address that is pushed second (R32). -/
theorem highByte_ofNat (n : Nat) : highByte (BitVec.ofNat 16 n) = BitVec.ofNat 8 (n / 256) := by
  rw [← BitVec.ofInt_natCast, highByte_ofInt, ← BitVec.ofInt_natCast, Int.natCast_ediv]
  rfl

/-- A push takes no time of its own: the cycles of a call are counted with its jump (R420). -/
theorem push_cycles {v : Byte} (h : push v s = .ok t) : t.cycles = s.cycles := by
  obtain ⟨u, hu, rfl⟩ := push_ok_iff.mp h
  obtain ⟨-, -, hcycles, -⟩ := memWrite_frame hu
  exact hcycles

theorem pushPC_cycles {v : Word} (h : pushPC v s = .ok t) : t.cycles = s.cycles := by
  rw [pushPC_eq] at h
  obtain ⟨u, hlow, hhigh⟩ := Res.bind_ok_iff.mp h
  exact (push_cycles hhigh).trans (push_cycles hlow)

/-- The three calls, each with its target, its return address and its cycles. -/
def callForms (k : BitVec 12) (j : BitVec 22) (s : State) : List (Instr × Int × Nat × Nat) := [
  (.rcall k, (s.pc.toNat : Int) + 1 + k.toInt, s.pc.toNat + 1, 3),
  (.call j, (j.toNat : Int), s.pc.toNat + 2, 4),
  (.icall, ((s.ptr .z).toNat : Int), s.pc.toNat + 1, 3)]

/-- The target is that of the state before the push (decision D35). -/
theorem exec_callForm (k : BitVec 12) (j : BitVec 22) (s : State) :
    ∀ w ∈ callForms k j s, exec w.1 s =
      finish (pushPC (BitVec.ofNat 16 w.2.2.1) s >>= fun t => goto w.2.1 w.2.2.2 t) := by
  simp only [callForms, List.forall_mem_cons]
  exact ⟨rfl, rfl, rfl, List.forall_mem_nil _⟩

/-- Settles O51: the three are one push and one jump. -/
theorem callResult : Obligations.CallResult := by
  intro k j s i target ret c hi
  rw [exec_callForm k j s (i, target, ret, c) hi]
  refine ⟨fun t ht => ?pushed, fun e he => finish_bind_stop he, fun h0 h1 ht0 ht1 => ?sram⟩
  case pushed =>
    rw [ht, Res.ok_bind, ← pushPC_cycles ht]
    exact finish_goto target c t
  case sram =>
    rw [pushPC_sram h0 h1, Res.ok_bind, lowByte_ofNat, highByte_ofNat]
    exact (finish_goto target c _).1 ht0 ht1

/-! ### Returns (R286, R287, R348) -/

/-- A return to `v`: 14 bits of it, where program memory has that word. -/
theorem finish_goto_word (v : Word) (c : Nat) (s : State) :
    (v.toNat < 16384 → finish (goto v.toNat c s) =
      .next { s with pc := v.setWidth 14, cycles := s.cycles + c }) ∧
    (16384 ≤ v.toNat → finish (goto v.toNat c s) = .refused (.pcOutOfRange v.toNat)) := by
  have hpc : BitVec.ofInt 14 v.toNat = v.setWidth 14 := by
    rw [BitVec.ofInt_natCast, BitVec.ofNat_toNat]
  rw [← hpc]
  obtain ⟨hin, hout⟩ := finish_goto v.toNat c s
  exact ⟨fun h => hin (by omega) (by omega), fun h => hout (by omega)⟩

theorem exec_ret (s : State) :
    exec .ret s = finish (popPC s >>= fun p => goto p.1.toNat 4 p.2) := rfl

theorem exec_reti (s : State) : exec .reti s = finish (popPC s >>= fun p =>
    goto p.1.toNat 4 { p.2 with sreg := { p.2.sreg with i := true }, inhibit := true }) := rfl

/-- Settles O16: both are a pop and a jump to the popped word; a pop takes no time of its own. -/
theorem returnResult : Obligations.ReturnResult := by
  refine ⟨fun s t v h => ?popped, fun s e he => ?stop, fun s hi lo => popPC_sram⟩
  case popped =>
    have hcycles : t.cycles = s.cycles := by
      obtain ⟨x, y, rfl⟩ := popPC_frame h
      rfl
    rw [exec_ret, exec_reti, h, Res.ok_bind, Res.ok_bind, ← hcycles]
    obtain ⟨hret, hretOut⟩ := finish_goto_word v 4 t
    obtain ⟨hreti, hretiOut⟩ := finish_goto_word v 4
      { t with sreg := { t.sreg with i := true }, inhibit := true }
    exact ⟨fun hv => ⟨hret hv, hreti hv⟩, fun hv => ⟨hretOut hv, hretiOut hv⟩⟩
  case stop => exact ⟨finish_bind_stop he, finish_bind_stop he⟩

/-! ### Skips (R279) -/

theorem skipIf_undefined {e : Refusal} (h : progWord (s.pc.toNat + 1) s = .error e) :
    skipIf true s = .error e := by
  simp only [skipIf, skipNext, State.pcNat, h, Res.error_bind, if_true]

/-- The length of the skipped instruction is both how far `pc` moves and how long it takes. -/
theorem skipIf_defined {w : Word} (h : progWord (s.pc.toNat + 1) s = .ok w) :
    skipIf true s = advance (if isTwoWord w then 3 else 2) (if isTwoWord w then 3 else 2) s := by
  cases hw : isTwoWord w with
  | true => exact skipIf_two h hw
  | false => exact skipIf_one h hw

/-- Everything the skip step can do. -/
theorem finish_skipIf (c : Bool) (s : State) :
    (c = false →
      (s.hasNext 1 → finish (skipIf c s) =
        .next { s with pc := s.pc + 1, cycles := s.cycles + 1 }) ∧
      (¬ s.hasNext 1 → finish (skipIf c s) = .refused (.pcOutOfRange 16384))) ∧
    (c = true → ∀ e, progWord (s.pc.toNat + 1) s = .error e →
      finish (skipIf c s) = .refused e) ∧
    (c = true → ∀ w n, progWord (s.pc.toNat + 1) s = .ok w → n = (if isTwoWord w then 3 else 2) →
      (s.hasNext n → finish (skipIf c s) =
        .next { s with pc := s.pc + BitVec.ofNat 14 n, cycles := s.cycles + n }) ∧
      (¬ s.hasNext n → finish (skipIf c s) = .refused (.pcOutOfRange (s.pc.toNat + n : Nat)))) := by
  refine ⟨?stays, ?undefined, ?skips⟩
  case stays =>
    rintro rfl
    rw [skipIf_not]
    refine ⟨finish_advance 1, fun h => ?_⟩
    rw [finish_advance_out 1 h, State.pc_add_one_of_last h]
    rfl
  case undefined =>
    rintro rfl e he
    rw [skipIf_undefined he, finish_error]
  case skips =>
    rintro rfl w n hw rfl
    rw [skipIf_defined hw]
    exact ⟨finish_advance _, finish_advance_out _⟩

/-! ### The skips on registers (R288..R290) -/

/-- The three skips on registers, each with its condition. -/
def skipForms (d r : Reg) (b : BitNo) (s : State) : List (Instr × Prop) := [
  (.cpse d r, s.regs[d] = s.regs[r]), (.sbrc r b, s.regs[r].getLsbD b.val = false),
  (.sbrs r b, s.regs[r].getLsbD b.val = true)]

theorem exec_skipForm (d r : Reg) (b : BitNo) (s : State) :
    ∀ w ∈ skipForms d r b s, ∃ c : Bool, (c = true ↔ w.2) ∧ exec w.1 s = finish (skipIf c s) := by
  simp only [skipForms, List.forall_mem_cons]
  exact ⟨⟨_, beq_iff_eq, rfl⟩, ⟨_, iff_of_eq (Bool.not_eq_true' _), rfl⟩, ⟨_, Iff.rfl, rfl⟩,
    List.forall_mem_nil _⟩

/-- Settles O52: the three are one skip step, each with a condition of its own. -/
theorem skipResult : Obligations.SkipResult := by
  intro d r b s i cond hi
  obtain ⟨c, (hc : c = true ↔ cond), hexec⟩ := exec_skipForm d r b s (i, cond) hi
  rw [hexec, ← hc, Bool.not_eq_true]
  exact finish_skipIf c s

/-! ### The skips on I/O registers (R291, R292) -/

/-- The bits of TIFR1 that a rule fixes (R366, R373). -/
theorem bitOf_tifr1Byte : ∀ icf1 ocf1b ocf1a tov1 : Bool,
    let v := tifr1Byte icf1 ocf1b ocf1a tov1
    bitOf v 1 = ocf1a ∧ bitOf v 0 = tov1 ∧ ∀ b ∈ [3, 4, 6, 7], bitOf v b = false := by
  decide

/-- TIFR1 as the core reads it in state `s`. -/
def State.tifr1 (s : State) : Byte :=
  tifr1Byte (Config.drawBit s.draws) (Config.drawBit (s.draws + 1)) s.ocf1a s.tov1

theorem ioRead_tifr1 (s : State) : ioRead 0x16 s = .ok (s.tifr1, s.drew 2) := rfl

theorem ioRead_undescribed {a : BitVec 5} (s : State) (h : a ≠ 0x16) :
    ioRead a.toNat s = .error (.undescribedIO (a.toNat + 0x20)) := by
  have hd : described (a.toNat + 0x20) = false := by
    rw [described_bit_io, decide_eq_false h]
  have ha : a.toNat + 0x20 < 0x100 := by omega
  exact memRead_undescribed s hd ha

/-- The two skips on a bit of TIFR1, each with its condition. -/
def ioSkipForms (b : BitNo) (bit : Bool) : List (Instr × Bool) := [
  (.sbic 0x16 b, !bit), (.sbis 0x16 b, bit)]

/-- The read comes first, so the skip step begins where the two free bits have been drawn. -/
theorem exec_ioSkipForm (b : BitNo) (s : State) :
    ∀ w ∈ ioSkipForms b (bitOf s.tifr1 b), exec w.1 s = finish (skipIf w.2 (s.drew 2)) := by
  simp only [ioSkipForms, List.forall_mem_cons]
  exact ⟨rfl, rfl, List.forall_mem_nil _⟩

/-- Settles O53: the skip step after a read of TIFR1; elsewhere the read stops. -/
theorem ioSkipResult : Obligations.IoSkipResult := by
  intro a b s
  obtain ⟨hocf1a, htov1, hzero⟩ := bitOf_tifr1Byte (Config.drawBit s.draws)
    (Config.drawBit (s.draws + 1)) s.ocf1a s.tov1
  refine ⟨⟨bitOf s.tifr1 b, ?bit1, ?bit0, hzero b, fun i skips hi => ?skip⟩, fun ha => ?stop⟩
  case bit1 => rintro rfl; exact hocf1a
  case bit0 => rintro rfl; exact htov1
  case skip =>
    rw [exec_ioSkipForm b s (i, skips) hi]
    exact finish_skipIf skips (s.drew 2)
  case stop =>
    have hread := ioRead_undescribed s ha
    exact ⟨finish_bind_stop hread, finish_bind_stop hread⟩

end Sys2Proof.Machine
end

section
/-! SUPPORT. Conditional branches (spec/45_branch.md). Each branch is the branch step of R328 on its own
condition, the two signed ones after a test of the sign flag. A comparison, of bytes or of words, leaves
flags that order its operands; the order of two words is that of the high bytes with the low bytes'
borrow. -/

namespace Sys2Proof.Machine

variable {s t : State}

/-! ### The branch step (R328) -/

/-- Everything the branch step can do. A branch not taken ends like a skip not taken. -/
theorem finish_branchIf (c : Bool) (k : BitVec 7) (s : State) :
    let target : Int := (s.pc.toNat : Int) + 1 + k.toInt
    (c = false →
      (s.hasNext 1 → finish (branchIf c k s) =
        .next { s with pc := s.pc + 1, cycles := s.cycles + 1 }) ∧
      (¬ s.hasNext 1 → finish (branchIf c k s) = .refused (.pcOutOfRange 16384))) ∧
    (c = true → 0 ≤ target → target < 16384 → finish (branchIf c k s) =
      .next { s with pc := BitVec.ofInt 14 target, cycles := s.cycles + 2 }) ∧
    (c = true → (target < 0 ∨ 16384 ≤ target) →
      finish (branchIf c k s) = .refused (.pcOutOfRange target)) := by
  intro target
  obtain ⟨hin, hout⟩ := finish_goto target 2 s
  cases c with
  | false =>
    rw [branchIf_not, ← skipIf_not]
    exact ⟨(finish_skipIf false s).1, nofun, nofun⟩
  | true =>
    rw [branchIf_taken]
    exact ⟨nofun, fun _ => hin, fun _ => hout⟩

/-! ### The branches on one flag (R310..R325) -/

/-- The sixteen branches on one flag, each with its condition. -/
def branchForms (k : BitVec 7) (f : Sreg) : List (Instr × Bool) := [
  (.breq k, f.z), (.brne k, !f.z), (.brcs k, f.c), (.brcc k, !f.c), (.brlo k, f.c), (.brsh k, !f.c),
  (.brmi k, f.n), (.brpl k, !f.n), (.brhs k, f.h), (.brhc k, !f.h), (.brts k, f.t), (.brtc k, !f.t),
  (.brvs k, f.v), (.brvc k, !f.v), (.brie k, f.i), (.brid k, !f.i)]

theorem exec_branchForm (k : BitVec 7) (s : State) :
    ∀ w ∈ branchForms k s.sreg, exec w.1 s = finish (branchIf w.2 k s) := by
  simp only [branchForms, List.forall_mem_cons]
  exact ⟨rfl, rfl, rfl, rfl, rfl, rfl, rfl, rfl, rfl, rfl, rfl, rfl, rfl, rfl, rfl, rfl,
    List.forall_mem_nil _⟩

/-- Settles O54: the sixteen are one branch step, each with a condition of its own. -/
theorem branchResult : Obligations.BranchResult := by
  intro k s i taken hi
  rw [exec_branchForm k s (i, taken) hi]
  exact finish_branchIf taken k s

/-! ### The signed branches (R326, R327) -/

theorem branchSigned_eq (c : Bool) (k : BitVec 7) (h : s.sreg.s = (s.sreg.n ^^ s.sreg.v)) :
    branchSigned c k s = branchIf c k s := by
  simp [branchSigned, h]

theorem branchSigned_mismatch (c : Bool) (k : BitVec 7) (h : s.sreg.s ≠ (s.sreg.n ^^ s.sreg.v)) :
    branchSigned c k s = .error .signFlagMismatch :=
  if_pos (bne_iff_ne.mpr h)

/-- The two signed branches, each with its condition. -/
def signedBranchForms (k : BitVec 7) (f : Sreg) : List (Instr × Bool) := [
  (.brge k, !f.s), (.brlt k, f.s)]

theorem exec_signedBranchForm (k : BitVec 7) (s : State) :
    ∀ w ∈ signedBranchForms k s.sreg, exec w.1 s = finish (branchSigned w.2 k s) := by
  simp only [signedBranchForms, List.forall_mem_cons]
  exact ⟨rfl, rfl, List.forall_mem_nil _⟩

/-- Settles O55: the two are the branch step once S is known to be N xor V, and stop before it otherwise. -/
theorem signedBranchResult : Obligations.SignedBranchResult := by
  intro k s i taken hi
  rw [exec_signedBranchForm k s (i, taken) hi]
  refine ⟨fun hsign => ?agrees, fun hsign => ?differs⟩
  case agrees =>
    rw [branchSigned_eq taken k hsign]
    exact finish_branchIf taken k s
  case differs => rw [branchSigned_mismatch taken k hsign, finish_error]

/-! ### The flags of a subtraction as an order (R329) -/

/-- The flags say how `x` and `y` compare: as signed numbers (N xor V), for equality (Z), and as unsigned
numbers (C). -/
def Sreg.Orders {w : Nat} (f : Sreg) (x y : BitVec w) : Prop :=
  ((f.n ^^ f.v) = true ↔ x.toInt < y.toInt) ∧ (f.z = true ↔ x = y) ∧
    (f.c = true ↔ x.toNat < y.toNat)

theorem toInt_subResult (a b : Byte) (cin : Bool) :
    (subResult a b cin).toInt = (a.toInt - b.toInt - cin.toNat).bmod 256 := by
  rw [subResult, BitVec.toInt_sub, BitVec.toInt_sub, Int.bmod_sub_bmod]
  cases cin <;> rfl

/-- The sign of the difference, corrected by the overflow, is the sign of the unbounded difference. -/
theorem subFlags_n_xor_v (f : Sreg) (a b : Byte) (cin keepZ : Bool) :
    ((subFlags f a b cin keepZ).n ^^ (subFlags f a b cin keepZ).v) = true ↔
      a.toInt < b.toInt + cin.toNat := by
  have ha := BitVec.toInt_lt (x := a)
  have ha' := BitVec.le_toInt a
  have hb := BitVec.toInt_lt (x := b)
  have hb' := BitVec.le_toInt b
  have hc := Bool.toNat_le cin
  have hr := toInt_subResult a b cin
  rw [Int.bmod_def] at hr
  rw [subFlags_eq, ← subResult_eq_ofInt, BitVec.msb_eq_toInt, Bool.xor_iff_ne, ne_eq, decide_eq_decide]
  omega

theorem subFlags_c (f : Sreg) (a b : Byte) (cin keepZ : Bool) :
    (subFlags f a b cin keepZ).c = true ↔ a.toNat < b.toNat + cin.toNat := by
  rw [subFlags_eq, decide_eq_true_eq]

theorem subResult_eq_zero_iff (a b : Byte) : subResult a b false = 0 ↔ a = b := by
  rw [subResult, show carryByte false = 0 from rfl, sub_zero, sub_eq_zero]

theorem subFlags_z (f : Sreg) (a b : Byte) (cin keepZ : Bool) :
    (subFlags f a b cin keepZ).z = true ↔ subResult a b cin = 0 ∧ (keepZ = true → f.z = true) := by
  rw [subFlags_eq, decide_eq_true_eq, subResult_eq_ofInt]

/-- The flags of a subtraction without borrow order its operands. -/
theorem subFlags_orders (f : Sreg) (a b : Byte) : (subFlags f a b false false).Orders a b := by
  refine ⟨?signed, ?equal, ?unsigned⟩
  case signed => simpa using subFlags_n_xor_v f a b false false
  case equal => rw [subFlags_z, subResult_eq_zero_iff]; simp
  case unsigned => simpa using subFlags_c f a b false false

theorem toNat_append_byte (h l : Byte) : (h ++ l : Word).toNat = 256 * h.toNat + l.toNat := by
  rw [BitVec.toNat_append, ← Nat.shiftLeft_add_eq_or_of_lt l.isLt, Nat.shiftLeft_eq, Nat.mul_comm]

theorem toInt_append_byte (h l : Byte) : (h ++ l : Word).toInt = 256 * h.toInt + l.toNat := by
  have hh := h.isLt
  have hl := l.isLt
  simp only [BitVec.toInt_eq_toNat_cond, toNat_append_byte]
  omega

/-- Flags that order the low bytes become, by the subtraction of the high bytes with the borrow and the zero
flag carried on, flags that order the words. -/
theorem Sreg.Orders.append {f : Sreg} {al bl : Byte} (h : f.Orders al bl) (ah bh : Byte) :
    (subFlags f ah bh f.c true).Orders (ah ++ al : Word) (bh ++ bl : Word) := by
  obtain ⟨-, hz, hc⟩ := h
  have hal := al.isLt
  have hbl := bl.isLt
  have hborrow : f.c.toNat = if al.toNat < bl.toNat then 1 else 0 := by
    simp [← hc, Bool.toNat, Bool.cond_eq_ite]
  refine ⟨?signed, ?equal, ?unsigned⟩
  case signed =>
    rw [subFlags_n_xor_v, toInt_append_byte, toInt_append_byte, hborrow]
    split <;> omega
  case equal =>
    have hwords : (ah ++ al : Word) = bh ++ bl ↔ ah = bh ∧ al = bl := by
      simp only [← BitVec.toNat_inj, toNat_append_byte]
      omega
    have hnoBorrow : al = bl → f.c = false := by
      rintro rfl
      simpa using hc
    simp only [subFlags_z, hwords, hz, forall_const]
    exact and_congr_left fun hl => by rw [hnoBorrow hl, subResult_eq_zero_iff]
  case unsigned =>
    rw [subFlags_c, toNat_append_byte, toNat_append_byte, hborrow]
    split <;> omega

/-! ### The comparisons (R329) -/

section
variable {d r : Reg} {k b : Byte} {i : Instr} {cin keepZ : Bool}

/-- A comparison that completes leaves the flags of the subtraction and every register. -/
theorem compareForm_next (hi : (i, b, cin, keepZ) ∈ compareForms d r k s)
    (h : exec i s = .next t) :
    t.sreg = subFlags s.sreg s.regs[d] b cin keepZ ∧ t.regs = s.regs := by
  rw [exec_compareForm d r k s _ hi, finish_next_iff, compareReg, advance_ok_iff] at h
  obtain ⟨-, rfl⟩ := h
  exact ⟨rfl, rfl⟩

theorem subForm_next (hi : (i, b, cin, keepZ) ∈ subForms d r k s) (h : exec i s = .next t) :
    t.sreg = subFlags s.sreg s.regs[d] b cin keepZ := by
  rw [exec_subForm d r k s _ hi, finish_next_iff, subReg, aluEnd, advance_ok_iff] at h
  obtain ⟨-, rfl⟩ := h
  rfl

/-- The instructions after which the flags compare two bytes, each with its second operand. -/
def byteComparisons (d r : Reg) (k : Byte) (s : State) : List (Instr × Byte) := [
  (.cp d r, s.regs[r]), (.sub d r, s.regs[r]), (.cpi d k, k), (.subi d k, k)]

theorem byteComparison_form (d r : Reg) (k : Byte) (s : State) :
    ∀ w ∈ byteComparisons d r k s, (w.1, w.2, false, false) ∈ compareForms d r k s ∨
      (w.1, w.2, false, false) ∈ subForms d r k s := by
  simp only [byteComparisons, List.forall_mem_cons]
  exact ⟨.inl (.head _), .inr (.head _), .inl (.tail _ (.head _)), .inr (.tail _ (.head _)),
    List.forall_mem_nil _⟩

theorem byteComparison_next (hi : (i, b) ∈ byteComparisons d r k s) (h : exec i s = .next t) :
    t.sreg = subFlags s.sreg s.regs[d] b false false := by
  obtain hcompare | hsub := byteComparison_form d r k s (i, b) hi
  · exact (compareForm_next hcompare h).1
  · exact subForm_next hsub h

end

/-- Settles O43: the flags of the byte subtraction order the bytes; CPC carries the order of the low bytes,
which CP left, on to the words. -/
theorem compareTable : Obligations.CompareTable := by
  refine ⟨fun d r k s t i b hi h => ?bytes, fun dl dh rl rh s t u hlow hhigh => ?words⟩
  case bytes =>
    rw [byteComparison_next hi h]
    exact subFlags_orders s.sreg s.regs[d] b
  case words =>
    obtain ⟨hlowFlags, hregs⟩ :=
      compareForm_next (d := dl) (r := rl) (k := 0) (.head _) hlow
    obtain ⟨hhighFlags, -⟩ :=
      compareForm_next (d := dh) (r := rh) (k := 0) (.tail _ (.tail _ (.head _))) hhigh
    have horders : t.sreg.Orders s.regs[dl] s.regs[rl] := hlowFlags ▸ subFlags_orders _ _ _
    rw [hhighFlags, hregs]
    exact horders.append s.regs[dh] s.regs[rh]

end Sys2Proof.Machine
end

section
/-! SUPPORT. Interrupts and Timer/Counter1 (spec/60_exceptions.md): what the core does at a boundary, which
interrupt it takes there and what the entry leaves, which clock the timer counts, what one count does, and
the access to the 16-bit timer registers. -/

namespace Sys2Proof.Machine

variable {s t : State} {n : Nat} {i : Instr}

/-! ### The instruction at `pc` (R62, R345) -/

/-- The decoder looks at the second word only where the first asks for it. -/
theorem decode_of_oneWord {w : Word} (h : isTwoWord w = false) (w2 w2' : Word) :
    decode w w2 = decode w w2' := by
  have hcut (x : Word) : decodeWords [w] = decode w x := by
    simpa only [h, Bool.false_eq_true, if_false] using decodeWords_of_isTwoWord w x
  exact (hcut w2).symm.trans (hcut w2')

theorem fetch_of_decode {w w2 : Word} (hdecode : decode w w2 = .ok i)
    (hfirst : progWord s.pcNat s = .ok w)
    (hsecond : isTwoWord w = true → progWord (s.pcNat + 1) s = .ok w2) : fetch s = .ok i :=
  fetch_ok hfirst hsecond hdecode fun hone => (decode_of_oneWord hone 0 w2).trans hdecode

theorem fetch_afterBoundary (s : State) : fetch (afterBoundary s) = fetch s := by
  obtain ⟨d, hd⟩ := afterBoundary_eq s
  rw [hd]
  rfl

theorem coreStep_of_awake (hawake : s.sleeping = false) (hnone : takenVector s = none)
    (hfetch : fetch s = .ok i) : coreStep s = exec i { afterBoundary s with inhibit := false } := by
  have hboundary : fetch (afterBoundary s) = .ok i := (fetch_afterBoundary s).trans hfetch
  simp only [coreStep, hnone, hawake, Bool.false_eq_true, if_false, runInstruction, hboundary]

theorem step_of_open (h : s.agenda = []) : step s = openMove s := by
  simp only [step, h]

theorem step_of_fixed {m : Move} {rest : List Move} (h : s.agenda = m :: rest) :
    step s = performMove m { s with agenda := rest } := by
  simp only [step, h]

/-- Settles O7: both kinds of turn are the core's move, and neither the agenda nor the boundary is part of
what it fetches. -/
theorem stepRunsDecoded : Obligations.StepRunsDecoded := by
  intro i s w w2 rest hdecode hfirst hsecond hawake hnone
  have hfetch : fetch s = .ok i := fetch_of_decode hdecode hfirst hsecond
  refine ⟨fun hopen hstopped => ?openTurn, fun hfixed => ?fixedTurn⟩
  case openTurn =>
    rw [step_of_open hopen, openMove, if_pos hstopped]
    exact coreStep_of_awake hawake hnone hfetch
  case fixedTurn =>
    rw [step_of_fixed hfixed]
    exact coreStep_of_awake (s := { s with agenda := rest }) hawake hnone hfetch

/-! ### Interrupt entry (R341, R346) -/

/-- The address of a vector is in program memory, so that its write of `pc` has a result. -/
theorem goto_vectorAddress (hlo : 2 ≤ n) (hhi : n ≤ 26) (c : Nat) (s : State) :
    goto (vectorAddress n) c s =
      .ok { s with pc := BitVec.ofNat 14 (2 * (n - 1)), cycles := s.cycles + c } := by
  have hlast : vectorAddress n < 16384 := by
    rw [vectorAddress]
    omega
  rw [goto_ok s c (by omega) (by omega), BitVec.ofInt_natCast, vectorAddress]

/-- A flag that only the entry of vector `m` clears. -/
theorem and_bne_eq_ite (flag : Bool) (n m : Nat) : (flag && n != m) = if n = m then false else flag := by
  by_cases h : n = m <;> simp [h]

theorem interruptEntry_of_pushed (hlo : 2 ≤ n) (hhi : n ≤ 26)
    (h : pushPC (s.pc.setWidth 16) s = .ok t) :
    interruptEntry n s = .ok { t with
      sreg := { t.sreg with i := false }
      ocf1a := if n = 12 then false else t.ocf1a
      tov1 := if n = 14 then false else t.tov1
      sleeping := false
      inhibit := false
      pc := BitVec.ofNat 14 (2 * (n - 1))
      cycles := s.cycles + 4 } := by
  simp only [interruptEntry, h, Res.ok_bind, goto_vectorAddress hlo hhi, and_bne_eq_ite,
    pushPC_cycles h]

theorem interruptEntry_stop {e : Refusal} (h : pushPC (s.pc.setWidth 16) s = .error e) :
    interruptEntry n s = .error e := by
  simp only [interruptEntry, h, Res.error_bind]

/-- Settles O14: the entry is the push of `pc` and what it writes after it. -/
theorem interruptEntryResult : Obligations.InterruptEntryResult := by
  intro n s hlo hhi
  refine ⟨fun t ht => interruptEntry_of_pushed hlo hhi ht, fun e he => interruptEntry_stop he,
    fun h0 h1 => ?sram⟩
  case sram => exact interruptEntry_of_pushed hlo hhi (pushPC_sram h0 h1)

/-! ### The interrupt that is taken (R342..R345) -/

/-- The search goes through the vectors in the order of their numbers. -/
theorem pendingVector_iff :
    pendingVector s = some n ↔ 2 ≤ n ∧ n ≤ 26 ∧ individualEnable s n = true ∧ requested s n = true ∧
      ∀ m, 2 ≤ m → m < n → ¬ (individualEnable s m = true ∧ requested s m = true) := by
  have hrange : n ∈ List.range' 2 25 ↔ 2 ≤ n ∧ n ≤ 26 := by
    rw [List.mem_range'_1]
    omega
  simp only [pendingVector, interruptVectors, List.find?_range'_eq_some, hrange, Bool.not_eq_true',
    Bool.and_eq_true, ← Bool.not_eq_true]
  tauto

/-- The sources whose interrupts the spec describes: the four of Timer/Counter1 (R369). -/
theorem source_of_enabled_request (henabled : individualEnable s n = true)
    (hrequested : requested s n = true) :
    (n = 11 ∧ s.timsk1[5] = true) ∨ (n = 12 ∧ s.ocf1a = true ∧ s.timsk1[1] = true) ∨
      (n = 13 ∧ s.timsk1[2] = true) ∨ (n = 14 ∧ s.tov1 = true ∧ s.timsk1[0] = true) := by
  unfold individualEnable at henabled
  split at henabled
  case h_1 => exact .inl ⟨rfl, henabled⟩
  case h_2 => exact .inr (.inl ⟨rfl, hrequested, henabled⟩)
  case h_3 => exact .inr (.inr (.inl ⟨rfl, henabled⟩))
  case h_4 => exact .inr (.inr (.inr ⟨rfl, hrequested, henabled⟩))
  case h_5 => cases henabled

theorem coreStep_of_taken (h : takenVector s = some n) :
    coreStep s = finish (interruptEntry n (afterBoundary s)) := by
  simp only [coreStep, h]

/-- Settles O15: the vector found is the lowest, and `I` and `inhibit` decide whether it is taken. -/
theorem interruptSelection : Obligations.InterruptSelection := by
  intro s n
  have hselect : takenVector s = some n ↔
      s.sreg.i = true ∧ s.inhibit = false ∧ pendingVector s = some n :=
    takenVector_iff.trans (by tauto)
  rw [pendingVector_iff] at hselect
  refine ⟨hselect, fun htaken => ⟨?source, coreStep_of_taken htaken⟩⟩
  case source =>
    obtain ⟨-, -, -, -, henabled, hrequested, -⟩ := hselect.mp htaken
    exact source_of_enabled_request henabled hrequested

/-! ### The delay after SEI and RETI (R350, R411, R412) -/

theorem exec_sei_next (h : exec .sei s = .next t) : t.sreg.i = true ∧ t.inhibit = true := by
  rw [exec_sei, finish_next_iff, advance_ok_iff] at h
  obtain ⟨-, rfl⟩ := h
  exact ⟨rfl, rfl⟩

theorem exec_reti_next (h : exec .reti s = .next t) : t.sreg.i = true ∧ t.inhibit = true := by
  obtain ⟨v, u, -, -, rfl⟩ := interruptReturn_ok_iff.mp (finish_next_iff.mp h)
  exact ⟨rfl, rfl⟩

theorem exec_cli (s : State) :
    exec .cli s = finish (advance 1 1 (s.setSreg { s.sreg with i := false })) := rfl

theorem exec_cli_next (h : exec .cli s = .next t) : t.sreg.i = false := by
  rw [exec_cli, finish_next_iff, advance_ok_iff] at h
  obtain ⟨-, rfl⟩ := h
  rfl

/-- Settles O17: each of the three leaves what its boundary needs to take nothing. -/
theorem enableDelay : Obligations.EnableDelay := by
  refine ⟨fun s t h => ?sei, fun s t h => ?reti, fun s t h => ?cli, fun s h => ?boundary⟩
  case sei =>
    obtain ⟨hi, hinhibit⟩ := exec_sei_next h
    exact ⟨hi, hinhibit, takenVector_of_inhibit hinhibit⟩
  case reti =>
    obtain ⟨hi, hinhibit⟩ := exec_reti_next h
    exact ⟨hi, hinhibit, takenVector_of_inhibit hinhibit⟩
  case cli =>
    have hi : t.sreg.i = false := exec_cli_next h
    exact ⟨hi, takenVector_of_disabled hi⟩
  case boundary => exact h.elim takenVector_of_inhibit takenVector_of_disabled

/-! ### One count (R372) -/

theorem timerMatch_of_ne (h : s.tcnt1 ≠ s.ocr1a) : timerMatch s = false := by
  rw [timerMatch, beq_eq_false_iff_ne.mpr h, Bool.false_and]

/-- The counter is cleared by a hit in CTC mode. -/
theorem tick_eq_of_timerMatch (s : State) : tick s = { s with
    tcnt1 := if timerMatch s = true ∧ s.tccr1b[3] = true then 0 else s.tcnt1 + 1
    ocf1a := s.ocf1a || timerMatch s
    tov1 := (tick s).tov1
    matchBlocked := false
    draws := s.draws + 2 } := by
  simp only [tick, State.ctcMode, Bool.and_eq_true]

theorem tick_tov1_of_ne (h : s.tcnt1 ≠ 0xFFFF) : (tick s).tov1 = s.tov1 := by
  simp only [tick, beq_eq_false_iff_ne.mpr h, Bool.false_and, Bool.or_false]

theorem tick_tov1_of_set (h : s.tov1 = true) : (tick s).tov1 = true := by
  simp only [tick, h, Bool.true_or]

theorem tick_tov1_of_overflow (h : s.tcnt1 = 0xFFFF)
    (hcleared : ¬ (timerMatch s = true ∧ s.tccr1b[3] = true)) : (tick s).tov1 = true := by
  have hkept : (timerMatch s && s.ctcMode) = false :=
    Bool.eq_false_iff.mpr fun hc => hcleared (Bool.and_eq_true_iff.mp hc)
  simp only [tick, hkept, h, beq_self_eq_true, Bool.not_false, Bool.true_or, Bool.and_true,
    Bool.or_true]

/-- Settles O18: the hit is the compare of the model. -/
theorem tickEffect : Obligations.TickEffect := fun s =>
  ⟨timerMatch s, timerMatch_of_ne, fun hmatch hopen => timerMatch_of_eq hopen hmatch,
    tick_eq_of_timerMatch s, tick_tov1_of_ne, tick_tov1_of_set, tick_tov1_of_overflow⟩

/-! ### The clock (R361, R372) -/

/-- The clock-select table: CS12:0 as the low bits of TCCR1B, and the clock. -/
def clockTable : List (Byte × ClockSource) := [
  (0, .stopped), (1, .prescaled 1), (2, .prescaled 8), (3, .prescaled 64), (4, .prescaled 256),
  (5, .prescaled 1024), (6, .t1Falling), (7, .t1Rising)]

/-- Each of the 256 bytes has its row. -/
theorem clockSource_mem_clockTable : ∀ b : Byte, (b &&& 7, clockSource b) ∈ clockTable := by decide

theorem clockSource_internal_iff (b : Byte) :
    (clockSource b).internal = true ↔ b &&& 7 ∈ [1, 2, 3, 4, 5] := by
  have hrow : ∀ x ∈ clockTable, x.2.internal = true ↔ x.1 ∈ [1, 2, 3, 4, 5] := by decide
  exact hrow _ (clockSource_mem_clockTable b)

theorem clockSource_t1Falling_iff (b : Byte) : clockSource b = .t1Falling ↔ b &&& 7 = 6 := by
  have hrow : ∀ x ∈ clockTable, x.2 = .t1Falling ↔ x.1 = 6 := by decide
  exact hrow _ (clockSource_mem_clockTable b)

theorem clockSource_t1Rising_iff (b : Byte) : clockSource b = .t1Rising ↔ b &&& 7 = 7 := by
  have hrow : ∀ x ∈ clockTable, x.2 = .t1Rising ↔ x.1 = 7 := by decide
  exact hrow _ (clockSource_mem_clockTable b)

theorem clockSource_stopped_iff (b : Byte) : clockSource b = .stopped ↔ b &&& 7 = 0 := by
  have hrow : ∀ x ∈ clockTable, x.2 = .stopped ↔ x.1 = 0 := by decide
  exact hrow _ (clockSource_mem_clockTable b)

theorem clockSource_eq_ite (b : Byte) : clockSource b =
    if b &&& 7 = 0 then .stopped else if b &&& 7 = 1 then .prescaled 1
    else if b &&& 7 = 2 then .prescaled 8 else if b &&& 7 = 3 then .prescaled 64
    else if b &&& 7 = 4 then .prescaled 256 else if b &&& 7 = 5 then .prescaled 1024
    else if b &&& 7 = 6 then .t1Falling else .t1Rising := by
  have hrow : ∀ x ∈ clockTable, x.2 =
      if x.1 = 0 then .stopped else if x.1 = 1 then .prescaled 1
      else if x.1 = 2 then .prescaled 8 else if x.1 = 3 then .prescaled 64
      else if x.1 = 4 then .prescaled 256 else if x.1 = 5 then .prescaled 1024
      else if x.1 = 6 then .t1Falling else .t1Rising := by decide
  exact hrow _ (clockSource_mem_clockTable b)

/-- A clock whose test in the model is `p` counts where `p` holds, and passes elsewhere. -/
theorem next_ite_tick {p counts : Prop} [Decidable p] (h : p ↔ counts) (s : State) :
    (counts → (.next (if p then tick s else s) : Outcome) = .next (tick s)) ∧
    (¬ counts → (.next (if p then tick s else s) : Outcome) = .next s) :=
  ⟨fun hc => by rw [if_pos (h.mpr hc)], fun hc => by rw [if_neg (mt h.mp hc)]⟩

/-- An open turn while the timer runs is a count or the core's move. -/
theorem openMove_of_running (h : clockSource s.tccr1b ≠ .stopped) :
    openMove s = .next (tick (s.drew 1)) ∨ openMove s = coreStep (s.drew 1) := by
  rw [openMove, if_neg h]
  exact ite_eq_or_eq _ _ _

/-- The moves that are a clock of the timer, each with when it counts, in the bits CS12:0 of TCCR1B. -/
def clockMoves (tccr1b : Byte) : List (Move × Prop) := [
  (.prescaledClock, tccr1b &&& 7 ∈ [1, 2, 3, 4, 5]), (.t1Falling, tccr1b &&& 7 = 6),
  (.t1Rising, tccr1b &&& 7 = 7)]

/-- The three differ in the test of the clock source only. -/
theorem performMove_clockMove (s : State) : ∀ w ∈ clockMoves s.tccr1b,
    (w.2 → performMove w.1 s = .next (tick s)) ∧ (¬ w.2 → performMove w.1 s = .next s) := by
  simp only [clockMoves, List.forall_mem_cons]
  exact ⟨next_ite_tick (clockSource_internal_iff _) s, next_ite_tick (clockSource_t1Falling_iff _) s,
    next_ite_tick (clockSource_t1Rising_iff _) s, List.forall_mem_nil _⟩

/-- Settles O19. -/
theorem clockSelect : Obligations.ClockSelect := by
  refine ⟨clockSource_eq_ite, fun s rest m counts hm hagenda => ?fixedTurn,
    fun s hagenda hcs => ?openTurn⟩
  case fixedTurn =>
    rw [step_of_fixed hagenda]
    exact performMove_clockMove { s with agenda := rest } (m, counts) hm
  case openTurn =>
    rw [step_of_open hagenda]
    exact openMove_of_running (mt (clockSource_stopped_iff s.tccr1b).mp hcs)

/-! ### The 16-bit timer registers (R370) -/

/-- TCNT1H and OCR1AH are written to TEMP1. -/
theorem memWrite_tcnt1h (v : Byte) (s : State) : memWrite 0x85 v s = .ok { s with temp1 := v } := rfl

theorem memWrite_ocr1ah (v : Byte) (s : State) : memWrite 0x89 v s = .ok { s with temp1 := v } := rfl

theorem memWrite_tcnt1l (v : Byte) (s : State) :
    memWrite 0x84 v s = .ok { s with tcnt1 := bytePair s.temp1 v, matchBlocked := true } := rfl

theorem memWrite_ocr1al (v : Byte) (s : State) :
    memWrite 0x88 v s = .ok { s with ocr1a := bytePair s.temp1 v } := rfl

theorem memRead_tcnt1l (s : State) :
    memRead 0x84 s = .ok (lowByte s.tcnt1, { s with temp1 := highByte s.tcnt1 }) := rfl

theorem memRead_tcnt1h (s : State) : memRead 0x85 s = .ok (s.temp1, s) := rfl

/-- A count leaves the latch alone. -/
theorem tick_temp1 (s : State) : (tick s).temp1 = s.temp1 := rfl

/-- Settles O23: TEMP1 holds the high byte between the two accesses. -/
theorem timerByteAccess : Obligations.TimerByteAccess := by
  intro s hi lo
  refine ⟨?tcnt1, ?ocr1a, _, memRead_tcnt1l s, ?latched⟩
  case tcnt1 => rw [memWrite_tcnt1h, Res.ok_bind, memWrite_tcnt1l]
  case ocr1a => rw [memWrite_ocr1ah, Res.ok_bind, memWrite_ocr1al]
  case latched => rw [memRead_tcnt1h, tick_temp1]

end Sys2Proof.Machine
end

section
/-! SUPPORT. The reset event (spec/70_reset_and_hazards.md R401). Most of what it sets depends neither on the
cause nor on the state before; the cause decides only whether R0..R31, SRAM and TEMP1 keep their contents
(spec/10_state.md R43). -/

namespace Sys2Proof.Machine

variable {cause : ResetCause}

/-- All flags 0 is the byte 0 (R26). -/
theorem Sreg.toByte_zero : Sreg.zero.toByte = 0 := rfl

/-- After a power-on no SRAM byte holds a value. -/
theorem resetEvent_powerOn_sram (s : State) : (resetEvent .powerOn s).sram = [] := rfl

/-- A reset that is no power-on writes the special registers, the timer and the core's own bits only. -/
theorem resetEvent_of_ne_powerOn (h : cause ≠ .powerOn) (s : State) :
    resetEvent cause s = { resetEvent .powerOn s with
      regs := s.regs, sram := s.sram, temp1 := s.temp1 } := by
  simp only [resetEvent, h, ne_eq, not_false_eq_true, decide_true, if_true]

/-- Settles O13: what is kept is where the two kinds of cause differ, and a reset in the agenda is performed
with no look at the core. -/
theorem resetEventValues : Obligations.ResetEventValues := by
  intro cause s rest
  refine ⟨⟨rfl, Sreg.toByte_zero, rfl, rfl, rfl, rfl, rfl, rfl, rfl, rfl, rfl, rfl, rfl, rfl, ?powerOn, ?kept⟩, ?happens⟩
  case powerOn =>
    rintro rfl a
    rw [resetEvent_powerOn_sram, Memory.read_nil]
  case kept =>
    intro hcause
    rw [resetEvent_of_ne_powerOn hcause]
    exact ⟨rfl, rfl, rfl⟩
  case happens => exact step_of_fixed

end Sys2Proof.Machine
end
